-- ==== Sys2Proof/Word.lean ====
section
/-!
DEFINITION. The units of wfb-tx-core: the byte of a buffer or frame, the 32-bit word of the command and response
ports (00_scope.md R11, 20_memory.md R65).
-/

namespace Sys2Proof

/-- "A byte is an unsigned 8-bit value" (R11). -/
abbrev Byte := BitVec 8

/-- "On the command port the unit is a 32-bit word" (R65). -/
abbrev Word := BitVec 32

end Sys2Proof
end

