-- ==== Sys2Proof/Config.lean ====
section
/-!
DEFINITION. What an implementation fixes (00_scope.md R8, R13) and the one free draw of the environment (R14).

The spec gives no number for any parameter, so the machine of this package runs on OPAQUE constants without a body:
whatever is proved of it holds for every admissible parameter set, every coder and every sequence of link verdicts.
The operations of the machine take the environment as an ARGUMENT (R9), so that the spec's test configuration `Params.ref` can be given to them too.
-/

namespace Sys2Proof

/-- `HDR_ORDER`, the byte order of multi-byte header fields (R8, R63). -/
inductive HdrOrder where
  | le
  | be
deriving DecidableEq, Repr, Inhabited

/-- The link sender's verdict for one frame (R14). -/
inductive Verdict where
  | ok
  | fail
deriving DecidableEq, Repr, Inhabited

/-- The implementation parameters of R8, but for the coder. `L_PHY` and `L_LINK` are the lengths of the two ROMs. -/
structure Params where
  /-- `F`, fragment capacity in bytes. -/
  fragCap : Nat
  /-- `W_SEQ`, width in bits of the sequence number field. -/
  wSeq : Nat
  /-- `W_LEN`, width in bits of the original payload length field. -/
  wLen : Nat
  /-- `W_BLK`, width in bits of `BLK_IDX` and its field. -/
  wBlk : Nat
  /-- `W_FRG`, width in bits of the fragment index field. -/
  wFrg : Nat
  /-- `HDR_ORDER`. -/
  hdrOrder : HdrOrder
  /-- `PHY_ROM`, the constant physical-layer preamble. -/
  phyRom : List Byte
  /-- `LINK_ROM`, the constant link-address preamble. -/
  linkRom : List Byte
  /-- `TAG_OFF_A`, the first offset of `LINK_ROM` that the channel tag overwrites. -/
  tagOffA : Nat
  /-- `TAG_OFF_B`, the second. -/
  tagOffB : Nat
  /-- `MAX_FRAME`, the link's maximum frame size in bytes. -/
  maxFrame : Nat
  /-- `N_MAX`, the number of fragment buffers built in. -/
  nMax : Nat
  /-- `TIME_UNIT`, in nanoseconds. "no rule depends on the unit" (93_implementation_defined.md), so nothing reads it. -/
  timeUnitNs : Nat
deriving DecidableEq, Repr

/-- `H_PKT = W_SEQ/8 + W_LEN/8`, the per-packet header size (R8). -/
abbrev Params.hPkt (p : Params) : Nat := p.wSeq / 8 + p.wLen / 8

/-- `H_FRG = W_BLK/8 + W_FRG/8`, the fragment header size (R8). -/
abbrev Params.hFrg (p : Params) : Nat := p.wBlk / 8 + p.wFrg / 8

/-- `AGG_CAP = F - H_PKT`, the accumulation capacity (R8). -/
abbrev Params.aggCap (p : Params) : Nat := p.fragCap - p.hPkt

/-- The constraints of R8. "A parameter set that breaks a constraint of rule R8 is not a wfb-tx-core" (R10). -/
abbrev Params.Valid (p : Params) : Prop :=
  (p.hPkt ≤ p.fragCap ∧ p.fragCap ≤ 65535) ∧
  (p.wSeq % 8 = 0 ∧ 8 ≤ p.wSeq ∧ p.wSeq ≤ 64) ∧
  (p.wLen % 8 = 0 ∧ p.fragCap - p.hPkt < 2 ^ p.wLen) ∧
  (p.wBlk % 8 = 0 ∧ 8 ≤ p.wBlk ∧ p.wBlk ≤ 64) ∧
  (p.wFrg % 8 = 0 ∧ p.nMax ≤ 2 ^ p.wFrg) ∧
  (2 ≤ p.linkRom.length ∧ p.tagOffA ≠ p.tagOffB ∧ p.tagOffA < p.linkRom.length ∧ p.tagOffB < p.linkRom.length) ∧
  (p.phyRom.length + p.linkRom.length + p.hFrg + p.fragCap ≤ p.maxFrame) ∧
  (1 ≤ p.nMax ∧ p.nMax ≤ 65535)

/-- The reference configuration REF of the spec's test vectors (92_eei_decisions.md D5). Its bytes "are synthetic
placeholders" (R9): only tests and witnesses use it. -/
def Params.ref : Params where
  fragCap := 128
  wSeq := 32
  wLen := 16
  wBlk := 24
  wFrg := 8
  hdrOrder := .le
  phyRom := [0xA0, 0xA1, 0xA2, 0xA3]
  linkRom := [0xB0, 0xB1, 0xB2, 0xB3, 0xB4, 0xB5, 0xB6, 0xB7]
  tagOffA := 3
  tagOffB := 7
  maxFrame := 144
  nMax := 16
  timeUnitNs := 1000000

/-- A parameter set together with the check R10 asks for at elaboration: an inadmissible set cannot be built.
The defaults only show that the type has an inhabitant. -/
structure Device where
  par : Params := Params.ref
  valid : par.Valid := by decide
deriving Inhabited

/-- Everything outside the state that a command's effect depends on: the parameters with their constraints, the coder
and the link sender's draws. -/
structure Env where
  /-- the parameters of R8 -/
  par : Params
  /-- their constraints (R10) -/
  valid : par.Valid
  /-- byte `o` of parity shard `j` that `fec_encode(K, N, len, d)` returns, as `fecByte K N len d j o` (R13) -/
  fecByte : Nat → Nat → Nat → List (List Byte) → Nat → Nat → Byte
  /-- the link sender's verdict at draw number `c` of `draw_link()` (R14) -/
  linkDraw : Nat → Verdict

/-- The parameters of the machine: any admissible set (R8, R9, R10). Free: no proof sees which (log entry 1). -/
opaque Config.device : Device

/-- The erasure coder of the machine: "deterministic, pure function of its inputs", nothing else assumed (R13).
Free (log entry 4). -/
opaque Config.fecByte : Nat → Nat → Nat → List (List Byte) → Nat → Nat → Byte

/-- The verdicts of the link sender: "a free draw per `emit`" (R14). Free (log entry 2). -/
opaque Config.linkDraw : Nat → Verdict

/-- The environment the machine of this package runs in. -/
def Config.env : Env where
  par := Config.device.par
  valid := Config.device.valid
  fecByte := Config.fecByte
  linkDraw := Config.linkDraw

end Sys2Proof
end

