-- ==== Sys2Proof/Machine/FrameBuilder.lean ====
section
/-!
DEFINITION. The frame builder and the header encoders (41_frame_builder.md), and the coder's contract (00_scope.md R13).
All are pure functions of their operands and the parameters.
-/

namespace Sys2Proof.Machine

/-- The `n` low bytes of `v`, least significant first. -/
def bytesLe : Nat → Nat → List Byte
  | 0, _ => []
  | n + 1, v => BitVec.ofNat 8 v :: bytesLe n (v / 256)

/-- `enc_W(v)`: the `W/8` bytes of `v mod 2^W` in byte order `HDR_ORDER` (00_scope.md R11). -/
def encField (order : HdrOrder) (w v : Nat) : List Byte :=
  match order with
  | .le => bytesLe (w / 8) (v % 2 ^ w)
  | .be => (bytesLe (w / 8) (v % 2 ^ w)).reverse

/-- `PKT_HDR(s, L) = enc_{W_SEQ}(s) ‖ enc_{W_LEN}(L)` (R154). -/
def pktHdr (p : Params) (s len : Nat) : List Byte :=
  encField p.hdrOrder p.wSeq s ++ encField p.hdrOrder p.wLen len

/-- `FRAG_HDR(b, i) = enc_{W_BLK}(b) ‖ enc_{W_FRG}(i)` (R154). -/
def fragHdr (p : Params) (b i : Nat) : List Byte :=
  encField p.hdrOrder p.wBlk b ++ encField p.hdrOrder p.wFrg i

/-- `LINK_PATCH(tag)`: `LINK_ROM` with the tag at both offsets (R152). -/
def linkPatch (p : Params) (tag : Byte) : List Byte := (p.linkRom.set p.tagOffA tag).set p.tagOffB tag

/-- `BUILD_FRAME(b, i, tag, pl, plen)` (R150). -/
def buildFrame (p : Params) (b i : Nat) (tag : Byte) (pl : List Byte) (plen : Nat) : List Byte :=
  p.phyRom ++ linkPatch p tag ++ fragHdr p b i ++ pl.take plen

/-- `fec_encode(K, N, len, d)`: `N - K` parity shards of `len` bytes, each byte the coder's (R13). -/
def fecEncode (e : Env) (k n len : Nat) (d : List (List Byte)) : List (List Byte) :=
  (List.range (n - k)).map fun j => (List.range len).map fun o => e.fecByte k n len d j o

/-- A data fragment's buffer: per-packet header, payload, zeros up to `F` (20_memory.md R61). -/
def dataFragment (p : Params) (s : Nat) (payload : List Byte) : List Byte :=
  pktHdr p s payload.length ++ payload ++ List.replicate (p.fragCap - (p.hPkt + payload.length)) 0

end Sys2Proof.Machine
end

