-- ==== Sys2Proof/Machine/State.lean ====
section
/-!
DEFINITION. The state of wfb-tx-core as plain data (10_state.md R20), its values at reset (R41), and the two ways a
step of the MODEL can stop. A fault of the spec (60_exceptions.md R231) is not one of them: it is a next state.
-/

namespace Sys2Proof.Machine

/-- `PHASE` (R22). -/
inductive Phase where
  | uncfg
  | idle
  | drain
  | halt
deriving DecidableEq, Repr

/-- `MODE`: 0 pass-through, 1 aggregation (R31). -/
inductive Mode where
  | passThrough
  | aggregation
deriving DecidableEq, Repr

/-- The causes `CAUSE` can hold (60_exceptions.md R230); codes 7 to 15 are never raised. -/
inductive Cause where
  | none
  | payloadTooLarge
  | injectionFailed
  | sourceReadError
  | usageError
  | illegalCmd
  | badTime
deriving DecidableEq, Repr

/-- One event of the history of which the TX stream and the response stream are the two views (20_memory.md R73). -/
inductive Event where
  /-- a TX record: the frame handed to the link sender and its verdict (R40) -/
  | tx (frame : List Byte) (verdict : Verdict)
  /-- a response word (43_control.md R213) -/
  | rsp (word : Word)
deriving DecidableEq, Repr

/-- A buffer memory: the bytes written so far, by address, addresses strictly rising (`Memory.wf`). A byte not listed
has no value: the spec leaves it unspecified and no rule reads it (R39; log entry 5). -/
abbrev Memory := List Host.Cell

/-- The state. Field by field the list of R20; `port` and `draws` are the model's own (log entries 3 and 2). -/
structure State where
  /-- words the host has offered on the command port and the block has not taken (30_encoding.md R90, R263) -/
  port : List Word
  /-- the command decoder's partial command: a command word and the follow words got so far, or nothing (R23) -/
  decoder : List Word
  /-- `PHASE` (R22) -/
  phase : Phase
  /-- `K` (R31) -/
  k : BitVec 16
  /-- `N` (R31) -/
  n : BitVec 16
  /-- `TAG` (R31) -/
  tag : BitVec 8
  /-- `MODE` (R31) -/
  mode : Mode
  /-- `LAT` (R31) -/
  lat : BitVec 32
  /-- `BLK_IDX`, below `2^W_BLK` (R24) -/
  blkIdx : Nat
  /-- `FRG_IDX`, the next slot to fill (R25) -/
  frgIdx : Nat
  /-- `BLK_MAX`, 0 to `F` (R26) -/
  blkMax : Nat
  /-- `SEQ`, below `2^W_SEQ` (R28) -/
  seq : Nat
  /-- `FRAG`, byte `off` of buffer `i` at address `i * F + off` (R27, 20_memory.md R60) -/
  frag : Memory
  /-- `ACC` (R29) -/
  acc : Memory
  /-- `ACC_LEN`, 0 to `AGG_CAP` (R29) -/
  accLen : Nat
  /-- `NOW` (R30) -/
  now : BitVec 64
  /-- `DEADLINE` (R30) -/
  deadline : BitVec 64
  /-- `FAULT` (R32) -/
  fault : Bool
  /-- `CAUSE` (R32) -/
  cause : Cause
  /-- `INFO` (R32) -/
  info : Word
  /-- TX records and response words in execution order, oldest first (R40, R73) -/
  events : List Event
  /-- how many verdicts `draw_link()` has given: it selects the next free draw (00_scope.md R14) -/
  draws : Nat
deriving DecidableEq, Repr

/-- Why a step of the model stops. -/
inductive Fault where
  /-- Raised by `fragRead` and `accRead`: a buffer byte is read that nothing has written. R39 says no rule reads one, and
  no state that meets `State.Inv` raises this. Safe: the model stops where the hardware would go on with any value. -/
  | unwrittenByte
deriving DecidableEq, Repr

/-- Why the model gives an instruction no meaning. -/
inductive Refusal where
  /-- Raised by `exec` only, for an instruction that has no meaning yet. Safe. -/
  | notModelled (mnemonic : String)
  /-- Raised by `fragRead`, `fragWrite`, `accRead` and `accWrite`: an access outside its buffer, which R69 says to treat
  "as a refusal, never as a wrap or a truncation". No state that meets `State.Inv` raises it. Safe. -/
  | outOfBounds
deriving DecidableEq, Repr

/-- The machine right after reset (R41, 70_reset_and_hazards.md R260). `port` and `draws` are the model's choice (log
entries 3 and 2). -/
def State.reset : State where
  port := []
  decoder := []
  phase := .uncfg
  k := 0
  n := 0
  tag := 0
  mode := .passThrough
  lat := 0
  blkIdx := 0
  frgIdx := 0
  blkMax := 0
  seq := 0
  frag := []
  acc := []
  accLen := 0
  now := 0
  deadline := 0
  fault := false
  cause := .none
  info := 0
  events := []
  draws := 0

end Sys2Proof.Machine
end

