-- ==== Sys2Proof/Machine/Ops.lean ====
section
/-!
DEFINITION. The shared operations: buffer memory (20_memory.md), the sequence of micro-steps of one command
(00_scope.md R12), `raise Fault` (60_exceptions.md R231), the event history (10_state.md R40), reset and the port.
-/

namespace Sys2Proof.Machine

/-! ## Buffer memory -/

/-- The canonical form: addresses strictly rising. No entry can equal what an unlisted address reads as, since an
unlisted address has no value. -/
abbrev Memory.wf (m : Memory) : Prop := m.Pairwise fun c d => c.1 < d.1

/-- The byte at an address, if anything has been written there. -/
def Memory.read (m : Memory) (a : Nat) : Option Byte := m.lookup a

/-- The `n` bytes from address `a` on, if all have been written. -/
def Memory.readBytes (m : Memory) (a : Nat) : Nat → Option (List Byte)
  | 0 => some []
  | n + 1 =>
    match m.read a, m.readBytes (a + 1) n with
    | some b, some bs => some (b :: bs)
    | _, _ => none

/-- The cells that hold a byte string from address `a` on. -/
def Memory.cells (a : Nat) : List Byte → Memory
  | [] => []
  | b :: bs => (a, b) :: Memory.cells (a + 1) bs

/-- Write a byte string from address `a` on: the cells below it, its own cells, the cells above it. -/
def Memory.writeBytes (m : Memory) (a : Nat) (bs : List Byte) : Memory :=
  m.filter (fun c => c.1 < a) ++ Memory.cells a bs ++ m.filter (fun c => a + bs.length ≤ c.1)

/-! ## The micro-steps of one command -/

/-- How a micro-step leaves the command it belongs to. -/
inductive Flow where
  /-- the command goes on in this state -/
  | run (s : State)
  /-- a `raise Fault` has ended the command in this state (R231) -/
  | ended (s : State)
  /-- the model stops -/
  | fault (r : Fault)
  /-- the model refuses -/
  | refused (r : Refusal)
deriving DecidableEq, Repr

/-- "Every pseudocode block runs in order. A statement after a `raise` does not run" (R12). -/
def Flow.andThen (f : Flow) (g : State → Flow) : Flow :=
  match f with
  | .run s => g s
  | .ended s => .ended s
  | .fault r => .fault r
  | .refused r => .refused r

/-- The outcome of a command whose micro-steps end so: a raised fault is a next state too. -/
def Flow.outcome : Flow → Host.Outcome State Fault Refusal
  | .run s => .next s
  | .ended s => .next s
  | .fault r => .fault r
  | .refused r => .refused r

/-! ## Taking a fault -/

/-- The state `raise Fault(c, info)` leaves: the first fault is recorded, the phase is `HALT` (R231, R232). There is no
return from it (R237): only reset leaves `HALT`. -/
def State.raiseFault (c : Cause) (info : Word) (s : State) : State :=
  if s.fault then { s with phase := .halt }
  else { s with fault := true, cause := c, info := info, phase := .halt }

/-- `raise Fault(c, info)` as a micro-step: "the current command ends here" (R231). -/
def raise (c : Cause) (info : Word) (s : State) : Flow := .ended (s.raiseFault c info)

/-- How every command but `RDCSR` is dispatched (43_control.md R210): discarded in `HALT` (60_exceptions.md R233),
`ILLEGAL_CMD` with the command word `w` where it is not legal (43_control.md R217), else its own micro-steps. -/
def command (w : Word) (legal : Bool) (body : State → Flow) (s : State) : Host.Outcome State Fault Refusal :=
  if s.phase = .halt then .next s
  else if legal then (body s).outcome
  else .next (s.raiseFault .illegalCmd w)

/-! ## Outputs -/

/-- Append one event to the history (10_state.md R40, 20_memory.md R73). -/
def State.record (e : Event) (s : State) : State := { s with events := s.events ++ [e] }

/-- `respond(v)` (43_control.md R213). -/
def State.respond (v : Word) (s : State) : State := s.record (.rsp v)

/-- A TX record is handed to the link sender, whose draw is used up (40_block_engine.md R124). -/
def State.transmit (frame : List Byte) (v : Verdict) (s : State) : State :=
  { s.record (.tx frame v) with draws := s.draws + 1 }

/-- A frame and its verdict, where the event is a TX record. -/
def Event.txRecord? : Event → Option (List Byte × Verdict)
  | .tx f v => some (f, v)
  | .rsp _ => Option.none

/-- A response word, where the event is one. -/
def Event.response? : Event → Option Word
  | .tx _ _ => Option.none
  | .rsp w => some w

/-- The TX stream (R40). -/
def State.txStream (s : State) : List (List Byte × Verdict) := s.events.filterMap Event.txRecord?

/-- The response stream (R40). -/
def State.rspStream (s : State) : List Word := s.events.filterMap Event.response?

/-! ## The buffers -/

/-- `MemWrite(FRAG[i], off, |bs|, bs)` (R12). Out of bounds is a refusal (20_memory.md R69). -/
def fragWrite (e : Env) (i off : Nat) (bs : List Byte) (s : State) : Flow :=
  if i < e.par.nMax ∧ off + bs.length ≤ e.par.fragCap then
    .run { s with frag := Memory.writeBytes s.frag (i * e.par.fragCap + off) bs }
  else .refused .outOfBounds

/-- `MemRead(FRAG[i], off, n)`, its bytes given to `k` (R12). -/
def fragRead (e : Env) (i off n : Nat) (s : State) (k : List Byte → Flow) : Flow :=
  if i < e.par.nMax ∧ off + n ≤ e.par.fragCap then
    match Memory.readBytes s.frag (i * e.par.fragCap + off) n with
    | some bs => k bs
    | none => .fault .unwrittenByte
  else .refused .outOfBounds

/-- `MemWrite(ACC, off, |bs|, bs)`. -/
def accWrite (e : Env) (off : Nat) (bs : List Byte) (s : State) : Flow :=
  if off + bs.length ≤ e.par.aggCap then
    .run { s with acc := Memory.writeBytes s.acc off bs }
  else .refused .outOfBounds

/-- `MemRead(ACC, off, n)`, its bytes given to `k`. -/
def accRead (e : Env) (off n : Nat) (s : State) (k : List Byte → Flow) : Flow :=
  if off + n ≤ e.par.aggCap then
    match Memory.readBytes s.acc off n with
    | some bs => k bs
    | none => .fault .unwrittenByte
  else .refused .outOfBounds

/-! ## Time -/

/-- `sat64(v) = min(v, 2^64 - 1)` (00_scope.md R11). -/
def sat64 (v : Nat) : BitVec 64 := BitVec.ofNat 64 (min v (2 ^ 64 - 1))

/-- `DEADLINE <- sat64(NOW + LAT)` (60_exceptions.md R241). -/
def State.restartDeadline (s : State) : State := { s with deadline := sat64 (s.now.toNat + s.lat.toNat) }

/-! ## The host's inputs -/

/-- The host offers words on the command port; they wait there, none is lost (70_reset_and_hazards.md R263). -/
def State.offer (ws : List Word) (s : State) : State := { s with port := s.port ++ ws }

/-- The reset input `rst`, asserted between two commands (70_reset_and_hazards.md R260): every piece of state as in
10_state.md R41, a partial command discarded. The words the host still offers stay the host's, and the link sender's
draws go on. -/
def State.assertReset (s : State) : State := { State.reset with port := s.port, draws := s.draws }

end Sys2Proof.Machine
end

