-- ==== Sys2Proof/Machine/Engine.lean ====
section
/-!
DEFINITION. The block engine (40_block_engine.md): `emit`, `FEC_STEP` and `ACCEPT`.
-/

namespace Sys2Proof.Machine

/-- `emit(i, plen)`: build the frame, draw the verdict, append the TX record; a failed frame raises `INJECTION_FAILED`
with `INFO = i` (R124). -/
def emit (e : Env) (i plen : Nat) (s : State) : Flow :=
  fragRead e i 0 plen s fun pl =>
    let frame := buildFrame e.par s.blkIdx i s.tag pl plen
    match e.linkDraw s.draws with
    | .ok => .run (s.transmit frame .ok)
    | .fail => raise .injectionFailed (BitVec.ofNat 32 i) (s.transmit frame .fail)

/-- The coder's input: `d[j] <- MemRead(FRAG[j], 0, BLK_MAX)` for `count` buffers from `j` on (R125, R131). -/
def readShards (e : Env) : Nat → Nat → State → (List (List Byte) → Flow) → Flow
  | 0, _, _, k => k []
  | count + 1, j, s, k =>
    fragRead e j 0 s.blkMax s fun d => readShards e count (j + 1) s fun ds => k (d :: ds)

/-- `MemWrite(FRAG[K+j], 0, BLK_MAX, par[j])` for the shards in order, the first into buffer `i` (R125). -/
def writeParity (e : Env) : List (List Byte) → Nat → State → Flow
  | [], _, s => .run s
  | p :: ps, i, s => (fragWrite e i 0 p s).andThen (writeParity e ps (i + 1))

/-- The first part of `FEC_STEP`: call the coder and fill the parity buffers, where there are any (R125, R129). -/
def fillParity (e : Env) (s : State) : Flow :=
  if s.k.toNat < s.n.toNat then
    readShards e s.k.toNat 0 s fun d =>
      writeParity e (fecEncode e s.k.toNat s.n.toNat s.blkMax d) s.k.toNat s
  else .run s

/-- `FRG_IDX <- FRG_IDX + 1` (R123, R125). -/
def State.nextFragment (s : State) : State := { s with frgIdx := s.frgIdx + 1 }

/-- The loop `while FRG_IDX < N: emit(FRG_IDX, BLK_MAX); FRG_IDX <- FRG_IDX + 1` (R125, R126), its rounds counted by the
first argument: `N - FRG_IDX` rounds are all there are. -/
def emitParity (e : Env) : Nat → State → Flow
  | 0, s => .run s
  | fuel + 1, s =>
    if s.frgIdx < s.n.toNat then
      ((emit e s.frgIdx s.blkMax s).andThen fun t => .run t.nextFragment).andThen (emitParity e fuel)
    else .run s

/-- The block closes (R127). -/
def closeBlock (e : Env) (s : State) : State :=
  { s with frgIdx := 0, blkMax := 0, blkIdx := (s.blkIdx + 1) % 2 ^ e.par.wBlk }

/-- `FEC_STEP` (R125, R126, R127). -/
def fecStep (e : Env) (s : State) : Flow :=
  ((fillParity e s).andThen fun t => emitParity e (t.n.toNat - t.frgIdx) t).andThen fun t =>
    .run (closeBlock e t)

/-- Steps 2 and 3 of `ACCEPT`: zero-fill the open slot, write the per-packet header and the payload, count the unit,
raise the block max length (R121, R122). -/
def fillFragment (e : Env) (p : List Byte) (s : State) : Flow :=
  ((fragWrite e s.frgIdx 0 (List.replicate e.par.fragCap 0) s).andThen fun t =>
    (fragWrite e t.frgIdx 0 (pktHdr e.par t.seq p.length) t).andThen fun u =>
      fragWrite e u.frgIdx e.par.hPkt p u).andThen fun t =>
    .run { t with seq := (t.seq + 1) % 2 ^ e.par.wSeq, blkMax := max t.blkMax (e.par.hPkt + p.length) }

/-- `ACCEPT(p)` (R120): the capacity check before any write, then steps 2 to 6. -/
def accept (e : Env) (p : List Byte) (s : State) : Flow :=
  if e.par.fragCap < e.par.hPkt + p.length then raise .payloadTooLarge (BitVec.ofNat 32 p.length) s
  else
    (fillFragment e p s).andThen fun t =>
      (emit e t.frgIdx t.blkMax t).andThen fun u =>
        let v := u.nextFragment
        if v.frgIdx < v.k.toNat then .run v else fecStep e v

end Sys2Proof.Machine
end

