-- ==== Sys2Proof/Syntax.lean ====
section
/-!
DEFINITION. The command set of wfb-tx-core (30_encoding.md R98): one constructor per row of the opcode table.
-/

namespace Sys2Proof

/-- The sixteen control and status registers, in the order of their numbers 0x0 to 0xF (10_state.md R33). -/
inductive Csr where
  | k | n | tag | mode | lat | status | blkIdx | frgIdx
  | blkMax | seq | accLen | deadlineLo | deadlineHi | nowLo | nowHi | faultInfo
deriving DecidableEq, Repr

/-- A complete, well-formed command: a command word and its follow words with the operands taken out of them
(30_encoding.md R92 to R97). -/
inductive Instr where
  /-- `WRCFG csr, value` (43_control.md R211) -/
  | wrcfg (csr : Csr) (value : Word)
  /-- `RDCSR csr` (43_control.md R212) -/
  | rdcsr (csr : Csr)
  /-- `START` (43_control.md R214) -/
  | start
  /-- `DGRAM len` with the datagram `p` of `len` bytes, pad bytes dropped (30_encoding.md R94, R95) -/
  | dgram (p : List Byte)
  /-- `SRC_EMPTY` (42_ingestion.md R174) -/
  | srcEmpty
  /-- `SRC_ERR` (42_ingestion.md R175) -/
  | srcErr
  /-- `INTR` (42_ingestion.md R179) -/
  | intr
  /-- `TIME t` (42_ingestion.md R178) -/
  | time (t : BitVec 64)
deriving DecidableEq, Repr

end Sys2Proof
end

