-- ==== Sys2Proof/WellFormed.lean ====
section
/-!
DEFINITION. Which terms of `Instr` are commands: the `len` field of a `DGRAM` has 16 bits (30_encoding.md R94, D30).
Every other operand fits its field by its type.
-/

namespace Sys2Proof

/-- The command can be written in words: a datagram has 0 to 65535 bytes (R94). -/
def Instr.wellFormed : Instr → Bool
  | .wrcfg _ _ => true
  | .rdcsr _ => true
  | .start => true
  | .dgram p => decide (p.length ≤ 65535)
  | .srcEmpty => true
  | .srcErr => true
  | .intr => true
  | .time _ => true

end Sys2Proof
end

