-- ==== Sys2Proof/Decode.lean ====
section
/-!
DEFINITION. The command decoder of 30_encoding.md: framing (R91), malformed words (R97), operand assembly (R92 to
R97), and the encoder written from the same tables (R101).
-/

namespace Sys2Proof

/-! ## Fields of a command word -/

/-- `op = w[31:28]` (R91). -/
def opField (w : Word) : BitVec 4 := w.extractLsb' 28 4

/-- `csr = w[27:24]` (R93). -/
def csrField (w : Word) : BitVec 4 := w.extractLsb' 24 4

/-- `len = w[15:0]` (R94). -/
def lenField (w : Word) : BitVec 16 := w.extractLsb' 0 16

/-- `w[27:0]`, reserved in formats Z and T (R92, R96). -/
def reservedZ (w : Word) : BitVec 28 := w.extractLsb' 0 28

/-- `w[23:0]`, reserved in format C (R93). -/
def reservedC (w : Word) : BitVec 24 := w.extractLsb' 0 24

/-- `w[27:16]`, reserved in format D (R94). -/
def reservedD (w : Word) : BitVec 12 := w.extractLsb' 16 12

/-! ## CSR numbers (10_state.md R33) -/

/-- The number of a CSR. -/
def Csr.number : Csr → BitVec 4
  | .k => 0x0 | .n => 0x1 | .tag => 0x2 | .mode => 0x3
  | .lat => 0x4 | .status => 0x5 | .blkIdx => 0x6 | .frgIdx => 0x7
  | .blkMax => 0x8 | .seq => 0x9 | .accLen => 0xA | .deadlineLo => 0xB
  | .deadlineHi => 0xC | .nowLo => 0xD | .nowHi => 0xE | .faultInfo => 0xF

/-- The CSR a number names: all sixteen numbers name one. -/
def Csr.ofNumber (b : BitVec 4) : Csr :=
  match b.toNat with
  | 0x0 => .k | 0x1 => .n | 0x2 => .tag | 0x3 => .mode
  | 0x4 => .lat | 0x5 => .status | 0x6 => .blkIdx | 0x7 => .frgIdx
  | 0x8 => .blkMax | 0x9 => .seq | 0xA => .accLen | 0xB => .deadlineLo
  | 0xC => .deadlineHi | 0xD => .nowLo | 0xE => .nowHi | _ => .faultInfo

/-! ## Datagram bytes in follow words (R95) -/

/-- The four bytes of a follow word, byte `r` being bits `8r+7 : 8r` (R95). -/
def wordBytes (d : Word) : List Byte :=
  [d.extractLsb' 0 8, d.extractLsb' 8 8, d.extractLsb' 16 8, d.extractLsb' 24 8]

/-- The follow word that carries four datagram bytes, the first in bits `7:0`. -/
def wordOfBytes (b0 b1 b2 b3 : Byte) : Word := b3 ++ b2 ++ b1 ++ b0

/-- The datagram of `len` bytes in the follow words `d`; pad bytes are ignored (R95). -/
def unpackBytes (len : Nat) (d : List Word) : List Byte := (d.flatMap wordBytes).take len

/-- The follow words of a datagram, with zero pad bytes (R101). -/
def packBytes : List Byte → List Word
  | [] => []
  | [a] => [wordOfBytes a 0 0 0]
  | [a, b] => [wordOfBytes a b 0 0]
  | [a, b, c] => [wordOfBytes a b c 0]
  | a :: b :: c :: d :: rest => wordOfBytes a b c d :: packBytes rest

/-! ## Framing and decoding -/

/-- `follow(w)`, the number of follow words, from the command word alone (the table of R91). -/
def follow (w : Word) : Nat :=
  if opField w = 0x1 ∧ reservedC w = 0 then 1
  else if opField w = 0x4 ∧ reservedD w = 0 then ((lenField w).toNat + 3) / 4
  else if opField w = 0x8 ∧ reservedZ w = 0 then 2
  else 0

/-- A command word is malformed when its opcode is reserved or a reserved bit is set (R97). -/
def malformed (w : Word) : Bool :=
  match (opField w).toNat with
  | 0x1 | 0x2 => decide (reservedC w ≠ 0)
  | 0x3 | 0x5 | 0x6 | 0x7 | 0x8 => decide (reservedZ w ≠ 0)
  | 0x4 => decide (reservedD w ≠ 0)
  | _ => true

/-- The word patterns of R98 as (match, mask), in the order of the opcode table. The decoder above follows R97; that the
two agree is a statement of its own. -/
def opcodePatterns : List (Word × Word) :=
  [(0x10000000, 0xF0FFFFFF), (0x20000000, 0xF0FFFFFF), (0x30000000, 0xFFFFFFFF), (0x40000000, 0xFFFF0000),
   (0x50000000, 0xFFFFFFFF), (0x60000000, 0xFFFFFFFF), (0x70000000, 0xFFFFFFFF), (0x80000000, 0xFFFFFFFF)]

/-- The command of the well-formed word `w` with follow words `f` (R98, operand assembly R97). -/
def decodeCommand (w : Word) (f : List Word) : Option Instr :=
  if malformed w then none
  else
    match (opField w).toNat with
    | 0x1 => some (.wrcfg (Csr.ofNumber (csrField w)) (f.getD 0 0))
    | 0x2 => some (.rdcsr (Csr.ofNumber (csrField w)))
    | 0x3 => some .start
    | 0x4 => some (.dgram (unpackBytes (lenField w).toNat f))
    | 0x5 => some .srcEmpty
    | 0x6 => some .srcErr
    | 0x7 => some .intr
    | 0x8 => some (.time (f.getD 1 0 ++ f.getD 0 0))
    | _ => none

/-- What the decoder makes of the words received so far. -/
inductive Decoded where
  /-- no word yet, or fewer than `follow(w)` follow words: the decoder goes on collecting (R23, R266) -/
  | incomplete
  /-- the malformed word `w`, rejected; `rest` comes after it (R97) -/
  | malformedWord (w : Word) (rest : List Word)
  /-- a complete command, and the words after it -/
  | command (i : Instr) (rest : List Word)
deriving DecidableEq, Repr

/-- Decode a word stream: collect `follow(w)` words after the first, then read the command (R90, R91, R210). -/
def decode : List Word → Decoded
  | [] => .incomplete
  | w :: ws =>
    if ws.length < follow w then .incomplete
    else
      match decodeCommand w (ws.take (follow w)) with
      | some i => .command i (ws.drop (follow w))
      | none => .malformedWord w (ws.drop (follow w))

/-! ## Encoding -/

/-- The command word (R92 to R96). A command's fields fill it completely, so it is also the word `w` that
`ILLEGAL_CMD` records in `INFO` (60_exceptions.md R230). -/
def Instr.commandWord : Instr → Word
  | .wrcfg c _ => (0x1 : BitVec 4) ++ c.number ++ (0 : BitVec 24)
  | .rdcsr c => (0x2 : BitVec 4) ++ c.number ++ (0 : BitVec 24)
  | .start => 0x30000000
  | .dgram p => (0x4 : BitVec 4) ++ (0 : BitVec 12) ++ BitVec.ofNat 16 p.length
  | .srcEmpty => 0x50000000
  | .srcErr => 0x60000000
  | .intr => 0x70000000
  | .time _ => 0x80000000

/-- The follow words (R93, R95, R96, R101). -/
def Instr.followWords : Instr → List Word
  | .wrcfg _ v => [v]
  | .rdcsr _ => []
  | .start => []
  | .dgram p => packBytes p
  | .srcEmpty => []
  | .srcErr => []
  | .intr => []
  | .time t => [t.extractLsb' 0 32, t.extractLsb' 32 32]

/-- The words of a command, in the order an assembler emits them (R101). -/
def encode (i : Instr) : List Word := i.commandWord :: i.followWords

/-! ## Assembler lines (R101, R102) -/

/-- The assembler's name of a CSR (R101). -/
def Csr.asmName : Csr → String
  | .k => "K" | .n => "N" | .tag => "TAG" | .mode => "MODE"
  | .lat => "LAT" | .status => "STATUS" | .blkIdx => "BLK_IDX" | .frgIdx => "FRG_IDX"
  | .blkMax => "BLK_MAX" | .seq => "SEQ" | .accLen => "ACC_LEN" | .deadlineLo => "DEADLINE_LO"
  | .deadlineHi => "DEADLINE_HI" | .nowLo => "NOW_LO" | .nowHi => "NOW_HI" | .faultInfo => "FAULT_INFO"

/-- A line of assembler source, its operands read: a command, a raw word, or a pseudo-instruction. The machine knows none
of these: it sees only the words. -/
inductive AsmLine where
  /-- a command line (R101) -/
  | command (i : Instr)
  /-- `.word w` (R101) -/
  | rawWord (w : Word)
  /-- `cfg k, n, tag, mode, lat` (R102) -/
  | cfg (k n tag mode lat : Word)
  /-- `boot t0, k, n, tag, mode, lat` (R102) -/
  | boot (t0 : BitVec 64) (k n tag mode lat : Word)
  /-- `burst <d1>; <d2>; ...` (R102) -/
  | burst (ps : List (List Byte))
  /-- `wait_until t` (R102) -/
  | waitUntil (t : BitVec 64)
deriving DecidableEq, Repr

/-- `cfg` as commands (R102). -/
def cfgCommands (k n tag mode lat : Word) : List Instr :=
  [.wrcfg .k k, .wrcfg .n n, .wrcfg .tag tag, .wrcfg .mode mode, .wrcfg .lat lat]

/-- The words a line emits (R101, R102). -/
def AsmLine.words : AsmLine → List Word
  | .command i => encode i
  | .rawWord w => [w]
  | .cfg k n tag mode lat => (cfgCommands k n tag mode lat).flatMap encode
  | .boot t0 k n tag mode lat => (Instr.time t0 :: cfgCommands k n tag mode lat ++ [Instr.start]).flatMap encode
  | .burst ps => (ps.map Instr.dgram ++ [Instr.srcEmpty]).flatMap encode
  | .waitUntil t => encode (.time t)

/-! ## The opcode table's numbering -/

/-- The words of an instruction whose lowest `nbits` bits are `w`, bit 0 the least significant bit of the command
word, every higher bit 0: the command word and the `follow(w)` words it asks for. -/
def tableWords (nbits w : Nat) : List Word :=
  let v := w % 2 ^ nbits
  let w0 := BitVec.ofNat 32 v
  w0 :: (List.range (follow w0)).map fun q => BitVec.ofNat 32 (v / 2 ^ (32 * (q + 1)))

/-- What the decoder reads from those words. -/
def decodeTableWord (nbits w : Nat) : Option Instr :=
  match decode (tableWords nbits w) with
  | .command i _ => some i
  | .malformedWord _ _ => none
  | .incomplete => none

end Sys2Proof
end

