-- ==== Sys2Proof/Machine/Flags.lean ====
section
/-!
DEFINITION. The codes of `PHASE`, `MODE` and `CAUSE`, the `STATUS` word and the interrupt line. "The block has no
condition codes or arithmetic flags. The only flags are `FAULT` and the fields of `STATUS`" (10_state.md R32).
-/

namespace Sys2Proof.Machine

/-- The 2-bit code of a phase (R22). -/
def Phase.code : Phase → BitVec 2
  | .uncfg => 0
  | .idle => 1
  | .drain => 2
  | .halt => 3

/-- The bit `MODE` (R31). -/
def Mode.bit : Mode → BitVec 1
  | .passThrough => 0
  | .aggregation => 1

/-- The mode a written bit selects (R31). -/
def Mode.ofBit (b : BitVec 1) : Mode := if b = 0 then .passThrough else .aggregation

/-- The 4-bit code of a cause (60_exceptions.md R230). -/
def Cause.code : Cause → BitVec 4
  | .none => 0
  | .payloadTooLarge => 1
  | .injectionFailed => 2
  | .sourceReadError => 3
  | .usageError => 4
  | .illegalCmd => 5
  | .badTime => 6

/-- `STATUS = zext_32(CAUSE << 4 | MODE << 3 | FAULT << 2 | PHASE)` (R35). -/
def State.status (s : State) : Word :=
  (s.cause.code.setWidth 32 <<< 4) ||| (s.mode.bit.setWidth 32 <<< 3) |||
    ((BitVec.ofBool s.fault).setWidth 32 <<< 2) ||| s.phase.code.setWidth 32

/-- The line `irq_fault`, "a level equal to `FAULT`" (60_exceptions.md R236). -/
def State.irqFault (s : State) : Bool := s.fault

/-- The remaining time `REMAIN`: "`deadline - now`, clamped to ≥0" (R30). -/
def State.remain (s : State) : BitVec 64 := if s.now < s.deadline then s.deadline - s.now else 0

end Sys2Proof.Machine
end

