-- ==== Sys2Proof/Machine/Operands.lean ====
section
/-!
DEFINITION. The operand forms: CSR reads (43_control.md R218), CSR writes (R211), and which command is legal where
(R217).
-/

namespace Sys2Proof.Machine

/-- `read_csr(csr)` (R218, 10_state.md R33, R36). -/
def readCsr (c : Csr) (s : State) : Word :=
  match c with
  | .k => s.k.setWidth 32
  | .n => s.n.setWidth 32
  | .tag => s.tag.setWidth 32
  | .mode => s.mode.bit.setWidth 32
  | .lat => s.lat
  | .status => s.status
  | .blkIdx => BitVec.ofNat 32 s.blkIdx
  | .frgIdx => BitVec.ofNat 32 s.frgIdx
  | .blkMax => BitVec.ofNat 32 s.blkMax
  | .seq => BitVec.ofNat 32 s.seq
  | .accLen => BitVec.ofNat 32 s.accLen
  | .deadlineLo => s.deadline.extractLsb' 0 32
  | .deadlineHi => s.deadline.extractLsb' 32 32
  | .nowLo => s.now.extractLsb' 0 32
  | .nowHi => s.now.extractLsb' 32 32
  | .faultInfo => s.info

/-- The micro-step of `WRCFG`: the field's bits of the value are stored, the others dropped; a read-only CSR raises
`ILLEGAL_CMD` with the command word `w` (R211). -/
def writeCsr (w : Word) (c : Csr) (value : Word) (s : State) : Flow :=
  match c with
  | .k => .run { s with k := value.extractLsb' 0 16 }
  | .n => .run { s with n := value.extractLsb' 0 16 }
  | .tag => .run { s with tag := value.extractLsb' 0 8 }
  | .mode => .run { s with mode := Mode.ofBit (value.extractLsb' 0 1) }
  | .lat => .run { s with lat := value }
  | .status | .blkIdx | .frgIdx | .blkMax | .seq | .accLen
  | .deadlineLo | .deadlineHi | .nowLo | .nowHi | .faultInfo => raise .illegalCmd w s

/-- A configuration register, csr 0x0 to 0x4 (R33). -/
def csrWritable : Csr → Bool
  | .k | .n | .tag | .mode | .lat => true
  | .status | .blkIdx | .frgIdx | .blkMax | .seq | .accLen
  | .deadlineLo | .deadlineHi | .nowLo | .nowHi | .faultInfo => false

/-- The legality of a command by phase and mode: the table of R217, `true` for L, `false` for I and D. Its column `DRAIN`
is "(MODE=1)"; `DRAIN` with `MODE = 0`, which no run reaches, follows the "Legal in" line of each command's rule (log
entry 7). -/
def legal (i : Instr) (p : Phase) (m : Mode) : Bool :=
  match i with
  | .wrcfg c _ => decide (p = .uncfg) && csrWritable c
  | .rdcsr _ => true
  | .start => decide (p = .uncfg)
  | .dgram _ => decide (p = .idle) || (decide (p = .drain) && decide (m = .aggregation))
  | .srcEmpty => (decide (p = .idle) || decide (p = .drain)) && decide (m = .aggregation)
  | .srcErr => decide (p = .idle) || decide (p = .drain)
  | .intr => decide (p = .idle) || decide (p = .drain)
  | .time _ => decide (p ≠ .halt)

end Sys2Proof.Machine
end

