-- ==== Sys2Proof/Machine/Ingestion.lean ====
section
/-!
DEFINITION. The ingestion multiplexer (42_ingestion.md): `FLUSH`, `TIMEOUT`, `CHECK_TIMEOUT`, and the meanings of `DGRAM`,
`SRC_EMPTY`, `SRC_ERR`, `INTR` and `TIME`. A name that ends in `In` takes the environment as an argument.
-/

namespace Sys2Proof.Machine

/-- `FLUSH()`: the content of the accumulation buffer becomes one accepted unit, then the buffer is empty; if `ACCEPT`
raises, `ACC_LEN` keeps its value (R176). -/
def flush (e : Env) (s : State) : Flow :=
  (accRead e 0 s.accLen s fun unit => accept e unit s).andThen fun t => .run { t with accLen := 0 }

/-- `FLUSH()` where the buffer is not empty, which is when its two callers flush (R172, R177). -/
def flushIfAny (e : Env) (s : State) : Flow := if 0 < s.accLen then flush e s else .run s

/-- `TIMEOUT()`: flush if non-empty, then restart the deadline from the current `NOW` (R177). -/
def timeout (e : Env) (s : State) : Flow := (flushIfAny e s).andThen fun t => .run t.restartDeadline

/-- `CHECK_TIMEOUT()` (R180). -/
def checkTimeout (e : Env) (s : State) : Flow := if s.deadline ≤ s.now then timeout e s else .run s

/-- `if PHASE = IDLE and MODE = 1: CHECK_TIMEOUT()` (R178, R179). -/
def checkTimeoutIfIdle (e : Env) (s : State) : Flow :=
  if s.phase = .idle ∧ s.mode = .aggregation then checkTimeout e s else .run s

/-! ## DGRAM -/

/-- The overflow branch of `DGRAM_AGG`: earlier content is flushed and the deadline restarted; a datagram over the
capacity raises `PAYLOAD_TOO_LARGE` and is not stored, any other starts a new buffer (R172, R173). -/
def startNewBuffer (e : Env) (p : List Byte) (s : State) : Flow :=
  (if 0 < s.accLen then (flush e s).andThen fun t => .run t.restartDeadline else .run s).andThen fun t =>
    if e.par.aggCap < p.length then raise .payloadTooLarge (BitVec.ofNat 32 p.length) t
    else (accWrite e 0 p t).andThen fun u => .run { u with accLen := p.length }

/-- The other branch: the datagram is appended (R172). -/
def appendToBuffer (e : Env) (p : List Byte) (s : State) : Flow :=
  (accWrite e s.accLen p s).andThen fun t => .run { t with accLen := t.accLen + p.length }

/-- `DGRAM_AGG(p)` (R172). -/
def dgramAgg (e : Env) (p : List Byte) (s : State) : Flow :=
  let t := { s with phase := Phase.drain }
  if e.par.aggCap < t.accLen + p.length then startNewBuffer e p t else appendToBuffer e p t

/-- `DGRAM` in the mode the run has (R170, R171, R172). -/
def execDgramIn (e : Env) (p : List Byte) (s : State) : Host.Outcome State Fault Refusal :=
  command (Instr.dgram p).commandWord (legal (.dgram p) s.phase s.mode)
    (fun t => match t.mode with
      | .passThrough => accept e p t
      | .aggregation => dgramAgg e p t) s

/-- `DGRAM` (R171, R172). -/
def execDgram (p : List Byte) (s : State) : Host.Outcome State Fault Refusal := execDgramIn Config.env p s

/-! ## SRC_EMPTY, SRC_ERR, INTR -/

/-- `SRC_EMPTY`: the drain ends, then the timeout is checked (R174). -/
def execSrcEmptyIn (e : Env) (s : State) : Host.Outcome State Fault Refusal :=
  command Instr.srcEmpty.commandWord (legal .srcEmpty s.phase s.mode)
    (fun t => checkTimeout e { t with phase := .idle }) s

/-- `SRC_EMPTY` (R174). -/
def execSrcEmpty (s : State) : Host.Outcome State Fault Refusal := execSrcEmptyIn Config.env s

/-- `SRC_ERR`: always `SOURCE_READ_ERROR` where it is legal; the buffer is not flushed (R175). -/
def execSrcErr (s : State) : Host.Outcome State Fault Refusal :=
  command Instr.srcErr.commandWord (legal .srcErr s.phase s.mode) (raise .sourceReadError 0) s

/-- `INTR`: one more timeout check in aggregation `IDLE`, else nothing (R179). -/
def execIntrIn (e : Env) (s : State) : Host.Outcome State Fault Refusal :=
  command Instr.intr.commandWord (legal .intr s.phase s.mode) (checkTimeoutIfIdle e) s

/-- `INTR` (R179). -/
def execIntr (s : State) : Host.Outcome State Fault Refusal := execIntrIn Config.env s

/-! ## TIME -/

/-- `TIME t`: time going backwards raises `BAD_TIME`; else `NOW <- t` and the timeout check (R178). -/
def execTimeIn (e : Env) (t : BitVec 64) (s : State) : Host.Outcome State Fault Refusal :=
  command (Instr.time t).commandWord (legal (.time t) s.phase s.mode)
    (fun u => if t < u.now then raise .badTime (t.extractLsb' 0 32) u
      else checkTimeoutIfIdle e { u with now := t }) s

/-- `TIME` (R178). -/
def execTime (t : BitVec 64) (s : State) : Host.Outcome State Fault Refusal := execTimeIn Config.env t s

end Sys2Proof.Machine
end

