-- ==== Sys2Proof/Machine/Control.lean ====
section
/-!
DEFINITION. The control commands (43_control.md): `WRCFG`, `RDCSR`, `START`, and what a malformed word does
(30_encoding.md R97).
-/

namespace Sys2Proof.Machine

/-- `WRCFG csr, value` (R211). -/
def execWrcfg (c : Csr) (value : Word) (s : State) : Host.Outcome State Fault Refusal :=
  command (Instr.wrcfg c value).commandWord (legal (.wrcfg c value) s.phase s.mode)
    (writeCsr (Instr.wrcfg c value).commandWord c value) s

/-- `RDCSR csr`: legal in every phase, `HALT` included; it appends one response word and changes no register (R212,
60_exceptions.md R233). -/
def execRdcsr (c : Csr) (s : State) : Host.Outcome State Fault Refusal := .next (s.respond (readCsr c s))

/-- `1 <= K and K <= N and N <= N_MAX` (R216). -/
abbrev configLegal (e : Env) (s : State) : Prop :=
  1 ≤ s.k.toNat ∧ s.k.toNat ≤ s.n.toNat ∧ s.n.toNat ≤ e.par.nMax

/-- The core state is constructed (R214, R215). -/
def constructCore (s : State) : State :=
  { s with blkIdx := 0, frgIdx := 0, blkMax := 0, seq := 0, accLen := 0,
           deadline := sat64 (s.now.toNat + s.lat.toNat), phase := .idle }

/-- `START` (R214): `USAGE_ERROR` with `INFO = K << 16 | N` before anything is written, else the run begins. -/
def execStartIn (e : Env) (s : State) : Host.Outcome State Fault Refusal :=
  command Instr.start.commandWord (legal .start s.phase s.mode)
    (fun t =>
      if configLegal e t then
        let u := constructCore t
        if u.mode = .aggregation then checkTimeout e u else .run u
      else raise .usageError (t.k ++ t.n) t) s

/-- `START` (R214). -/
def execStart (s : State) : Host.Outcome State Fault Refusal := execStartIn Config.env s

/-- A malformed word: discarded in `HALT`, else `ILLEGAL_CMD` with `INFO = w` (30_encoding.md R97, 60_exceptions.md
R233). -/
def execMalformed (w : Word) (s : State) : Host.Outcome State Fault Refusal := command w false .run s

end Sys2Proof.Machine
end

