-- ==== Sys2Proof/Machine/Dispatch.lean ====
section
/-!
DEFINITION. One arm per command of the opcode table (43_control.md R210).
-/

namespace Sys2Proof.Machine

/-- What a command does. -/
def exec (i : Instr) (s : State) : Host.Outcome State Fault Refusal :=
  match i with
  | .wrcfg csr value => Sys2Proof.Machine.execWrcfg csr value s
  | .rdcsr csr => Sys2Proof.Machine.execRdcsr csr s
  | .start => Sys2Proof.Machine.execStart s
  | .dgram p => Sys2Proof.Machine.execDgram p s
  | .srcEmpty => Sys2Proof.Machine.execSrcEmpty s
  | .srcErr => Sys2Proof.Machine.execSrcErr s
  | .intr => Sys2Proof.Machine.execIntr s
  | .time t => Sys2Proof.Machine.execTime t s

end Sys2Proof.Machine
end

