-- ==== Sys2Proof/Machine/Port.lean ====
section
/-!
DEFINITION. The command port and decoder as a machine: taking the next complete command (43_control.md R210, 10_state.md
R23, 70_reset_and_hazards.md R266).
-/

namespace Sys2Proof.Machine

/-- What the port and decoder give the sequencer. -/
inductive Fetch where
  /-- no complete command yet: the decoder keeps what it got and the block waits (R23, R266; log entry 3) -/
  | wait (s : State)
  /-- a complete, well-formed command, its words taken -/
  | command (i : Instr) (s : State)
  /-- a malformed word, taken -/
  | malformedWord (w : Word) (s : State)

/-- Take the next command: the words the decoder holds come first, then those on the port. The framing does not depend
on the phase (R91). The decoder is empty at every command boundary (R23). -/
def fetch (s : State) : Fetch :=
  match decode (s.decoder ++ s.port) with
  | .incomplete => .wait { s with decoder := s.decoder ++ s.port, port := [] }
  | .command i rest => .command i { s with decoder := [], port := rest }
  | .malformedWord w rest => .malformedWord w { s with decoder := [], port := rest }

/-- The words of an instruction placed in front of the port, the decoder at a command boundary. -/
def State.placeWords (ws : List Word) (s : State) : State := { s with decoder := [], port := ws ++ s.port }

end Sys2Proof.Machine
end

