-- ==== Sys2Proof/Machine/Step.lean ====
section
/-!
DEFINITION. One `STEP` of the block (43_control.md R210): take the next complete command and execute it.
-/

namespace Sys2Proof.Machine

/-- `STEP()` (R210). With no complete command on the port the block waits, its state kept (R242, R266). -/
def step (s : State) : Host.Outcome State Fault Refusal :=
  match fetch s with
  | .wait t => .next t
  | .command i t => exec i t
  | .malformedWord w t => execMalformed w t

/-- The state with an instruction of the opcode table where the next step takes it: in front of the command port, the
decoder at a command boundary (log entry 6). -/
def State.withFetchWord (s : State) (nbits w : Nat) : State := s.placeWords (tableWords nbits w)

end Sys2Proof.Machine
end

