-- ==== Sys2Proof/Machine/Environment.lean ====
section
/-!
DEFINITION. The machine in a GIVEN environment: `exec` and `step` with the parameters, the coder and the link's verdicts
as an argument (00_scope.md R8, R9). `exec` and `step` are these at `Config.env` (`exec_eq_execIn`, `step_eq_stepIn` in
Laws/Environment.lean); the spec's test vectors are these at its reference configuration.
-/

namespace Sys2Proof.Machine

/-- What a command does in the environment `e` (43_control.md R210). -/
def execIn (e : Env) (i : Instr) (s : State) : Host.Outcome State Fault Refusal :=
  match i with
  | .wrcfg csr value => execWrcfg csr value s
  | .rdcsr csr => execRdcsr csr s
  | .start => execStartIn e s
  | .dgram p => execDgramIn e p s
  | .srcEmpty => execSrcEmptyIn e s
  | .srcErr => execSrcErr s
  | .intr => execIntrIn e s
  | .time t => execTimeIn e t s

/-- One `STEP` in the environment `e` (R210). -/
def stepIn (e : Env) (s : State) : Host.Outcome State Fault Refusal :=
  match fetch s with
  | .wait t => .next t
  | .command i t => execIn e i t
  | .malformedWord w t => execMalformed w t

end Sys2Proof.Machine
end

