-- ==== Sys2Proof/Safety.lean ====
section
/-!
DEFINITION. What a sound state of wfb-tx-core is: the invariant of 10_state.md R37, with the ranges of the registers
(R20 to R32), the canonical form of the buffers, and what the halted and the unconfigured phase are.
-/

namespace Sys2Proof.Machine

/-- Item 5 of R37 for one fragment: buffer `j` holds a data fragment of the open block, zero beyond its framed size, with
the sequence number that `FRG_IDX - j` units before the next one carried, its framed size at most `BLK_MAX`. -/
def State.holdsFragment (e : Env) (s : State) (j : Nat) : Prop :=
  ∃ (q : Nat) (p : List Byte),
    e.par.hPkt + p.length ≤ s.blkMax ∧
    (q + (s.frgIdx - j)) % 2 ^ e.par.wSeq = s.seq ∧
    Memory.readBytes s.frag (j * e.par.fragCap) e.par.fragCap = some (dataFragment e.par q p)

/-- R37, items 1 to 8, for a state in `IDLE` or `DRAIN`. -/
structure State.Running (e : Env) (s : State) : Prop where
  /-- item 1 -/
  config : configLegal e s
  /-- item 2 -/
  slot : s.frgIdx < s.k.toNat
  /-- item 3 -/
  emptyBlock : s.blkMax = 0 ↔ s.frgIdx = 0
  /-- item 4 -/
  framed : 0 < s.frgIdx → e.par.hPkt ≤ s.blkMax ∧ s.blkMax ≤ e.par.fragCap
  /-- item 5 -/
  fragments : ∀ j < s.frgIdx, s.holdsFragment e j
  /-- item 6, and the bytes it counts have been written (R29) -/
  buffered : s.accLen ≤ e.par.aggCap ∧ ∃ bs, Memory.readBytes s.acc 0 s.accLen = some bs
  /-- item 7 -/
  passThrough : s.mode = .passThrough → s.accLen = 0 ∧ s.phase = .idle
  /-- item 8 -/
  deadlineAhead : s.mode = .aggregation → s.phase = .idle →
    s.now < s.deadline ∨ s.lat = 0 ∨ s.deadline = BitVec.ofNat 64 (2 ^ 64 - 1)

/-- The invariant of the machine. -/
structure State.Inv (e : Env) (s : State) : Prop where
  /-- the buffers are in canonical form and inside their storage (20_memory.md R60) -/
  fragWf : Memory.wf s.frag
  fragBound : ∀ c ∈ s.frag, c.1 < e.par.nMax * e.par.fragCap
  accWf : Memory.wf s.acc
  accBound : ∀ c ∈ s.acc, c.1 < e.par.aggCap
  /-- the counters fit their registers (R24 to R29) -/
  blkIdxFits : s.blkIdx < 2 ^ e.par.wBlk
  frgIdxFits : s.frgIdx ≤ e.par.nMax
  blkMaxFits : s.blkMax ≤ e.par.fragCap
  seqFits : s.seq < 2 ^ e.par.wSeq
  accLenFits : s.accLen ≤ e.par.aggCap
  /-- the decoder never holds a complete command between two steps (R23) -/
  decoderPartial : ∀ w ws, s.decoder = w :: ws → ws.length < follow w
  /-- a fault is recorded exactly in `HALT`, and then has a cause (60_exceptions.md R231, R232) -/
  faultHalt : s.fault = true ↔ s.phase = .halt
  faultCause : s.fault = true ↔ s.cause ≠ .none
  noInfo : s.fault = false → s.info = 0
  /-- in `UNCFG` the core state has its reset values and nothing is on the air (R25, R41, R215) -/
  unstarted : s.phase = .uncfg →
    s.blkIdx = 0 ∧ s.frgIdx = 0 ∧ s.blkMax = 0 ∧ s.seq = 0 ∧ s.accLen = 0 ∧ s.deadline = 0 ∧ s.txStream = []
  /-- R37 -/
  running : s.phase = .idle ∨ s.phase = .drain → s.Running e
  /-- no frame exceeds the link's maximum (41_frame_builder.md R155) -/
  framesFit : ∀ r ∈ s.txStream, r.1.length ≤ e.par.maxFrame
  /-- outside `HALT` every frame was accepted (40_block_engine.md R128) -/
  framesOk : s.phase ≠ .halt → ∀ r ∈ s.txStream, r.2 = .ok

/-! ## The effect of one accepted unit, in closed form

The terms in which claims say what `ACCEPT` does (40_block_engine.md); the machine does not use them. -/

/-- The state after steps 2 and 3 of `ACCEPT(p)`: the open slot holds the data fragment of 20_memory.md R61, the unit is
counted, the running block maximum raised (R121, R122). -/
def afterData (e : Env) (p : List Byte) (s : State) : State :=
  { s with
    frag := Memory.writeBytes s.frag (s.frgIdx * e.par.fragCap) (dataFragment e.par s.seq p)
    seq := (s.seq + 1) % 2 ^ e.par.wSeq
    blkMax := max s.blkMax (e.par.hPkt + p.length) }

/-- The frame of step 4: the open slot's fragment at the running block maximum (R123, R130). -/
def dataFrame (e : Env) (p : List Byte) (s : State) : List Byte :=
  buildFrame e.par s.blkIdx s.frgIdx s.tag ((dataFragment e.par s.seq p).take (afterData e p s).blkMax)
    (afterData e p s).blkMax

/-- The coder's input shards: `FRAG[j][0..BLK_MAX)` for `j < K` (R131). -/
def codeShards (e : Env) (s : State) : List (List Byte) :=
  (List.range s.k.toNat).map fun j => (Memory.readBytes s.frag (j * e.par.fragCap) s.blkMax).getD []

/-- The parity shards of the block; none where `K = N` (R125, R129). -/
def parityShards (e : Env) (s : State) : List (List Byte) :=
  fecEncode e s.k.toNat s.n.toNat s.blkMax (codeShards e s)

/-- The fragment memory with the parity shards written into buffers `K, K+1, ...` (R125, 20_memory.md R62). -/
def parityMemory (e : Env) (s : State) : Memory :=
  ((parityShards e s).zipIdx s.k.toNat).foldl
    (fun m q => Memory.writeBytes m (q.2 * e.par.fragCap) q.1) s.frag

/-- The parity frames `K .. N-1`, in order, each of `BLK_MAX` payload bytes (R126). -/
def parityFrames (e : Env) (s : State) : List (List Byte) :=
  ((parityShards e s).zipIdx s.k.toNat).map fun q => buildFrame e.par s.blkIdx q.2 s.tag q.1 s.blkMax

/-- The state after an `ACCEPT(p)` that leaves the block open, its frame accepted (R123). -/
def blockOpen (e : Env) (p : List Byte) (s : State) : State :=
  { afterData e p s with
    frgIdx := s.frgIdx + 1
    events := s.events ++ [.tx (dataFrame e p s) .ok]
    draws := s.draws + 1 }

/-- The state after an `ACCEPT(p)` whose data frame the link sender failed (R134). -/
def dataFailed (e : Env) (p : List Byte) (s : State) : State :=
  State.raiseFault .injectionFailed (BitVec.ofNat 32 s.frgIdx)
    { afterData e p s with
      events := s.events ++ [.tx (dataFrame e p s) .fail]
      draws := s.draws + 1 }

/-- The state after an `ACCEPT(p)` that fills slot `K - 1`, where parity frame number `f` of the block is failed and those
before it accepted (R134). -/
def parityFailed (e : Env) (p : List Byte) (f : Nat) (s : State) : State :=
  let t := afterData e p s
  State.raiseFault .injectionFailed (BitVec.ofNat 32 (s.k.toNat + f))
    { t with
      frag := parityMemory e t
      frgIdx := s.k.toNat + f
      events := s.events ++ .tx (dataFrame e p s) .ok ::
        (((parityFrames e t).take f).map (Event.tx · .ok) ++ [.tx ((parityFrames e t).getD f []) .fail])
      draws := s.draws + 1 + (f + 1) }

/-- The state after an `ACCEPT(p)` that completes its block, every frame accepted (R125, R126, R127). -/
def blockDone (e : Env) (p : List Byte) (s : State) : State :=
  let t := afterData e p s
  { t with
    frag := parityMemory e t
    frgIdx := 0
    blkMax := 0
    blkIdx := (s.blkIdx + 1) % 2 ^ e.par.wBlk
    events := s.events ++ .tx (dataFrame e p s) .ok :: (parityFrames e t).map (Event.tx · .ok)
    draws := s.draws + 1 + (s.n.toNat - s.k.toNat) }

/-- The bytes that wait in the accumulation buffer (R29). -/
def State.buffered (s : State) : List Byte := (Memory.readBytes s.acc 0 s.accLen).getD []

/-! ## Runs of commands -/

/-- A run has ended: the host has sent its last word, no partial command is held, no fault (70_reset_and_hazards.md
R270). -/
abbrev State.RunEnded (s : State) : Prop := s.port = [] ∧ s.decoder = [] ∧ s.phase ≠ .halt

/-- A run whose last state is this ended in a fault (R270). DESIGN CHOICE (log entry 10): of a state in `HALT` whose decoder
holds a partial command R270 says both that the run "ended in a fault" and that it "has not ended: it is stuck"; the model
calls it stuck, so this asks for an empty decoder. -/
abbrev State.RunFaulted (s : State) : Prop := s.port = [] ∧ s.decoder = [] ∧ s.phase = .halt

/-- A run that has not ended: it is stuck in a partial command, in `HALT` too (R266, R270; DESIGN CHOICE, log entry 10). -/
abbrev State.RunStuck (s : State) : Prop := s.port = [] ∧ s.decoder ≠ []

/-- The commands executed one after the other (20_memory.md R71), up to the first outcome that is no next state. -/
def runCommands (e : Env) : List Instr → State → Host.Outcome State Fault Refusal
  | [], s => .next s
  | i :: is, s =>
    match execIn e i s with
    | .next t => runCommands e is t
    | .fault r => .fault r
    | .refused r => .refused r

/-- The unit a command can accept: its datagram in pass-through (42_ingestion.md R171), the content the buffer has before
it in aggregation (R176). -/
def acceptedUnit (i : Instr) (s : State) : List Byte :=
  match s.mode, i with
  | .passThrough, .dgram p => p
  | _, _ => s.buffered

/-- A run without a fault, in either mode, and the units accepted in it, in order: a command has accepted its unit where it
counts one in `SEQ` (40_block_engine.md R121). -/
def acceptedUnits (e : Env) : List Instr → State → Option (List (List Byte) × State)
  | [], s => some ([], s)
  | i :: is, s =>
    match execIn e i s with
    | .next t =>
      if t.phase = .halt then none
      else
        match acceptedUnits e is t with
        | some (us, u) => some (if t.seq = s.seq then us else acceptedUnit i s :: us, u)
        | none => none
    | .fault _ => none
    | .refused _ => none

/-- The datagrams of a command sequence, in order. -/
def datagrams : List Instr → List (List Byte)
  | [] => []
  | .dgram p :: is => p :: datagrams is
  | _ :: is => datagrams is

/-- The datagrams of a command sequence as one byte string (42_ingestion.md R183). -/
def payloads (is : List Instr) : List Byte := (datagrams is).flatten

/-- The fragment header of a frame: the `H_FRG` bytes behind the two preambles (41_frame_builder.md R156). -/
def headerOf (e : Env) (frame : List Byte) : List Byte :=
  (frame.drop (e.par.phyRom.length + e.par.linkRom.length)).take e.par.hFrg

/-- The payload of a frame: what stands behind the fragment header (R156). -/
def payloadOf (e : Env) (frame : List Byte) : List Byte :=
  frame.drop (e.par.phyRom.length + e.par.linkRom.length + e.par.hFrg)

/-- The frame carries the accepted unit `u` with sequence number `q`: its payload begins with the per-packet header and the
unit's bytes (20_memory.md R61, 41_frame_builder.md R156). -/
abbrev CarriesUnit (e : Env) (q : Nat) (u frame : List Byte) : Prop :=
  (payloadOf e frame).take (e.par.hPkt + u.length) = pktHdr e.par q u.length ++ u

/-- The frame of an event, empty for a response word. -/
def Event.frame : Event → List Byte
  | .tx f _ => f
  | .rsp _ => []

end Sys2Proof.Machine
end

