-- ==== Sys2Proof/Certificates/Slice0/Obligations.lean ====
section
/-!
DEFINITION. What is claimed of the model, rule by rule of spec/. A statement that names `e` holds in EVERY environment
(every admissible parameter set, every coder, every sequence of link verdicts); one that names `exec` or `step` is about
the machine of this package, which runs in `Config.env`.
-/

open Sys2Proof Sys2Proof.Machine

/-! ## Encoding and decoding (30_encoding.md) -/

/-- Decoding the words of a well-formed command gives it back with every operand, and leaves the words behind it. -/
def Obligations.DecodeOfEncodeIsTheCommand : Prop :=
  ∀ (i : Instr) (rest : List Word), i.wellFormed = true → decode (encode i ++ rest) = .command i rest

/-- R97 and R98 agree: a word is well formed exactly where one of the eight patterns matches it, and no word matches two. -/
def Obligations.WellFormedWordsAreThePatterns : Prop :=
  ∀ w : Word,
    (malformed w = false ↔ ∃ r ∈ opcodePatterns, w &&& r.2 = r.1) ∧
    (∀ r ∈ opcodePatterns, ∀ q ∈ opcodePatterns, w &&& r.2 = r.1 → w &&& q.2 = q.1 → r = q)

/-- Words written out from the spec's encodings and programs (30_encoding.md R98, 95_test_vectors.md P1, P2, V-C10, V-D8)
decode to the commands they stand for. -/
def Obligations.WordsOfTheSpecDecode : Prop :=
  decode [0x12000000, 0x0000005A] = .command (.wrcfg .tag 0x5A) [] ∧
  decode [0x25000000] = .command (.rdcsr .status) [] ∧
  decode [0x30000000] = .command .start [] ∧
  decode [0x40000003, 0x00332211] = .command (.dgram [0x11, 0x22, 0x33]) [] ∧
  decode [0x50000000] = .command .srcEmpty [] ∧
  decode [0x60000000] = .command .srcErr [] ∧
  decode [0x70000000] = .command .intr [] ∧
  decode [0x80000000, 0x00000007, 0x00000001] = .command (.time 0x100000007) [] ∧
  decode [0x40010000] = .malformedWord 0x40010000 [] ∧
  decode [0x00000000] = .malformedWord 0 []

/-- R91: the number of follow words, from the command word alone; with fewer the decoder goes on collecting. -/
def Obligations.FollowWordsByTheTable : Prop :=
  ∀ w : Word,
    (w &&& 0xF0FFFFFF = 0x10000000 → follow w = 1) ∧
    (w &&& 0xFFFF0000 = 0x40000000 → follow w = (w.toNat % 65536 + 3) / 4) ∧
    (w = 0x80000000 → follow w = 2) ∧
    (w &&& 0xF0FFFFFF ≠ 0x10000000 → w &&& 0xFFFF0000 ≠ 0x40000000 → w ≠ 0x80000000 → follow w = 0) ∧
    (∀ ws : List Word, ws.length < follow w → decode (w :: ws) = .incomplete) ∧
    (∀ ws : List Word, follow w ≤ ws.length → decode (w :: ws) ≠ .incomplete)

/-- R95: datagram byte `j` is bits `8*(j mod 4)+7 : 8*(j mod 4)` of follow word `j div 4`; pad bytes are not in it. -/
def Obligations.DatagramBytesAreLittleEndian : Prop :=
  ∀ (len : BitVec 16) (d rest : List Word), d.length = (len.toNat + 3) / 4 →
    ∃ p : List Byte,
      decode (((0x4 : BitVec 4) ++ (0 : BitVec 12) ++ len) :: (d ++ rest)) = .command (.dgram p) rest ∧
      p.length = len.toNat ∧
      ∀ j < len.toNat, p[j]? = some ((d.getD (j / 4) 0).extractLsb' (8 * (j % 4)) 8)

/-! ## The step (43_control.md R210) -/

/-- A step runs the decoded command, its words taken from the decoder and the port. -/
def Obligations.StepRunsTheDecodedCommand : Prop :=
  ∀ (s : State) (i : Instr) (rest : List Word), decode (s.decoder ++ s.port) = .command i rest →
    step s = exec i { s with decoder := [], port := rest }

/-- Without a complete command the decoder keeps what it got and the block waits: nothing else changes (R23, R266). -/
def Obligations.StepWaitsForAWholeCommand : Prop :=
  ∀ s : State, decode (s.decoder ++ s.port) = .incomplete →
    step s = .next { s with decoder := s.decoder ++ s.port, port := [] }

/-- A command offered in parts, with a step in between, runs as if offered at once (R23: a command runs only once it is
complete; R263: no word is lost). -/
def Obligations.DeliveryInPartsIsDeliveryAtOnce : Prop :=
  ∀ (s t : State) (ws : List Word), decode (s.decoder ++ s.port) = .incomplete → step s = .next t →
    step (t.offer ws) = step (s.offer ws)

/-- The framing is the same in every phase, `HALT` included: a step takes the command word and its follow words and
leaves all the others (R91). -/
def Obligations.StepTakesExactlyOneCommand : Prop :=
  ∀ (s t : State) (w : Word) (f rest : List Word), s.decoder ++ s.port = w :: (f ++ rest) → f.length = follow w →
    step s = .next t → t.decoder = [] ∧ t.port = rest

/-- A malformed word takes no follow word; outside `HALT` it raises `ILLEGAL_CMD` with `INFO = w`, in `HALT` it is
discarded (R97, R233). -/
def Obligations.MalformedWordIsIllegal : Prop :=
  ∀ (s : State) (w : Word) (rest : List Word), s.decoder ++ s.port = w :: rest → malformed w = true →
    (s.phase ≠ .halt → step s = .next (State.raiseFault .illegalCmd w { s with decoder := [], port := rest })) ∧
    (s.phase = .halt → step s = .next { s with decoder := [], port := rest })

/-! ## Faults (60_exceptions.md) -/

/-- R231: the first fault is recorded, a later one is not, the phase is `HALT`, nothing else changes, and no later
micro-step runs. -/
def Obligations.RaiseRecordsTheFirstFault : Prop :=
  ∀ (c : Cause) (v : Word) (s : State) (g : State → Flow),
    (s.fault = false →
      s.raiseFault c v = { s with fault := true, cause := c, info := v, phase := .halt }) ∧
    (s.fault = true → s.raiseFault c v = { s with phase := .halt }) ∧
    (raise c v s).andThen g = .ended (s.raiseFault c v)

/-- R233: in `HALT` an `RDCSR` answers as always, every other command and every malformed word is discarded, and the words
are still framed: a step takes one command word with its follow words. -/
def Obligations.HaltDiscardsAllButRdcsr : Prop :=
  ∀ s : State, s.phase = .halt →
    (∀ c, exec (.rdcsr c) s = .next { s with events := s.events ++ [.rsp (readCsr c s)] }) ∧
    (∀ i, (∀ c, i ≠ .rdcsr c) → exec i s = .next s) ∧
    (∀ w, execMalformed w s = .next s) ∧
    (∀ w f rest, s.decoder ++ s.port = w :: (f ++ rest) → f.length = follow w →
      ∃ t, step s = .next t ∧ t.decoder = [] ∧ t.port = rest)

/-- From a halted state every step answers a next state, which differs in the port, the decoder and the response stream
alone; no frame is emitted (R232, R237). -/
def Obligations.HaltIsTerminal : Prop :=
  ∀ s : State, s.phase = .halt →
    ∃ t, step s = .next t ∧ t = { s with port := t.port, decoder := t.decoder, events := t.events } ∧
      t.txStream = s.txStream

/-- A recorded fault, its cause and its information word are kept by every step (R32, R232). -/
def Obligations.FirstFaultIsKept : Prop :=
  ∀ s t : State, step s = .next t → s.fault = true →
    t.fault = true ∧ t.cause = s.cause ∧ t.info = s.info

/-! ## Control commands (43_control.md) -/

/-- R211, for all sixteen CSRs and every phase but `HALT`. -/
def Obligations.WrcfgStoresTheFieldBits : Prop :=
  ∀ (s : State) (v : Word),
    (s.phase = .uncfg →
      exec (.wrcfg .k v) s = .next { s with k := v.setWidth 16 } ∧
      exec (.wrcfg .n v) s = .next { s with n := v.setWidth 16 } ∧
      exec (.wrcfg .tag v) s = .next { s with tag := v.setWidth 8 } ∧
      exec (.wrcfg .mode v) s =
        .next { s with mode := if v.getLsbD 0 then .aggregation else .passThrough } ∧
      exec (.wrcfg .lat v) s = .next { s with lat := v } ∧
      ∀ c ∈ [Csr.status, .blkIdx, .frgIdx, .blkMax, .seq, .accLen, .deadlineLo, .deadlineHi, .nowLo, .nowHi, .faultInfo],
        exec (.wrcfg c v) s = .next (s.raiseFault .illegalCmd (BitVec.ofNat 32 (0x10000000 + 0x1000000 * c.number.toNat)))) ∧
    (s.phase = .idle ∨ s.phase = .drain →
      ∀ c, exec (.wrcfg c v) s =
        .next (s.raiseFault .illegalCmd (BitVec.ofNat 32 (0x10000000 + 0x1000000 * c.number.toNat))))

/-- R212, R213, R218: in every phase an `RDCSR` appends exactly the CSR's word to the history and changes nothing else. -/
def Obligations.RdcsrAnswersTheCsr : Prop :=
  ∀ s : State,
    let answers := fun (c : Csr) (v : Word) => exec (.rdcsr c) s = .next { s with events := s.events ++ [.rsp v] }
    answers .k (BitVec.ofNat 32 s.k.toNat) ∧
    answers .n (BitVec.ofNat 32 s.n.toNat) ∧
    answers .tag (BitVec.ofNat 32 s.tag.toNat) ∧
    answers .mode (if s.mode = .aggregation then 1 else 0) ∧
    answers .lat s.lat ∧
    answers .status s.status ∧
    answers .blkIdx (BitVec.ofNat 32 (s.blkIdx % 2 ^ 32)) ∧
    answers .frgIdx (BitVec.ofNat 32 s.frgIdx) ∧
    answers .blkMax (BitVec.ofNat 32 s.blkMax) ∧
    answers .seq (BitVec.ofNat 32 (s.seq % 2 ^ 32)) ∧
    answers .accLen (BitVec.ofNat 32 s.accLen) ∧
    answers .deadlineLo (BitVec.ofNat 32 (s.deadline.toNat % 2 ^ 32)) ∧
    answers .deadlineHi (BitVec.ofNat 32 (s.deadline.toNat / 2 ^ 32)) ∧
    answers .nowLo (BitVec.ofNat 32 (s.now.toNat % 2 ^ 32)) ∧
    answers .nowHi (BitVec.ofNat 32 (s.now.toNat / 2 ^ 32)) ∧
    answers .faultInfo s.info

/-- R35: `STATUS` is `PHASE + 4*FAULT + 8*MODE + 16*CAUSE`, with the codes of R22, R31 and R230. -/
def Obligations.StatusPacksItsFields : Prop :=
  ∀ s : State,
    s.status.toNat =
      (if s.phase = .uncfg then 0 else if s.phase = .idle then 1 else if s.phase = .drain then 2 else 3) +
      4 * (if s.fault then 1 else 0) +
      8 * (if s.mode = .passThrough then 0 else 1) +
      16 * (if s.cause = .none then 0 else if s.cause = .payloadTooLarge then 1
        else if s.cause = .injectionFailed then 2 else if s.cause = .sourceReadError then 3
        else if s.cause = .usageError then 4 else if s.cause = .illegalCmd then 5 else 6)

/-- R215: a successful `START` constructs the core state, in either mode and with any latency. -/
def Obligations.StartConstructsTheCore : Prop :=
  ∀ s : State, s.phase = .uncfg → 1 ≤ s.k.toNat → s.k.toNat ≤ s.n.toNat → s.n.toNat ≤ Config.env.par.nMax →
    exec .start s = .next { s with
      blkIdx := 0, frgIdx := 0, blkMax := 0, seq := 0, accLen := 0,
      deadline := BitVec.ofNat 64 (min (s.now.toNat + s.lat.toNat) (2 ^ 64 - 1)), phase := .idle }

/-- R216: an illegal configuration raises `USAGE_ERROR` with `INFO = K << 16 | N`, and no core register is written. -/
def Obligations.StartChecksTheConfiguration : Prop :=
  ∀ s : State, s.phase = .uncfg →
    ¬ (1 ≤ s.k.toNat ∧ s.k.toNat ≤ s.n.toNat ∧ s.n.toNat ≤ Config.env.par.nMax) →
    exec .start s =
      .next (s.raiseFault .usageError (BitVec.ofNat 32 (s.k.toNat * 65536 + s.n.toNat)))

/-- The entries I of R217's table for well-formed commands other than `WRCFG`: `ILLEGAL_CMD` with the command word. -/
def Obligations.CommandIllegalInItsPhase : Prop :=
  ∀ (s : State) (p : List Byte),
    (s.phase = .uncfg →
      exec (.dgram p) s =
        .next (s.raiseFault .illegalCmd (BitVec.ofNat 32 (0x40000000 + p.length % 65536))) ∧
      exec .srcEmpty s = .next (s.raiseFault .illegalCmd 0x50000000) ∧
      exec .srcErr s = .next (s.raiseFault .illegalCmd 0x60000000) ∧
      exec .intr s = .next (s.raiseFault .illegalCmd 0x70000000)) ∧
    (s.phase = .idle ∨ s.phase = .drain → exec .start s = .next (s.raiseFault .illegalCmd 0x30000000)) ∧
    (s.phase = .idle ∨ s.phase = .drain → s.mode = .passThrough →
      exec .srcEmpty s = .next (s.raiseFault .illegalCmd 0x50000000))

/-- R264: once out of `UNCFG` no step changes a configuration register or goes back to `UNCFG`, and a `WRCFG` halts the
block with `ILLEGAL_CMD`. -/
def Obligations.ConfigurationIsLocked : Prop :=
  ∀ s t : State, s.phase ≠ .uncfg →
    (step s = .next t →
      t.k = s.k ∧ t.n = s.n ∧ t.tag = s.tag ∧ t.mode = s.mode ∧ t.lat = s.lat ∧ t.phase ≠ .uncfg) ∧
    (∀ c v, s.phase ≠ .halt → s.fault = false → exec (.wrcfg c v) s = .next t →
      t.phase = .halt ∧ t.cause = .illegalCmd)

/-! ## The frame builder (41_frame_builder.md) -/

/-- R151, R152, R156: each byte of a frame, by its offset, and the frame's length; in the fragment header the block index
comes first, then the fragment index. -/
def Obligations.FrameBytesByOffset : Prop :=
  ∀ (e : Env) (b i : Nat) (tag : Byte) (pl : List Byte) (plen o : Nat), plen ≤ pl.length →
    let oLink := e.par.phyRom.length
    let oHdr := oLink + e.par.linkRom.length
    let oPl := oHdr + e.par.hFrg
    (buildFrame e.par b i tag pl plen)[o]? =
      if o < oLink then e.par.phyRom[o]?
      else if o < oHdr then
        (if o - oLink = e.par.tagOffA ∨ o - oLink = e.par.tagOffB then some tag else e.par.linkRom[o - oLink]?)
      else if o < oHdr + e.par.wBlk / 8 then (encField e.par.hdrOrder e.par.wBlk b)[o - oHdr]?
      else if o < oPl then (encField e.par.hdrOrder e.par.wFrg i)[o - (oHdr + e.par.wBlk / 8)]?
      else if o < oPl + plen then pl[o - oPl]?
      else none

/-- R11: byte `j` of `enc_W(v)` in either byte order. R61, R154: each byte of a data fragment's buffer, by its offset: the
sequence number first, then the payload length, the payload, zeros up to `F`. -/
def Obligations.HeaderFieldBytes : Prop :=
  (∀ (w v j : Nat), w % 8 = 0 → j < w / 8 →
    (encField .le w v)[j]? = some (BitVec.ofNat 8 (v % 2 ^ w / 2 ^ (8 * j))) ∧
    (encField .be w v)[j]? = some (BitVec.ofNat 8 (v % 2 ^ w / 2 ^ (w - 8 - 8 * j)))) ∧
  (∀ (e : Env) (q o : Nat) (p : List Byte), e.par.hPkt + p.length ≤ e.par.fragCap →
    (dataFragment e.par q p)[o]? =
      if o < e.par.wSeq / 8 then (encField e.par.hdrOrder e.par.wSeq q)[o]?
      else if o < e.par.hPkt then (encField e.par.hdrOrder e.par.wLen p.length)[o - e.par.wSeq / 8]?
      else if o < e.par.hPkt + p.length then p[o - e.par.hPkt]?
      else if o < e.par.fragCap then some 0
      else none)

/-- R154, R155: no header field is truncated: two headers with fields in range are equal only where the fields are. A
frame's length is that of its parts and never exceeds the link's maximum. -/
def Obligations.HeadersAreNeverTruncated : Prop :=
  ∀ (e : Env),
    (∀ b b' i i', b < 2 ^ e.par.wBlk → b' < 2 ^ e.par.wBlk → i < e.par.nMax → i' < e.par.nMax →
      fragHdr e.par b i = fragHdr e.par b' i' → b = b' ∧ i = i') ∧
    (∀ q q' l l', q < 2 ^ e.par.wSeq → q' < 2 ^ e.par.wSeq → e.par.hPkt + l ≤ e.par.fragCap →
      e.par.hPkt + l' ≤ e.par.fragCap → pktHdr e.par q l = pktHdr e.par q' l' → q = q' ∧ l = l') ∧
    (∀ b i tag pl plen, plen ≤ pl.length → plen ≤ e.par.fragCap →
      (buildFrame e.par b i tag pl plen).length = e.par.phyRom.length + e.par.linkRom.length + e.par.hFrg + plen ∧
      (buildFrame e.par b i tag pl plen).length ≤ e.par.maxFrame)

/-! ## Buffer accesses (20_memory.md) -/

/-- R69: an access outside its buffer is a refusal, never a wrap or a truncation. -/
def Obligations.OutOfBoundsIsRefused : Prop :=
  ∀ (e : Env) (s : State) (i off n : Nat) (bs : List Byte) (k : List Byte → Flow),
    (e.par.nMax ≤ i ∨ e.par.fragCap < off + n → fragRead e i off n s k = .refused .outOfBounds) ∧
    (e.par.nMax ≤ i ∨ e.par.fragCap < off + bs.length → fragWrite e i off bs s = .refused .outOfBounds) ∧
    (e.par.aggCap < off + n → accRead e off n s k = .refused .outOfBounds) ∧
    (e.par.aggCap < off + bs.length → accWrite e off bs s = .refused .outOfBounds)

/-- A buffer reads back what was written to it and every other byte as before, and stays in canonical form. -/
def Obligations.BufferReadsBackItsWrites : Prop :=
  ∀ (m : Memory) (a x : Nat) (bs : List Byte), Memory.wf m →
    Memory.wf (Memory.writeBytes m a bs) ∧
    Memory.readBytes (Memory.writeBytes m a bs) a bs.length = some bs ∧
    (x < a ∨ a + bs.length ≤ x → Memory.read (Memory.writeBytes m a bs) x = Memory.read m x)

/-! ## The block engine in pass-through (40_block_engine.md, 42_ingestion.md R171) -/

/-- A datagram that fits is accepted whatever the link sender answers: it is framed with the current `SEQ` in the open
slot, its frame at the running maximum goes out at once with the verdict drawn, and `SEQ` counts it (R120 to R124). -/
def Obligations.PassThroughDatagramCompletes : Prop :=
  ∀ (s : State) (p : List Byte), s.Inv Config.env → s.phase = .idle → s.mode = .passThrough →
    Config.env.par.hPkt + p.length ≤ Config.env.par.fragCap →
    ∃ (t : State) (l : List Event), exec (.dgram p) s = .next t ∧
      t.seq = (s.seq + 1) % 2 ^ Config.env.par.wSeq ∧
      Memory.readBytes t.frag (s.frgIdx * Config.env.par.fragCap) Config.env.par.fragCap =
        some (dataFragment Config.env.par s.seq p) ∧
      t.events = s.events ++
        .tx (buildFrame Config.env.par s.blkIdx s.frgIdx s.tag
          ((dataFragment Config.env.par s.seq p).take (max s.blkMax (Config.env.par.hPkt + p.length)))
          (max s.blkMax (Config.env.par.hPkt + p.length))) (Config.env.linkDraw s.draws) :: l

/-- `ACCEPT` in either mode, where the unit leaves the block open: fragment written, counted, sent, the next slot open,
nothing else (R120 to R123). `x` and `v` are the phase and the time a command may have set before it flushes. In
pass-through `DGRAM` is this `ACCEPT`. -/
def Obligations.FragmentLeavesTheBlockOpen : Prop :=
  ∀ (e : Env) (s : State) (p : List Byte) (x : Phase) (v : BitVec 64), s.Inv e → s.phase = .idle ∨ s.phase = .drain →
    e.par.hPkt + p.length ≤ e.par.fragCap → s.frgIdx + 1 < s.k.toNat → e.linkDraw s.draws = .ok →
    accept e p { s with phase := x, now := v } = .run (blockOpen e p { s with phase := x, now := v }) ∧
    (s.phase = .idle → s.mode = .passThrough → execIn e (.dgram p) s = .next (blockOpen e p s))

/-- `ACCEPT` in either mode, where the unit fills slot `K - 1` and every frame is accepted: the parity of the `K` shards at
the final maximum is written and sent in order, and the block closes (R125, R126, R127). `x` and `v` as above. -/
def Obligations.LastFragmentClosesTheBlock : Prop :=
  ∀ (e : Env) (s : State) (p : List Byte) (x : Phase) (v : BitVec 64), s.Inv e → s.phase = .idle ∨ s.phase = .drain →
    e.par.hPkt + p.length ≤ e.par.fragCap → s.frgIdx + 1 = s.k.toNat →
    (∀ c ≤ s.n.toNat - s.k.toNat, e.linkDraw (s.draws + c) = .ok) →
    accept e p { s with phase := x, now := v } = .run (blockDone e p { s with phase := x, now := v }) ∧
    (s.phase = .idle → s.mode = .passThrough → execIn e (.dgram p) s = .next (blockDone e p s))

/-- R134, for `ACCEPT` in either mode: where the data frame fails, and where parity frame number `f` is the first to fail.
`x` and `v` as above. -/
def Obligations.FailedFrameHaltsTheEngine : Prop :=
  ∀ (e : Env) (s : State) (p : List Byte) (x : Phase) (v : BitVec 64), s.Inv e → s.phase = .idle ∨ s.phase = .drain →
    e.par.hPkt + p.length ≤ e.par.fragCap →
    (e.linkDraw s.draws = .fail →
      accept e p { s with phase := x, now := v } = .ended (dataFailed e p { s with phase := x, now := v }) ∧
      (s.phase = .idle → s.mode = .passThrough → execIn e (.dgram p) s = .next (dataFailed e p s))) ∧
    (∀ f < s.n.toNat - s.k.toNat, s.frgIdx + 1 = s.k.toNat →
      (∀ c ≤ f, e.linkDraw (s.draws + c) = .ok) → e.linkDraw (s.draws + (f + 1)) = .fail →
      accept e p { s with phase := x, now := v } = .ended (parityFailed e p f { s with phase := x, now := v }) ∧
      (s.phase = .idle → s.mode = .passThrough → execIn e (.dgram p) s = .next (parityFailed e p f s)))

/-- A datagram one byte or more over the capacity raises `PAYLOAD_TOO_LARGE` with its length and changes nothing else
(R120, R132). -/
def Obligations.OversizePayloadIsRejected : Prop :=
  ∀ (s : State) (p : List Byte), s.phase = .idle → s.mode = .passThrough →
    Config.env.par.fragCap < Config.env.par.hPkt + p.length →
    exec (.dgram p) s = .next (s.raiseFault .payloadTooLarge (BitVec.ofNat 32 p.length))

/-- R129: with `K = N` no command depends on the coder. -/
def Obligations.NoCoderWhenKEqualsN : Prop :=
  ∀ (e : Env) (other : Nat → Nat → Nat → List (List Byte) → Nat → Nat → Byte) (i : Instr) (s : State), s.k = s.n →
    execIn { e with fecByte := other } i s = execIn e i s

/-- R135: two blocks with the same `K`, `N`, `BLK_MAX` and shard bytes get the same parity bytes, in the buffers and in the
frames, whatever `ACCEPT` completes them, in either mode. `x`, `v` and `x'`, `v'` as above. -/
def Obligations.ParityIsAFunctionOfTheShards : Prop :=
  ∀ (e : Env) (s s' : State) (p p' : List Byte) (x x' : Phase) (v v' : BitVec 64),
    s.Inv e → s'.Inv e → s.phase = .idle ∨ s.phase = .drain → s'.phase = .idle ∨ s'.phase = .drain →
    e.par.hPkt + p.length ≤ e.par.fragCap → e.par.hPkt + p'.length ≤ e.par.fragCap →
    s.frgIdx + 1 = s.k.toNat → s'.frgIdx + 1 = s'.k.toNat →
    (∀ c ≤ s.n.toNat - s.k.toNat, e.linkDraw (s.draws + c) = .ok ∧ e.linkDraw (s'.draws + c) = .ok) →
    s'.k = s.k → s'.n = s.n → (afterData e p' s').blkMax = (afterData e p s).blkMax →
    (∀ j < s.k.toNat,
      Memory.readBytes (afterData e p' s').frag (j * e.par.fragCap) (afterData e p s).blkMax =
        Memory.readBytes (afterData e p s).frag (j * e.par.fragCap) (afterData e p s).blkMax) →
    ∃ t t' y y' l l',
      accept e p { s with phase := x, now := v } = .run t ∧ t.events = s.events ++ y :: l ∧
      accept e p' { s' with phase := x', now := v' } = .run t' ∧ t'.events = s'.events ++ y' :: l' ∧
      l.length = s.n.toNat - s.k.toNat ∧
      (l.map (fun ev => payloadOf e ev.frame) = l'.map fun ev => payloadOf e ev.frame) ∧
      ∀ j, s.k.toNat ≤ j → j < s.n.toNat →
        Memory.readBytes t'.frag (j * e.par.fragCap) (afterData e p s).blkMax =
          Memory.readBytes t.frag (j * e.par.fragCap) (afterData e p s).blkMax

/-- R127: apart from `START`, `BLK_IDX` changes only by a close of the block, which empties it. -/
def Obligations.BlockIndexChangesOnlyAtAClose : Prop :=
  ∀ (i : Instr) (s t : State), i ≠ .start → exec i s = .next t →
    t.blkIdx = s.blkIdx ∨
    (t.blkIdx = (s.blkIdx + 1) % 2 ^ Config.env.par.wBlk ∧ t.frgIdx = 0 ∧ t.blkMax = 0)

/-- R72, R128, in either mode: `c` units accepted from an empty block put exactly these frames on the air: all `N` of each of
the `c / K` complete blocks, in fragment order, then the `c mod K` data frames of the open one. The data frame of unit
number `j` carries it under sequence number `SEQ + j`. In pass-through the units are the datagrams. -/
def Obligations.FramesOfARunInOrder : Prop :=
  ∀ (e : Env) (s t : State) (is : List Instr) (us : List (List Byte)), s.Inv e → s.phase = .idle ∨ s.phase = .drain →
    s.frgIdx = 0 → acceptedUnits e is s = some (us, t) →
    runCommands e is s = .next t ∧
    (s.mode = .passThrough → us = datagrams is) ∧
    ∃ fs : List (List Byte),
      t.txStream = s.txStream ++ fs.map (fun f => (f, Verdict.ok)) ∧
      fs.length = us.length / s.k.toNat * s.n.toNat + us.length % s.k.toNat ∧
      t.frgIdx = us.length % s.k.toNat ∧
      t.blkIdx = (s.blkIdx + us.length / s.k.toNat) % 2 ^ e.par.wBlk ∧
      fs.map (headerOf e) =
        ((List.range (us.length / s.k.toNat)).flatMap fun b =>
          (List.range s.n.toNat).map fun i => fragHdr e.par ((s.blkIdx + b) % 2 ^ e.par.wBlk) i) ++
        ((List.range (us.length % s.k.toNat)).map fun i =>
          fragHdr e.par ((s.blkIdx + us.length / s.k.toNat) % 2 ^ e.par.wBlk) i) ∧
      ∀ j u, us[j]? = some u → ∃ f, fs[j / s.k.toNat * s.n.toNat + j % s.k.toNat]? = some f ∧
        CarriesUnit e ((s.seq + j) % 2 ^ e.par.wSeq) u f

/-! ## Aggregation (42_ingestion.md) -/

/-- R172: a datagram that fits is appended and a drain is on; the timeout is not looked at (R181). -/
def Obligations.AggregatedDatagramIsAppended : Prop :=
  ∀ (s : State) (p : List Byte), s.phase = .idle ∨ s.phase = .drain → s.mode = .aggregation →
    s.accLen + p.length ≤ Config.env.par.aggCap →
    exec (.dgram p) s = .next { s with
      phase := .drain, acc := Memory.writeBytes s.acc s.accLen p, accLen := s.accLen + p.length }

/-- R172: on overflow the old content becomes one accepted unit, the deadline restarts, and the datagram starts a new
buffer; a flush that raises ends the command there (R176, R235). -/
def Obligations.OverflowFlushesThenStartsANewBuffer : Prop :=
  ∀ (e : Env) (s u : State) (p : List Byte), s.Inv e → s.phase = .idle ∨ s.phase = .drain → s.mode = .aggregation →
    0 < s.accLen → e.par.aggCap < s.accLen + p.length → p.length ≤ e.par.aggCap →
    (accept e s.buffered { s with phase := .drain } = .run u →
      execIn e (.dgram p) s = .next { u with
        deadline := sat64 (s.now.toNat + s.lat.toNat), acc := Memory.writeBytes u.acc 0 p, accLen := p.length }) ∧
    (accept e s.buffered { s with phase := .drain } = .ended u →
      execIn e (.dgram p) s = .next u ∧ u.phase = .halt ∧ u.accLen = s.accLen)

/-- R173: a datagram over the accumulation capacity is not stored; earlier content is flushed first. -/
def Obligations.OversizeDatagramInAggregation : Prop :=
  ∀ (e : Env) (s u : State) (p : List Byte), s.Inv e → s.phase = .idle ∨ s.phase = .drain → s.mode = .aggregation →
    e.par.aggCap < p.length →
    (s.accLen = 0 →
      execIn e (.dgram p) s = .next (State.raiseFault .payloadTooLarge (BitVec.ofNat 32 p.length)
        { s with phase := .drain })) ∧
    (0 < s.accLen → accept e s.buffered { s with phase := .drain } = .run u →
      execIn e (.dgram p) s = .next (State.raiseFault .payloadTooLarge (BitVec.ofNat 32 p.length)
        { u with accLen := 0, deadline := sat64 (s.now.toNat + s.lat.toNat) })) ∧
    (0 < s.accLen → accept e s.buffered { s with phase := .drain } = .ended u → execIn e (.dgram p) s = .next u)

/-- R183: every accepted unit has 1 to `AGG_CAP` bytes, and the units followed by what still waits in the buffer are the
old content followed by the datagrams, byte for byte. -/
def Obligations.AggregationConservesBytes : Prop :=
  ∀ (e : Env) (s t : State) (is : List Instr) (us : List (List Byte)), s.Inv e → s.mode = .aggregation →
    s.phase = .idle ∨ s.phase = .drain → acceptedUnits e is s = some (us, t) →
    (∀ u ∈ us, 1 ≤ u.length ∧ u.length ≤ e.par.aggCap) ∧
    us.flatten ++ t.buffered = s.buffered ++ payloads is

/-- R174: the drain ends; then the timeout is checked, and an empty one only restarts the deadline (R177, R180). -/
def Obligations.SrcEmptyEndsTheDrain : Prop :=
  ∀ s : State, s.phase = .idle ∨ s.phase = .drain → s.mode = .aggregation →
    (s.now < s.deadline → exec .srcEmpty s = .next { s with phase := .idle }) ∧
    (s.deadline ≤ s.now → s.accLen = 0 →
      exec .srcEmpty s = .next { s with
        phase := .idle, deadline := BitVec.ofNat 64 (min (s.now.toNat + s.lat.toNat) (2 ^ 64 - 1)) })

/-- R175: a read error is fatal wherever it is legal; the buffer is not flushed. -/
def Obligations.SrcErrIsFatal : Prop :=
  ∀ s : State, s.phase = .idle ∨ s.phase = .drain → s.fault = false →
    exec .srcErr s = .next { s with fault := true, cause := .sourceReadError, info := 0, phase := .halt } ∧
    ({ s with fault := true, cause := .sourceReadError, info := 0, phase := .halt } : State).status =
      if s.mode = .aggregation then 0x0000003F else 0x00000037

/-- R179: an interruption changes nothing in pass-through or in a drain; in aggregation `IDLE` it checks the timeout. -/
def Obligations.IntrContinues : Prop :=
  ∀ s : State,
    (s.phase = .drain → exec .intr s = .next s) ∧
    (s.phase = .idle → s.mode = .passThrough → exec .intr s = .next s) ∧
    (s.phase = .idle → s.mode = .aggregation → s.now < s.deadline → exec .intr s = .next s) ∧
    (s.phase = .idle → s.mode = .aggregation → s.deadline ≤ s.now → s.accLen = 0 →
      exec .intr s = .next { s with
        deadline := BitVec.ofNat 64 (min (s.now.toNat + s.lat.toNat) (2 ^ 64 - 1)) })

/-- R178: time moves on; only aggregation `IDLE` checks the timeout, once however far the clock moved. -/
def Obligations.TimeAdvancesTheClock : Prop :=
  ∀ (s : State) (v : BitVec 64), s.now ≤ v →
    (s.phase = .uncfg ∨ s.phase = .drain ∨ (s.phase = .idle ∧ s.mode = .passThrough) →
      exec (.time v) s = .next { s with now := v }) ∧
    (s.phase = .idle → s.mode = .aggregation → v < s.deadline → exec (.time v) s = .next { s with now := v }) ∧
    (s.phase = .idle → s.mode = .aggregation → s.deadline ≤ v → s.accLen = 0 →
      exec (.time v) s = .next { s with
        now := v, deadline := BitVec.ofNat 64 (min (v.toNat + s.lat.toNat) (2 ^ 64 - 1)) })

/-- R265: time going backwards halts the block with `BAD_TIME`; the current time may be repeated: it changes nothing where
no timeout is due, and is one more check, as `INTR` is, where one can be. -/
def Obligations.TimeNeverGoesBack : Prop :=
  ∀ (s : State) (v : BitVec 64), s.phase ≠ .halt →
    (v < s.now → exec (.time v) s = .next (s.raiseFault .badTime (BitVec.ofNat 32 (v.toNat % 2 ^ 32)))) ∧
    (s.phase = .uncfg ∨ s.phase = .drain ∨ s.mode = .passThrough ∨ s.now < s.deadline →
      exec (.time s.now) s = .next s) ∧
    (s.phase = .idle ∨ s.phase = .drain → exec (.time s.now) s = exec .intr s)

/-- R176, R177: a timeout that is due flushes what waits as one accepted unit and restarts the deadline, from each command
that checks it; a flush that raises ends the command there. -/
def Obligations.DueTimeoutFlushes : Prop :=
  ∀ (e : Env) (s u : State) (v : BitVec 64), s.Inv e → s.mode = .aggregation → 0 < s.accLen →
    (s.phase = .idle ∨ s.phase = .drain → s.deadline ≤ s.now →
      (accept e s.buffered { s with phase := .idle } = .run u →
        execIn e .srcEmpty s = .next { u with accLen := 0, deadline := sat64 (s.now.toNat + s.lat.toNat) }) ∧
      (accept e s.buffered { s with phase := .idle } = .ended u → execIn e .srcEmpty s = .next u)) ∧
    (s.phase = .idle → s.deadline ≤ s.now →
      (accept e s.buffered s = .run u →
        execIn e .intr s = .next { u with accLen := 0, deadline := sat64 (s.now.toNat + s.lat.toNat) }) ∧
      (accept e s.buffered s = .ended u → execIn e .intr s = .next u)) ∧
    (s.phase = .idle → s.now ≤ v → s.deadline ≤ v →
      (accept e s.buffered { s with now := v } = .run u →
        execIn e (.time v) s = .next { u with accLen := 0, deadline := sat64 (v.toNat + s.lat.toNat) }) ∧
      (accept e s.buffered { s with now := v } = .ended u → execIn e (.time v) s = .next u))

/-- The deadline in force is never later than `NOW + LAT` (R184's bound), and every step keeps this. -/
def Obligations.DeadlineWithinLatency : Prop :=
  ∀ s t : State,
    (s.phase = .idle ∨ s.phase = .drain → s.deadline.toNat ≤ s.now.toNat + s.lat.toNat) →
    step s = .next t →
    (t.phase = .idle ∨ t.phase = .drain → t.deadline.toNat ≤ t.now.toNat + t.lat.toNat)

/-- R184: a datagram taken at time `NOW` is on the air, if nothing failed, once the drain has ended and `TIME` commands have
reached `NOW + LAT`: the buffer is empty then, what it held and the datagram are the accepted units of the run, and each
unit is carried by a new frame. One that found the buffer empty is a unit of its own. -/
def Obligations.WaitingDatagramsLeaveWithinLatency : Prop :=
  ∀ (e : Env) (s t : State) (p : List Byte) (vs : List (BitVec 64)) (us : List (List Byte)), s.Inv e →
    s.mode = .aggregation → s.phase = .idle ∨ s.phase = .drain → s.deadline.toNat ≤ s.now.toNat + s.lat.toNat →
    acceptedUnits e (.dgram p :: .srcEmpty :: vs.map .time) s = some (us, t) →
    (∃ v ∈ vs, s.now.toNat + s.lat.toNat ≤ v.toNat) →
    t.accLen = 0 ∧ t.phase = .idle ∧ us.flatten = s.buffered ++ p ∧
    (s.accLen = 0 → p ≠ [] → us = [p]) ∧
    ∀ u ∈ us, ∃ f q, (f, Verdict.ok) ∈ t.txStream.drop s.txStream.length ∧ CarriesUnit e q u f

/-- R30: `REMAIN` is `DEADLINE - NOW` clamped to 0; in aggregation `IDLE` it is 0 exactly where an `INTR` restarts the
deadline of an empty buffer, and where it is not, `INTR` changes nothing (R177, R180). -/
def Obligations.RemainingTimeDecidesTheTimeout : Prop :=
  ∀ s : State,
    s.remain.toNat = s.deadline.toNat - s.now.toNat ∧
    (s.phase = .idle → s.mode = .aggregation → s.accLen = 0 →
      exec .intr s = .next (if s.remain = 0 then { s with deadline := sat64 (s.now.toNat + s.lat.toNat) } else s))

/-! ## Frames: what a command leaves alone -/

/-- `DGRAM` in pass-through changes the engine's registers, the open slot, the parity buffers when the block is full, and
the fault registers and phase when it raises; nothing else. -/
def Obligations.PassThroughFrame : Prop :=
  ∀ (s t : State) (p : List Byte), s.phase = .idle → s.mode = .passThrough → exec (.dgram p) s = .next t →
    t.port = s.port ∧ t.decoder = s.decoder ∧ t.k = s.k ∧ t.n = s.n ∧ t.tag = s.tag ∧ t.mode = s.mode ∧ t.lat = s.lat ∧
    t.acc = s.acc ∧ t.accLen = s.accLen ∧ t.now = s.now ∧ t.deadline = s.deadline ∧ t.rspStream = s.rspStream ∧
    (t.phase = .idle ∨ t.phase = .halt) ∧
    (t.phase = .idle → t.fault = s.fault ∧ t.cause = s.cause ∧ t.info = s.info) ∧
    ∀ a, (a < s.frgIdx * Config.env.par.fragCap ∨ (s.frgIdx + 1) * Config.env.par.fragCap ≤ a) →
      (s.frgIdx + 1 < s.k.toNat ∨ a < s.k.toNat * Config.env.par.fragCap ∨ s.n.toNat * Config.env.par.fragCap ≤ a) →
      Memory.read t.frag a = Memory.read s.frag a

/-- `DGRAM` in aggregation: besides what its flush may change as an `ACCEPT`, only the phase, the buffer's length, the
deadline, and the buffer bytes it stores to: behind the old content if the datagram fits, at the start otherwise. Where
nothing is flushed the engine is left alone. -/
def Obligations.AggregationFrame : Prop :=
  ∀ (s t : State) (p : List Byte), s.phase = .idle ∨ s.phase = .drain → s.mode = .aggregation →
    exec (.dgram p) s = .next t →
    t.port = s.port ∧ t.decoder = s.decoder ∧ t.k = s.k ∧ t.n = s.n ∧ t.tag = s.tag ∧ t.mode = s.mode ∧ t.lat = s.lat ∧
    t.now = s.now ∧ t.rspStream = s.rspStream ∧ (t.phase = .drain ∨ t.phase = .halt) ∧
    (t.phase = .drain → t.fault = s.fault ∧ t.cause = s.cause ∧ t.info = s.info) ∧
    (s.accLen = 0 ∨ s.accLen + p.length ≤ Config.env.par.aggCap →
      t.frag = s.frag ∧ t.blkIdx = s.blkIdx ∧ t.frgIdx = s.frgIdx ∧ t.blkMax = s.blkMax ∧ t.seq = s.seq ∧
      t.deadline = s.deadline ∧ t.events = s.events ∧ t.draws = s.draws) ∧
    (∀ a, (let base := if s.accLen + p.length ≤ Config.env.par.aggCap then s.accLen else 0
        a < base ∨ base + p.length ≤ a) → Memory.read t.acc a = Memory.read s.acc a) ∧
    (∀ a, (a < s.frgIdx * Config.env.par.fragCap ∨ (s.frgIdx + 1) * Config.env.par.fragCap ≤ a) →
      (s.frgIdx + 1 < s.k.toNat ∨ a < s.k.toNat * Config.env.par.fragCap ∨ s.n.toNat * Config.env.par.fragCap ≤ a) →
      Memory.read t.frag a = Memory.read s.frag a)

/-- `SRC_EMPTY`, `INTR` and `TIME`: what a timeout's flush may change as an `ACCEPT`, `ACC_LEN`, the deadline, the phase,
and `NOW` for `TIME`; the bytes of `ACC` are not stored to. Where nothing waits the engine is left alone. -/
def Obligations.TimerCommandsFrame : Prop :=
  ∀ (s t : State) (i : Instr), (i = .srcEmpty ∨ i = .intr ∨ ∃ v, i = .time v) → exec i s = .next t →
    t.port = s.port ∧ t.decoder = s.decoder ∧ t.k = s.k ∧ t.n = s.n ∧ t.tag = s.tag ∧ t.mode = s.mode ∧ t.lat = s.lat ∧
    t.acc = s.acc ∧ t.rspStream = s.rspStream ∧ ((∀ v, i ≠ .time v) → t.now = s.now) ∧
    (t.phase = s.phase ∨ (i = .srcEmpty ∧ t.phase = .idle) ∨ t.phase = .halt) ∧
    (t.phase ≠ .halt → t.fault = s.fault ∧ t.cause = s.cause ∧ t.info = s.info) ∧
    (s.accLen = 0 →
      t.frag = s.frag ∧ t.blkIdx = s.blkIdx ∧ t.frgIdx = s.frgIdx ∧ t.blkMax = s.blkMax ∧ t.seq = s.seq ∧
      t.accLen = 0 ∧ t.events = s.events ∧ t.draws = s.draws) ∧
    (∀ a, (a < s.frgIdx * Config.env.par.fragCap ∨ (s.frgIdx + 1) * Config.env.par.fragCap ≤ a) →
      (s.frgIdx + 1 < s.k.toNat ∨ a < s.k.toNat * Config.env.par.fragCap ∨ s.n.toNat * Config.env.par.fragCap ≤ a) →
      Memory.read t.frag a = Memory.read s.frag a)

/-! ## The whole machine -/

/-- R41: the machine right after reset. -/
def Obligations.ResetLeavesTheResetValues : Prop :=
  let s := State.reset
  s.phase = .uncfg ∧ s.k = 0 ∧ s.n = 0 ∧ s.tag = 0 ∧ s.mode = .passThrough ∧ s.lat = 0 ∧
  s.blkIdx = 0 ∧ s.frgIdx = 0 ∧ s.blkMax = 0 ∧ s.seq = 0 ∧ s.accLen = 0 ∧ s.now = 0 ∧ s.deadline = 0 ∧
  s.fault = false ∧ s.cause = .none ∧ s.info = 0 ∧ s.decoder = [] ∧ s.txStream = [] ∧ s.rspStream = [] ∧
  s.irqFault = false ∧ s.status = 0

/-- R260: the reset input restores them in any state, a halted one included, and discards a partial command. The rule leaves
`FRAG` and `ACC` unspecified: that all their bytes are unwritten then, and that the words on the port and the count of draws
are kept, is the model's choice (log entries 5 and 8). -/
def Obligations.ResetInputRestoresTheResetValues : Prop :=
  ∀ s : State, s.assertReset = { State.reset with port := s.port, draws := s.draws }

/-- The reset state meets the invariant, in every environment. -/
def Obligations.ResetMeetsTheInvariant : Prop := ∀ e : Env, State.reset.Inv e

/-- R37: every step keeps the invariant. -/
def Obligations.StepKeepsTheInvariant : Prop :=
  ∀ s t : State, s.Inv Config.env → step s = .next t → t.Inv Config.env

/-- R39, R69: from a state that meets the invariant a step always answers a next state: no access is out of bounds and no
unwritten byte is read. -/
def Obligations.StepNeverStops : Prop :=
  ∀ s : State, s.Inv Config.env → ∃ t, step s = .next t

/-- R270, R266, R242: with no word offered a step changes nothing, whether the run has ended, ended in a fault, or is stuck
in a partial command. -/
def Obligations.BlockWaitsForTheHost : Prop :=
  ∀ s : State, s.Inv Config.env → s.RunEnded ∨ s.RunFaulted ∨ s.RunStuck → step s = .next s

/-- R40: the history of TX records and responses is only appended to. -/
def Obligations.HistoryOnlyGrows : Prop :=
  ∀ s t : State, step s = .next t → ∃ l, t.events = s.events ++ l

/-- R213: an `RDCSR` appends exactly one response word and no frame; no other command appends a response word. -/
def Obligations.OnlyRdcsrResponds : Prop :=
  ∀ (i : Instr) (s t : State), exec i s = .next t →
    ((∀ c, i ≠ .rdcsr c) → t.rspStream = s.rspStream) ∧
    (∀ c, i = .rdcsr c → t.txStream = s.txStream ∧ t.rspStream = s.rspStream ++ [readCsr c s])

/-- R30: only `TIME` writes `NOW`, and `NOW` never decreases. -/
def Obligations.OnlyTimeMovesTheClock : Prop :=
  ∀ (i : Instr) (s t : State), exec i s = .next t →
    ((∀ v, i ≠ .time v) → t.now = s.now) ∧ s.now ≤ t.now
end

