-- ==== Sys2Proof/Laws/Frame.lean ====
section
/-!
SUPPORT. Lengths and fields of headers, fragments and frames.
-/

namespace Sys2Proof.Machine

@[simp] theorem length_bytesLe (n v : Nat) : (bytesLe n v).length = n := by
  induction n generalizing v with
  | zero => rfl
  | succ n ih => simp [bytesLe, ih]

@[simp] theorem length_encField (o : HdrOrder) (w v : Nat) : (encField o w v).length = w / 8 := by
  cases o <;> simp [encField]

@[simp] theorem length_pktHdr (p : Params) (s l : Nat) : (pktHdr p s l).length = p.hPkt := by simp [pktHdr]

@[simp] theorem length_fragHdr (p : Params) (b i : Nat) : (fragHdr p b i).length = p.hFrg := by simp [fragHdr]

@[simp] theorem length_linkPatch (p : Params) (t : Byte) : (linkPatch p t).length = p.linkRom.length := by
  simp [linkPatch]

theorem length_buildFrame (p : Params) (b i : Nat) (t : Byte) (pl : List Byte) (plen : Nat) :
    (buildFrame p b i t pl plen).length = p.phyRom.length + p.linkRom.length + p.hFrg + min plen pl.length := by
  simp only [buildFrame, List.length_append, length_linkPatch, length_fragHdr, List.length_take]

/-- No frame exceeds the link's maximum (41_frame_builder.md R155). -/
theorem length_buildFrame_le (e : Env) (b i : Nat) (t : Byte) (pl : List Byte) {plen : Nat}
    (h : plen ≤ e.par.fragCap) : (buildFrame e.par b i t pl plen).length ≤ e.par.maxFrame := by
  have := e.valid.2.2.2.2.2.2.1
  rw [length_buildFrame]
  omega

theorem length_dataFragment {p : Params} {payload : List Byte} (h : p.hPkt + payload.length ≤ p.fragCap) (s : Nat) :
    (dataFragment p s payload).length = p.fragCap := by
  simp only [dataFragment, List.length_append, length_pktHdr, List.length_replicate]
  omega

/-- The fragment header of a built frame (41_frame_builder.md R156). -/
@[simp] theorem headerOf_buildFrame (e : Env) (b i : Nat) (t : Byte) (pl : List Byte) (plen : Nat) :
    headerOf e (buildFrame e.par b i t pl plen) = fragHdr e.par b i := by
  rw [headerOf, buildFrame, List.append_assoc, List.drop_left' (by simp), List.take_left' (by simp)]

/-- The payload of a built frame (R156). -/
@[simp] theorem payloadOf_buildFrame (e : Env) (b i : Nat) (t : Byte) (pl : List Byte) (plen : Nat) :
    payloadOf e (buildFrame e.par b i t pl plen) = pl.take plen := by
  rw [payloadOf, buildFrame]
  exact List.drop_left' (by simp [Nat.add_assoc])

/-- The data frame of an `ACCEPT(p)` carries `p` under the current sequence number (R121, R130). -/
theorem dataFrame_carriesUnit (e : Env) (p : List Byte) (s : State) : CarriesUnit e s.seq p (dataFrame e p s) := by
  have hm : e.par.hPkt + p.length ≤ (afterData e p s).blkMax := Nat.le_max_right _ _
  rw [CarriesUnit, dataFrame, payloadOf_buildFrame, List.take_take, List.take_take,
    Nat.min_eq_left hm, Nat.min_eq_left hm, dataFragment]
  exact List.take_left' (by simp)

/-- A per-packet header has at least one byte: `W_SEQ` is at least 8 (R8). -/
theorem hPkt_pos (e : Env) : 0 < e.par.hPkt := by
  have := e.valid.2.1.2.1
  show 0 < e.par.wSeq / 8 + e.par.wLen / 8
  omega

theorem hPkt_le (e : Env) : e.par.hPkt ≤ e.par.fragCap := e.valid.1.1

@[simp] theorem length_fecEncode (e : Env) (k n len : Nat) (d : List (List Byte)) :
    (fecEncode e k n len d).length = n - k := by simp [fecEncode]

/-- Every parity shard has the block's length (00_scope.md R13). -/
theorem length_of_mem_fecEncode {e : Env} {k n len : Nat} {d : List (List Byte)} {p : List Byte}
    (h : p ∈ fecEncode e k n len d) : p.length = len := by
  simp only [fecEncode, List.mem_map] at h
  obtain ⟨j, -, rfl⟩ := h
  simp

@[simp] theorem length_parityShards (e : Env) (s : State) : (parityShards e s).length = s.n.toNat - s.k.toNat := by
  simp [parityShards]

@[simp] theorem length_parityFrames (e : Env) (s : State) : (parityFrames e s).length = s.n.toNat - s.k.toNat := by
  simp [parityFrames]

end Sys2Proof.Machine
end

