-- ==== Sys2Proof/Laws/Memory.lean ====
section
/-!
SUPPORT. What the buffer memory does: reads after writes, the canonical form, and that equal reads mean equal memories.
-/

namespace Sys2Proof.Machine

/-! ## Reading one byte -/

@[simp] theorem Memory.read_nil (a : Nat) : Memory.read [] a = none := rfl

theorem Memory.read_cons (c : Host.Cell) (m : Memory) (a : Nat) :
    Memory.read (c :: m) a = if a = c.1 then some c.2 else Memory.read m a := by
  obtain ⟨x, b⟩ := c
  by_cases h : a = x
  · simp [Memory.read, List.lookup, h]
  · have : (a == x) = false := by simpa using h
    simp [Memory.read, List.lookup, this, h]

theorem Memory.read_append (m l : Memory) (a : Nat) :
    Memory.read (m ++ l) a = (Memory.read m a).or (Memory.read l a) := by
  induction m with
  | nil => simp
  | cons c m ih => rw [List.cons_append, Memory.read_cons, Memory.read_cons, ih]; split <;> simp

theorem Memory.read_eq_none {m : Memory} {a : Nat} (h : ∀ c ∈ m, c.1 ≠ a) : Memory.read m a = none := by
  induction m with
  | nil => rfl
  | cons c m ih =>
    rw [Memory.read_cons, if_neg (fun e => h c (by simp) e.symm)]
    exact ih fun d hd => h d (by simp [hd])

theorem Memory.read_filter (q : Nat → Bool) (m : Memory) (a : Nat) :
    Memory.read (m.filter fun c => q c.1) a = if q a then Memory.read m a else none := by
  induction m with
  | nil => simp
  | cons c m ih =>
    by_cases hq : q c.1 = true
    · simp only [List.filter_cons, hq, if_true, Memory.read_cons, ih]
      by_cases ha : a = c.1
      · subst ha; simp [hq]
      · simp [ha]
    · simp only [List.filter_cons, hq, Memory.read_cons]
      by_cases ha : a = c.1
      · subst ha; simp [hq, ih]
      · simpa [ha] using ih

theorem Memory.mem_cells {a : Nat} {bs : List Byte} {c : Host.Cell} (h : c ∈ Memory.cells a bs) :
    a ≤ c.1 ∧ c.1 < a + bs.length := by
  induction bs generalizing a with
  | nil => simp [Memory.cells] at h
  | cons b bs ih =>
    simp only [Memory.cells, List.mem_cons] at h
    rcases h with rfl | h
    · simp
    · have := ih h; simp only [List.length_cons]; omega

theorem Memory.read_cells (a : Nat) (bs : List Byte) (x : Nat) :
    Memory.read (Memory.cells a bs) x = if a ≤ x then bs[x - a]? else none := by
  induction bs generalizing a with
  | nil => simp [Memory.cells]
  | cons b bs ih =>
    rw [Memory.cells, Memory.read_cons, ih]
    by_cases h : x = a
    · subst h; simp
    · by_cases h' : a ≤ x
      · have e : x - a = (x - (a + 1)) + 1 := by omega
        have : a + 1 ≤ x := by omega
        simp only [h, h', this, if_true, if_false]
        rw [e, List.getElem?_cons_succ]
      · have : ¬ a + 1 ≤ x := by omega
        simp [h, h', this]

/-- A read after a write: the byte written inside the written range, the byte before outside it. -/
theorem Memory.read_writeBytes (m : Memory) (a : Nat) (bs : List Byte) (x : Nat) :
    Memory.read (Memory.writeBytes m a bs) x =
      if a ≤ x ∧ x < a + bs.length then bs[x - a]? else Memory.read m x := by
  rw [Memory.writeBytes, Memory.read_append, Memory.read_append,
    Memory.read_filter (fun y => decide (y < a)), Memory.read_filter (fun y => decide (a + bs.length ≤ y)),
    Memory.read_cells]
  simp only [decide_eq_true_eq]
  by_cases h1 : x < a
  · have h2 : ¬ a ≤ x := by omega
    have h3 : ¬ a + bs.length ≤ x := by omega
    simp [h1, h2, h3]
  · by_cases h3 : a + bs.length ≤ x
    · have h2 : ¬ x < a + bs.length := by omega
      have h4 : a ≤ x := by omega
      have h5 : bs[x - a]? = none := List.getElem?_eq_none (by omega)
      simp [h1, h2, h3, h4, h5]
    · have h4 : a ≤ x := by omega
      have h5 : x < a + bs.length := by omega
      simp [h1, h3, h4, h5]

theorem Memory.read_writeBytes_outside {m : Memory} {a : Nat} {bs : List Byte} {x : Nat}
    (h : x < a ∨ a + bs.length ≤ x) : Memory.read (Memory.writeBytes m a bs) x = Memory.read m x := by
  rw [Memory.read_writeBytes, if_neg (by omega)]

/-! ## The canonical form -/

theorem Memory.wf_cells (a : Nat) (bs : List Byte) : Memory.wf (Memory.cells a bs) := by
  induction bs generalizing a with
  | nil => simp [Memory.cells]
  | cons b bs ih =>
    refine List.pairwise_cons.2 ⟨fun c hc => ?_, ih _⟩
    have := Memory.mem_cells hc
    show a < c.1
    omega

/-- Every write keeps the canonical form. -/
theorem Memory.wf_writeBytes {m : Memory} (h : Memory.wf m) (a : Nat) (bs : List Byte) :
    Memory.wf (Memory.writeBytes m a bs) := by
  unfold Memory.wf Memory.writeBytes
  rw [List.pairwise_append, List.pairwise_append]
  refine ⟨⟨h.filter _, Memory.wf_cells a bs, ?_⟩, h.filter _, ?_⟩
  · intro c hc d hd
    have := Memory.mem_cells hd
    have := (List.mem_filter.1 hc).2
    simp only [decide_eq_true_eq] at this
    omega
  · intro c hc d hd
    have hd := (List.mem_filter.1 hd).2
    simp only [decide_eq_true_eq] at hd
    rcases List.mem_append.1 hc with hc | hc
    · have := (List.mem_filter.1 hc).2
      simp only [decide_eq_true_eq] at this
      omega
    · have := Memory.mem_cells hc
      omega

/-- A write inside a bound keeps every cell inside it. -/
theorem Memory.bound_writeBytes {m : Memory} {lim a : Nat} {bs : List Byte} (h : ∀ c ∈ m, c.1 < lim)
    (hb : a + bs.length ≤ lim) : ∀ c ∈ Memory.writeBytes m a bs, c.1 < lim := by
  intro c hc
  simp only [Memory.writeBytes, List.mem_append] at hc
  rcases hc with (hc | hc) | hc
  · exact h c (List.mem_filter.1 hc).1
  · have := Memory.mem_cells hc; omega
  · exact h c (List.mem_filter.1 hc).1

/-- Canonical memories with the same reads are the same data. -/
theorem Memory.ext_of_wf {m l : Memory} (hm : Memory.wf m) (hl : Memory.wf l)
    (h : ∀ a, Memory.read m a = Memory.read l a) : m = l := by
  induction m generalizing l with
  | nil =>
    cases l with
    | nil => rfl
    | cons d l => have := h d.1; simp [Memory.read_cons] at this
  | cons c m ih =>
    cases l with
    | nil => have := h c.1; simp [Memory.read_cons] at this
    | cons d l =>
      obtain ⟨hc, hm⟩ := List.pairwise_cons.1 hm
      obtain ⟨hd, hl'⟩ := List.pairwise_cons.1 hl
      have hcm : Memory.read m c.1 = none := Memory.read_eq_none fun x hx e => by
        have := hc x hx; omega
      have hdl : Memory.read l d.1 = none := Memory.read_eq_none fun x hx e => by
        have := hd x hx; omega
      have key : c.1 = d.1 := by
        rcases Nat.lt_trichotomy c.1 d.1 with hlt | heq | hlt
        · have hn : Memory.read l c.1 = none := Memory.read_eq_none fun x hx e => by
            have := hd x hx; omega
          have := h c.1
          rw [Memory.read_cons, if_pos rfl, Memory.read_cons, if_neg (by omega), hn] at this
          cases this
        · exact heq
        · have hn : Memory.read m d.1 = none := Memory.read_eq_none fun x hx e => by
            have := hc x hx; omega
          have := h d.1
          rw [Memory.read_cons, if_neg (by omega), hn, Memory.read_cons, if_pos rfl] at this
          cases this
      have val : c.2 = d.2 := by
        have := h c.1
        rw [Memory.read_cons, if_pos rfl, Memory.read_cons, if_pos key] at this
        exact Option.some.inj this
      have : c = d := Prod.ext key val
      subst this
      congr 1
      refine ih hm hl' fun a => ?_
      have ha := h a
      rw [Memory.read_cons, Memory.read_cons] at ha
      by_cases hac : a = c.1
      · rw [hac, hcm, hdl]
      · simpa [hac] using ha

/-! ## Reading several bytes -/

/-- What a read of `n` bytes answers: the bytes at those addresses, all of them written. -/
theorem Memory.readBytes_eq_some {m : Memory} {a n : Nat} {bs : List Byte} :
    Memory.readBytes m a n = some bs ↔ bs.length = n ∧ ∀ i < n, Memory.read m (a + i) = bs[i]? := by
  induction n generalizing a bs with
  | zero => simp [Memory.readBytes, eq_comm (a := ([] : List Byte))]
  | succ n ih =>
    rw [Memory.readBytes]
    constructor
    · intro h
      split at h
      · rename_i b cs hb hcs
        cases h
        obtain ⟨hlen, hall⟩ := ih.1 hcs
        refine ⟨by simp [hlen], fun i hi => ?_⟩
        cases i with
        | zero => simpa using hb
        | succ i =>
          have := hall i (by omega)
          rw [List.getElem?_cons_succ, ← this]
          congr 1; omega
      · cases h
    · rintro ⟨hlen, hall⟩
      cases bs with
      | nil => simp at hlen
      | cons b cs =>
        have h0 := hall 0 (by omega)
        have hcs : Memory.readBytes m (a + 1) n = some cs := ih.2 ⟨by simpa using hlen, fun i hi => by
          have := hall (i + 1) (by omega)
          rw [List.getElem?_cons_succ] at this
          rw [← this]; congr 1; omega⟩
        simp only [Nat.add_zero, List.getElem?_cons_zero] at h0
        rw [h0, hcs]

theorem Memory.readBytes_length {m : Memory} {a n : Nat} {bs : List Byte}
    (h : Memory.readBytes m a n = some bs) : bs.length = n := (Memory.readBytes_eq_some.1 h).1

/-- Two memories with the same bytes in a range read the same there. -/
theorem Memory.readBytes_congr {m l : Memory} {a n : Nat}
    (h : ∀ x, a ≤ x → x < a + n → Memory.read m x = Memory.read l x) :
    Memory.readBytes m a n = Memory.readBytes l a n := by
  induction n generalizing a with
  | zero => rfl
  | succ n ih =>
    simp only [Memory.readBytes, h a (by omega) (by omega)]
    rw [ih fun x hx hx' => h x (by omega) (by omega)]

/-- A shorter read of the same place answers the first bytes. -/
theorem Memory.readBytes_take {m : Memory} {a n k : Nat} {bs : List Byte}
    (h : Memory.readBytes m a n = some bs) (hk : k ≤ n) : Memory.readBytes m a k = some (bs.take k) := by
  obtain ⟨hlen, hall⟩ := Memory.readBytes_eq_some.1 h
  refine Memory.readBytes_eq_some.2 ⟨by simp [hlen, hk], fun i hi => ?_⟩
  rw [hall i (by omega), List.getElem?_take, if_pos hi]

/-- A read of the place just written answers what was written. -/
theorem Memory.readBytes_writeBytes_same (m : Memory) (a : Nat) (bs : List Byte) :
    Memory.readBytes (Memory.writeBytes m a bs) a bs.length = some bs := by
  refine Memory.readBytes_eq_some.2 ⟨rfl, fun i hi => ?_⟩
  rw [Memory.read_writeBytes, if_pos (by omega)]
  congr 1; omega

/-- A read of a place apart from the one written answers what it did before. -/
theorem Memory.readBytes_writeBytes_apart {m : Memory} {a b n : Nat} {bs : List Byte}
    (h : b + n ≤ a ∨ a + bs.length ≤ b) :
    Memory.readBytes (Memory.writeBytes m a bs) b n = Memory.readBytes m b n :=
  Memory.readBytes_congr fun x hx hx' => Memory.read_writeBytes_outside (by omega)

/-- Writing nothing changes nothing. -/
theorem Memory.writeBytes_nil {m : Memory} (h : Memory.wf m) (a : Nat) : Memory.writeBytes m a [] = m :=
  Memory.ext_of_wf (Memory.wf_writeBytes h a []) h fun x => by
    rw [Memory.read_writeBytes_outside]; simp; omega

/-- A write next to a write is one write. -/
theorem Memory.writeBytes_append {m : Memory} (h : Memory.wf m) (a : Nat) (bs cs : List Byte) :
    Memory.writeBytes (Memory.writeBytes m a bs) (a + bs.length) cs = Memory.writeBytes m a (bs ++ cs) := by
  refine Memory.ext_of_wf (Memory.wf_writeBytes (Memory.wf_writeBytes h _ _) _ _) (Memory.wf_writeBytes h _ _)
    fun x => ?_
  simp only [Memory.read_writeBytes, List.length_append]
  by_cases h1 : a + bs.length ≤ x ∧ x < a + bs.length + cs.length
  · rw [if_pos h1, if_pos (by omega), List.getElem?_append_right (by omega)]
    congr 1; omega
  · rw [if_neg h1]
    by_cases h2 : a ≤ x ∧ x < a + bs.length
    · rw [if_pos h2, if_pos (by omega), List.getElem?_append_left (by omega)]
    · rw [if_neg h2, if_neg (by omega)]

/-- A write over the first bytes of a write is one write of both. -/
theorem Memory.writeBytes_over {m : Memory} (h : Memory.wf m) (a : Nat) (bs cs : List Byte)
    (hlen : bs.length ≤ cs.length) :
    Memory.writeBytes (Memory.writeBytes m a cs) a bs = Memory.writeBytes m a (bs ++ cs.drop bs.length) := by
  refine Memory.ext_of_wf (Memory.wf_writeBytes (Memory.wf_writeBytes h _ _) _ _) (Memory.wf_writeBytes h _ _)
    fun x => ?_
  simp only [Memory.read_writeBytes, List.length_append, List.length_drop]
  by_cases h1 : a ≤ x ∧ x < a + bs.length
  · rw [if_pos h1, if_pos (by omega), List.getElem?_append_left (by omega)]
  · rw [if_neg h1]
    by_cases h2 : a ≤ x ∧ x < a + cs.length
    · rw [if_pos h2, if_pos (by omega), List.getElem?_append_right (by omega), List.getElem?_drop]
      congr 1; omega
    · rw [if_neg h2, if_neg (by omega)]

end Sys2Proof.Machine
end

