-- ==== Sys2Proof/Laws/State.lean ====
section
/-!
SUPPORT. One lemma per field per named update of the state, and the two views of the event history.
-/

namespace Sys2Proof.Machine

/-! ### `State.raiseFault` -/

@[simp] theorem State.raiseFault_port (c : Cause) (v : Word) (s : State) : (s.raiseFault c v).port = s.port := by unfold State.raiseFault; split <;> rfl

@[simp] theorem State.raiseFault_decoder (c : Cause) (v : Word) (s : State) : (s.raiseFault c v).decoder = s.decoder := by unfold State.raiseFault; split <;> rfl

@[simp] theorem State.raiseFault_phase (c : Cause) (v : Word) (s : State) :
    (s.raiseFault c v).phase = .halt := by unfold State.raiseFault; split <;> rfl

@[simp] theorem State.raiseFault_k (c : Cause) (v : Word) (s : State) : (s.raiseFault c v).k = s.k := by unfold State.raiseFault; split <;> rfl

@[simp] theorem State.raiseFault_n (c : Cause) (v : Word) (s : State) : (s.raiseFault c v).n = s.n := by unfold State.raiseFault; split <;> rfl

@[simp] theorem State.raiseFault_tag (c : Cause) (v : Word) (s : State) : (s.raiseFault c v).tag = s.tag := by unfold State.raiseFault; split <;> rfl

@[simp] theorem State.raiseFault_mode (c : Cause) (v : Word) (s : State) : (s.raiseFault c v).mode = s.mode := by unfold State.raiseFault; split <;> rfl

@[simp] theorem State.raiseFault_lat (c : Cause) (v : Word) (s : State) : (s.raiseFault c v).lat = s.lat := by unfold State.raiseFault; split <;> rfl

@[simp] theorem State.raiseFault_blkIdx (c : Cause) (v : Word) (s : State) : (s.raiseFault c v).blkIdx = s.blkIdx := by unfold State.raiseFault; split <;> rfl

@[simp] theorem State.raiseFault_frgIdx (c : Cause) (v : Word) (s : State) : (s.raiseFault c v).frgIdx = s.frgIdx := by unfold State.raiseFault; split <;> rfl

@[simp] theorem State.raiseFault_blkMax (c : Cause) (v : Word) (s : State) : (s.raiseFault c v).blkMax = s.blkMax := by unfold State.raiseFault; split <;> rfl

@[simp] theorem State.raiseFault_seq (c : Cause) (v : Word) (s : State) : (s.raiseFault c v).seq = s.seq := by unfold State.raiseFault; split <;> rfl

@[simp] theorem State.raiseFault_frag (c : Cause) (v : Word) (s : State) : (s.raiseFault c v).frag = s.frag := by unfold State.raiseFault; split <;> rfl

@[simp] theorem State.raiseFault_acc (c : Cause) (v : Word) (s : State) : (s.raiseFault c v).acc = s.acc := by unfold State.raiseFault; split <;> rfl

@[simp] theorem State.raiseFault_accLen (c : Cause) (v : Word) (s : State) : (s.raiseFault c v).accLen = s.accLen := by unfold State.raiseFault; split <;> rfl

@[simp] theorem State.raiseFault_now (c : Cause) (v : Word) (s : State) : (s.raiseFault c v).now = s.now := by unfold State.raiseFault; split <;> rfl

@[simp] theorem State.raiseFault_deadline (c : Cause) (v : Word) (s : State) : (s.raiseFault c v).deadline = s.deadline := by unfold State.raiseFault; split <;> rfl

@[simp] theorem State.raiseFault_fault (c : Cause) (v : Word) (s : State) :
    (s.raiseFault c v).fault = true := by unfold State.raiseFault; split <;> simp_all

@[simp] theorem State.raiseFault_cause (c : Cause) (v : Word) (s : State) :
    (s.raiseFault c v).cause = if s.fault then s.cause else c := by unfold State.raiseFault; split <;> rfl

@[simp] theorem State.raiseFault_info (c : Cause) (v : Word) (s : State) :
    (s.raiseFault c v).info = if s.fault then s.info else v := by unfold State.raiseFault; split <;> rfl

@[simp] theorem State.raiseFault_events (c : Cause) (v : Word) (s : State) : (s.raiseFault c v).events = s.events := by unfold State.raiseFault; split <;> rfl

@[simp] theorem State.raiseFault_draws (c : Cause) (v : Word) (s : State) : (s.raiseFault c v).draws = s.draws := by unfold State.raiseFault; split <;> rfl

/-! ### `State.record` -/

@[simp] theorem State.record_port (e : Event) (s : State) : (s.record e).port = s.port := rfl

@[simp] theorem State.record_decoder (e : Event) (s : State) : (s.record e).decoder = s.decoder := rfl

@[simp] theorem State.record_phase (e : Event) (s : State) : (s.record e).phase = s.phase := rfl

@[simp] theorem State.record_k (e : Event) (s : State) : (s.record e).k = s.k := rfl

@[simp] theorem State.record_n (e : Event) (s : State) : (s.record e).n = s.n := rfl

@[simp] theorem State.record_tag (e : Event) (s : State) : (s.record e).tag = s.tag := rfl

@[simp] theorem State.record_mode (e : Event) (s : State) : (s.record e).mode = s.mode := rfl

@[simp] theorem State.record_lat (e : Event) (s : State) : (s.record e).lat = s.lat := rfl

@[simp] theorem State.record_blkIdx (e : Event) (s : State) : (s.record e).blkIdx = s.blkIdx := rfl

@[simp] theorem State.record_frgIdx (e : Event) (s : State) : (s.record e).frgIdx = s.frgIdx := rfl

@[simp] theorem State.record_blkMax (e : Event) (s : State) : (s.record e).blkMax = s.blkMax := rfl

@[simp] theorem State.record_seq (e : Event) (s : State) : (s.record e).seq = s.seq := rfl

@[simp] theorem State.record_frag (e : Event) (s : State) : (s.record e).frag = s.frag := rfl

@[simp] theorem State.record_acc (e : Event) (s : State) : (s.record e).acc = s.acc := rfl

@[simp] theorem State.record_accLen (e : Event) (s : State) : (s.record e).accLen = s.accLen := rfl

@[simp] theorem State.record_now (e : Event) (s : State) : (s.record e).now = s.now := rfl

@[simp] theorem State.record_deadline (e : Event) (s : State) : (s.record e).deadline = s.deadline := rfl

@[simp] theorem State.record_fault (e : Event) (s : State) : (s.record e).fault = s.fault := rfl

@[simp] theorem State.record_cause (e : Event) (s : State) : (s.record e).cause = s.cause := rfl

@[simp] theorem State.record_info (e : Event) (s : State) : (s.record e).info = s.info := rfl

@[simp] theorem State.record_events (e : Event) (s : State) :
    (s.record e).events = s.events ++ [e] := rfl

@[simp] theorem State.record_draws (e : Event) (s : State) : (s.record e).draws = s.draws := rfl

/-! ### `State.respond` -/

@[simp] theorem State.respond_port (v : Word) (s : State) : (s.respond v).port = s.port := rfl

@[simp] theorem State.respond_decoder (v : Word) (s : State) : (s.respond v).decoder = s.decoder := rfl

@[simp] theorem State.respond_phase (v : Word) (s : State) : (s.respond v).phase = s.phase := rfl

@[simp] theorem State.respond_k (v : Word) (s : State) : (s.respond v).k = s.k := rfl

@[simp] theorem State.respond_n (v : Word) (s : State) : (s.respond v).n = s.n := rfl

@[simp] theorem State.respond_tag (v : Word) (s : State) : (s.respond v).tag = s.tag := rfl

@[simp] theorem State.respond_mode (v : Word) (s : State) : (s.respond v).mode = s.mode := rfl

@[simp] theorem State.respond_lat (v : Word) (s : State) : (s.respond v).lat = s.lat := rfl

@[simp] theorem State.respond_blkIdx (v : Word) (s : State) : (s.respond v).blkIdx = s.blkIdx := rfl

@[simp] theorem State.respond_frgIdx (v : Word) (s : State) : (s.respond v).frgIdx = s.frgIdx := rfl

@[simp] theorem State.respond_blkMax (v : Word) (s : State) : (s.respond v).blkMax = s.blkMax := rfl

@[simp] theorem State.respond_seq (v : Word) (s : State) : (s.respond v).seq = s.seq := rfl

@[simp] theorem State.respond_frag (v : Word) (s : State) : (s.respond v).frag = s.frag := rfl

@[simp] theorem State.respond_acc (v : Word) (s : State) : (s.respond v).acc = s.acc := rfl

@[simp] theorem State.respond_accLen (v : Word) (s : State) : (s.respond v).accLen = s.accLen := rfl

@[simp] theorem State.respond_now (v : Word) (s : State) : (s.respond v).now = s.now := rfl

@[simp] theorem State.respond_deadline (v : Word) (s : State) : (s.respond v).deadline = s.deadline := rfl

@[simp] theorem State.respond_fault (v : Word) (s : State) : (s.respond v).fault = s.fault := rfl

@[simp] theorem State.respond_cause (v : Word) (s : State) : (s.respond v).cause = s.cause := rfl

@[simp] theorem State.respond_info (v : Word) (s : State) : (s.respond v).info = s.info := rfl

@[simp] theorem State.respond_events (v : Word) (s : State) :
    (s.respond v).events = s.events ++ [.rsp v] := rfl

@[simp] theorem State.respond_draws (v : Word) (s : State) : (s.respond v).draws = s.draws := rfl

/-! ### `State.transmit` -/

@[simp] theorem State.transmit_port (f : List Byte) (v : Verdict) (s : State) : (s.transmit f v).port = s.port := rfl

@[simp] theorem State.transmit_decoder (f : List Byte) (v : Verdict) (s : State) : (s.transmit f v).decoder = s.decoder := rfl

@[simp] theorem State.transmit_phase (f : List Byte) (v : Verdict) (s : State) : (s.transmit f v).phase = s.phase := rfl

@[simp] theorem State.transmit_k (f : List Byte) (v : Verdict) (s : State) : (s.transmit f v).k = s.k := rfl

@[simp] theorem State.transmit_n (f : List Byte) (v : Verdict) (s : State) : (s.transmit f v).n = s.n := rfl

@[simp] theorem State.transmit_tag (f : List Byte) (v : Verdict) (s : State) : (s.transmit f v).tag = s.tag := rfl

@[simp] theorem State.transmit_mode (f : List Byte) (v : Verdict) (s : State) : (s.transmit f v).mode = s.mode := rfl

@[simp] theorem State.transmit_lat (f : List Byte) (v : Verdict) (s : State) : (s.transmit f v).lat = s.lat := rfl

@[simp] theorem State.transmit_blkIdx (f : List Byte) (v : Verdict) (s : State) : (s.transmit f v).blkIdx = s.blkIdx := rfl

@[simp] theorem State.transmit_frgIdx (f : List Byte) (v : Verdict) (s : State) : (s.transmit f v).frgIdx = s.frgIdx := rfl

@[simp] theorem State.transmit_blkMax (f : List Byte) (v : Verdict) (s : State) : (s.transmit f v).blkMax = s.blkMax := rfl

@[simp] theorem State.transmit_seq (f : List Byte) (v : Verdict) (s : State) : (s.transmit f v).seq = s.seq := rfl

@[simp] theorem State.transmit_frag (f : List Byte) (v : Verdict) (s : State) : (s.transmit f v).frag = s.frag := rfl

@[simp] theorem State.transmit_acc (f : List Byte) (v : Verdict) (s : State) : (s.transmit f v).acc = s.acc := rfl

@[simp] theorem State.transmit_accLen (f : List Byte) (v : Verdict) (s : State) : (s.transmit f v).accLen = s.accLen := rfl

@[simp] theorem State.transmit_now (f : List Byte) (v : Verdict) (s : State) : (s.transmit f v).now = s.now := rfl

@[simp] theorem State.transmit_deadline (f : List Byte) (v : Verdict) (s : State) : (s.transmit f v).deadline = s.deadline := rfl

@[simp] theorem State.transmit_fault (f : List Byte) (v : Verdict) (s : State) : (s.transmit f v).fault = s.fault := rfl

@[simp] theorem State.transmit_cause (f : List Byte) (v : Verdict) (s : State) : (s.transmit f v).cause = s.cause := rfl

@[simp] theorem State.transmit_info (f : List Byte) (v : Verdict) (s : State) : (s.transmit f v).info = s.info := rfl

@[simp] theorem State.transmit_events (f : List Byte) (v : Verdict) (s : State) :
    (s.transmit f v).events = s.events ++ [.tx f v] := rfl

@[simp] theorem State.transmit_draws (f : List Byte) (v : Verdict) (s : State) :
    (s.transmit f v).draws = s.draws + 1 := rfl

/-! ### `State.restartDeadline` -/

@[simp] theorem State.restartDeadline_port (s : State) : (s.restartDeadline).port = s.port := rfl

@[simp] theorem State.restartDeadline_decoder (s : State) : (s.restartDeadline).decoder = s.decoder := rfl

@[simp] theorem State.restartDeadline_phase (s : State) : (s.restartDeadline).phase = s.phase := rfl

@[simp] theorem State.restartDeadline_k (s : State) : (s.restartDeadline).k = s.k := rfl

@[simp] theorem State.restartDeadline_n (s : State) : (s.restartDeadline).n = s.n := rfl

@[simp] theorem State.restartDeadline_tag (s : State) : (s.restartDeadline).tag = s.tag := rfl

@[simp] theorem State.restartDeadline_mode (s : State) : (s.restartDeadline).mode = s.mode := rfl

@[simp] theorem State.restartDeadline_lat (s : State) : (s.restartDeadline).lat = s.lat := rfl

@[simp] theorem State.restartDeadline_blkIdx (s : State) : (s.restartDeadline).blkIdx = s.blkIdx := rfl

@[simp] theorem State.restartDeadline_frgIdx (s : State) : (s.restartDeadline).frgIdx = s.frgIdx := rfl

@[simp] theorem State.restartDeadline_blkMax (s : State) : (s.restartDeadline).blkMax = s.blkMax := rfl

@[simp] theorem State.restartDeadline_seq (s : State) : (s.restartDeadline).seq = s.seq := rfl

@[simp] theorem State.restartDeadline_frag (s : State) : (s.restartDeadline).frag = s.frag := rfl

@[simp] theorem State.restartDeadline_acc (s : State) : (s.restartDeadline).acc = s.acc := rfl

@[simp] theorem State.restartDeadline_accLen (s : State) : (s.restartDeadline).accLen = s.accLen := rfl

@[simp] theorem State.restartDeadline_now (s : State) : (s.restartDeadline).now = s.now := rfl

@[simp] theorem State.restartDeadline_deadline (s : State) :
    (s.restartDeadline).deadline = sat64 (s.now.toNat + s.lat.toNat) := rfl

@[simp] theorem State.restartDeadline_fault (s : State) : (s.restartDeadline).fault = s.fault := rfl

@[simp] theorem State.restartDeadline_cause (s : State) : (s.restartDeadline).cause = s.cause := rfl

@[simp] theorem State.restartDeadline_info (s : State) : (s.restartDeadline).info = s.info := rfl

@[simp] theorem State.restartDeadline_events (s : State) : (s.restartDeadline).events = s.events := rfl

@[simp] theorem State.restartDeadline_draws (s : State) : (s.restartDeadline).draws = s.draws := rfl

/-! ### `State.nextFragment` -/

@[simp] theorem State.nextFragment_port (s : State) : (s.nextFragment).port = s.port := rfl

@[simp] theorem State.nextFragment_decoder (s : State) : (s.nextFragment).decoder = s.decoder := rfl

@[simp] theorem State.nextFragment_phase (s : State) : (s.nextFragment).phase = s.phase := rfl

@[simp] theorem State.nextFragment_k (s : State) : (s.nextFragment).k = s.k := rfl

@[simp] theorem State.nextFragment_n (s : State) : (s.nextFragment).n = s.n := rfl

@[simp] theorem State.nextFragment_tag (s : State) : (s.nextFragment).tag = s.tag := rfl

@[simp] theorem State.nextFragment_mode (s : State) : (s.nextFragment).mode = s.mode := rfl

@[simp] theorem State.nextFragment_lat (s : State) : (s.nextFragment).lat = s.lat := rfl

@[simp] theorem State.nextFragment_blkIdx (s : State) : (s.nextFragment).blkIdx = s.blkIdx := rfl

@[simp] theorem State.nextFragment_frgIdx (s : State) :
    (s.nextFragment).frgIdx = s.frgIdx + 1 := rfl

@[simp] theorem State.nextFragment_blkMax (s : State) : (s.nextFragment).blkMax = s.blkMax := rfl

@[simp] theorem State.nextFragment_seq (s : State) : (s.nextFragment).seq = s.seq := rfl

@[simp] theorem State.nextFragment_frag (s : State) : (s.nextFragment).frag = s.frag := rfl

@[simp] theorem State.nextFragment_acc (s : State) : (s.nextFragment).acc = s.acc := rfl

@[simp] theorem State.nextFragment_accLen (s : State) : (s.nextFragment).accLen = s.accLen := rfl

@[simp] theorem State.nextFragment_now (s : State) : (s.nextFragment).now = s.now := rfl

@[simp] theorem State.nextFragment_deadline (s : State) : (s.nextFragment).deadline = s.deadline := rfl

@[simp] theorem State.nextFragment_fault (s : State) : (s.nextFragment).fault = s.fault := rfl

@[simp] theorem State.nextFragment_cause (s : State) : (s.nextFragment).cause = s.cause := rfl

@[simp] theorem State.nextFragment_info (s : State) : (s.nextFragment).info = s.info := rfl

@[simp] theorem State.nextFragment_events (s : State) : (s.nextFragment).events = s.events := rfl

@[simp] theorem State.nextFragment_draws (s : State) : (s.nextFragment).draws = s.draws := rfl

/-! ### `closeBlock` -/

@[simp] theorem closeBlock_port (e : Env) (s : State) : (closeBlock e s).port = s.port := rfl

@[simp] theorem closeBlock_decoder (e : Env) (s : State) : (closeBlock e s).decoder = s.decoder := rfl

@[simp] theorem closeBlock_phase (e : Env) (s : State) : (closeBlock e s).phase = s.phase := rfl

@[simp] theorem closeBlock_k (e : Env) (s : State) : (closeBlock e s).k = s.k := rfl

@[simp] theorem closeBlock_n (e : Env) (s : State) : (closeBlock e s).n = s.n := rfl

@[simp] theorem closeBlock_tag (e : Env) (s : State) : (closeBlock e s).tag = s.tag := rfl

@[simp] theorem closeBlock_mode (e : Env) (s : State) : (closeBlock e s).mode = s.mode := rfl

@[simp] theorem closeBlock_lat (e : Env) (s : State) : (closeBlock e s).lat = s.lat := rfl

@[simp] theorem closeBlock_blkIdx (e : Env) (s : State) :
    (closeBlock e s).blkIdx = (s.blkIdx + 1) % 2 ^ e.par.wBlk := rfl

@[simp] theorem closeBlock_frgIdx (e : Env) (s : State) :
    (closeBlock e s).frgIdx = 0 := rfl

@[simp] theorem closeBlock_blkMax (e : Env) (s : State) :
    (closeBlock e s).blkMax = 0 := rfl

@[simp] theorem closeBlock_seq (e : Env) (s : State) : (closeBlock e s).seq = s.seq := rfl

@[simp] theorem closeBlock_frag (e : Env) (s : State) : (closeBlock e s).frag = s.frag := rfl

@[simp] theorem closeBlock_acc (e : Env) (s : State) : (closeBlock e s).acc = s.acc := rfl

@[simp] theorem closeBlock_accLen (e : Env) (s : State) : (closeBlock e s).accLen = s.accLen := rfl

@[simp] theorem closeBlock_now (e : Env) (s : State) : (closeBlock e s).now = s.now := rfl

@[simp] theorem closeBlock_deadline (e : Env) (s : State) : (closeBlock e s).deadline = s.deadline := rfl

@[simp] theorem closeBlock_fault (e : Env) (s : State) : (closeBlock e s).fault = s.fault := rfl

@[simp] theorem closeBlock_cause (e : Env) (s : State) : (closeBlock e s).cause = s.cause := rfl

@[simp] theorem closeBlock_info (e : Env) (s : State) : (closeBlock e s).info = s.info := rfl

@[simp] theorem closeBlock_events (e : Env) (s : State) : (closeBlock e s).events = s.events := rfl

@[simp] theorem closeBlock_draws (e : Env) (s : State) : (closeBlock e s).draws = s.draws := rfl

/-! ### `constructCore` -/

@[simp] theorem constructCore_port (s : State) : (constructCore s).port = s.port := rfl

@[simp] theorem constructCore_decoder (s : State) : (constructCore s).decoder = s.decoder := rfl

@[simp] theorem constructCore_phase (s : State) :
    (constructCore s).phase = .idle := rfl

@[simp] theorem constructCore_k (s : State) : (constructCore s).k = s.k := rfl

@[simp] theorem constructCore_n (s : State) : (constructCore s).n = s.n := rfl

@[simp] theorem constructCore_tag (s : State) : (constructCore s).tag = s.tag := rfl

@[simp] theorem constructCore_mode (s : State) : (constructCore s).mode = s.mode := rfl

@[simp] theorem constructCore_lat (s : State) : (constructCore s).lat = s.lat := rfl

@[simp] theorem constructCore_blkIdx (s : State) :
    (constructCore s).blkIdx = 0 := rfl

@[simp] theorem constructCore_frgIdx (s : State) :
    (constructCore s).frgIdx = 0 := rfl

@[simp] theorem constructCore_blkMax (s : State) :
    (constructCore s).blkMax = 0 := rfl

@[simp] theorem constructCore_seq (s : State) :
    (constructCore s).seq = 0 := rfl

@[simp] theorem constructCore_frag (s : State) : (constructCore s).frag = s.frag := rfl

@[simp] theorem constructCore_acc (s : State) : (constructCore s).acc = s.acc := rfl

@[simp] theorem constructCore_accLen (s : State) :
    (constructCore s).accLen = 0 := rfl

@[simp] theorem constructCore_now (s : State) : (constructCore s).now = s.now := rfl

@[simp] theorem constructCore_deadline (s : State) :
    (constructCore s).deadline = sat64 (s.now.toNat + s.lat.toNat) := rfl

@[simp] theorem constructCore_fault (s : State) : (constructCore s).fault = s.fault := rfl

@[simp] theorem constructCore_cause (s : State) : (constructCore s).cause = s.cause := rfl

@[simp] theorem constructCore_info (s : State) : (constructCore s).info = s.info := rfl

@[simp] theorem constructCore_events (s : State) : (constructCore s).events = s.events := rfl

@[simp] theorem constructCore_draws (s : State) : (constructCore s).draws = s.draws := rfl

/-! ### `State.offer` -/

@[simp] theorem State.offer_port (ws : List Word) (s : State) :
    (s.offer ws).port = s.port ++ ws := rfl

@[simp] theorem State.offer_decoder (ws : List Word) (s : State) : (s.offer ws).decoder = s.decoder := rfl

@[simp] theorem State.offer_phase (ws : List Word) (s : State) : (s.offer ws).phase = s.phase := rfl

@[simp] theorem State.offer_k (ws : List Word) (s : State) : (s.offer ws).k = s.k := rfl

@[simp] theorem State.offer_n (ws : List Word) (s : State) : (s.offer ws).n = s.n := rfl

@[simp] theorem State.offer_tag (ws : List Word) (s : State) : (s.offer ws).tag = s.tag := rfl

@[simp] theorem State.offer_mode (ws : List Word) (s : State) : (s.offer ws).mode = s.mode := rfl

@[simp] theorem State.offer_lat (ws : List Word) (s : State) : (s.offer ws).lat = s.lat := rfl

@[simp] theorem State.offer_blkIdx (ws : List Word) (s : State) : (s.offer ws).blkIdx = s.blkIdx := rfl

@[simp] theorem State.offer_frgIdx (ws : List Word) (s : State) : (s.offer ws).frgIdx = s.frgIdx := rfl

@[simp] theorem State.offer_blkMax (ws : List Word) (s : State) : (s.offer ws).blkMax = s.blkMax := rfl

@[simp] theorem State.offer_seq (ws : List Word) (s : State) : (s.offer ws).seq = s.seq := rfl

@[simp] theorem State.offer_frag (ws : List Word) (s : State) : (s.offer ws).frag = s.frag := rfl

@[simp] theorem State.offer_acc (ws : List Word) (s : State) : (s.offer ws).acc = s.acc := rfl

@[simp] theorem State.offer_accLen (ws : List Word) (s : State) : (s.offer ws).accLen = s.accLen := rfl

@[simp] theorem State.offer_now (ws : List Word) (s : State) : (s.offer ws).now = s.now := rfl

@[simp] theorem State.offer_deadline (ws : List Word) (s : State) : (s.offer ws).deadline = s.deadline := rfl

@[simp] theorem State.offer_fault (ws : List Word) (s : State) : (s.offer ws).fault = s.fault := rfl

@[simp] theorem State.offer_cause (ws : List Word) (s : State) : (s.offer ws).cause = s.cause := rfl

@[simp] theorem State.offer_info (ws : List Word) (s : State) : (s.offer ws).info = s.info := rfl

@[simp] theorem State.offer_events (ws : List Word) (s : State) : (s.offer ws).events = s.events := rfl

@[simp] theorem State.offer_draws (ws : List Word) (s : State) : (s.offer ws).draws = s.draws := rfl

/-! ### `State.placeWords` -/

@[simp] theorem State.placeWords_port (ws : List Word) (s : State) :
    (s.placeWords ws).port = ws ++ s.port := rfl

@[simp] theorem State.placeWords_decoder (ws : List Word) (s : State) :
    (s.placeWords ws).decoder = [] := rfl

@[simp] theorem State.placeWords_phase (ws : List Word) (s : State) : (s.placeWords ws).phase = s.phase := rfl

@[simp] theorem State.placeWords_k (ws : List Word) (s : State) : (s.placeWords ws).k = s.k := rfl

@[simp] theorem State.placeWords_n (ws : List Word) (s : State) : (s.placeWords ws).n = s.n := rfl

@[simp] theorem State.placeWords_tag (ws : List Word) (s : State) : (s.placeWords ws).tag = s.tag := rfl

@[simp] theorem State.placeWords_mode (ws : List Word) (s : State) : (s.placeWords ws).mode = s.mode := rfl

@[simp] theorem State.placeWords_lat (ws : List Word) (s : State) : (s.placeWords ws).lat = s.lat := rfl

@[simp] theorem State.placeWords_blkIdx (ws : List Word) (s : State) : (s.placeWords ws).blkIdx = s.blkIdx := rfl

@[simp] theorem State.placeWords_frgIdx (ws : List Word) (s : State) : (s.placeWords ws).frgIdx = s.frgIdx := rfl

@[simp] theorem State.placeWords_blkMax (ws : List Word) (s : State) : (s.placeWords ws).blkMax = s.blkMax := rfl

@[simp] theorem State.placeWords_seq (ws : List Word) (s : State) : (s.placeWords ws).seq = s.seq := rfl

@[simp] theorem State.placeWords_frag (ws : List Word) (s : State) : (s.placeWords ws).frag = s.frag := rfl

@[simp] theorem State.placeWords_acc (ws : List Word) (s : State) : (s.placeWords ws).acc = s.acc := rfl

@[simp] theorem State.placeWords_accLen (ws : List Word) (s : State) : (s.placeWords ws).accLen = s.accLen := rfl

@[simp] theorem State.placeWords_now (ws : List Word) (s : State) : (s.placeWords ws).now = s.now := rfl

@[simp] theorem State.placeWords_deadline (ws : List Word) (s : State) : (s.placeWords ws).deadline = s.deadline := rfl

@[simp] theorem State.placeWords_fault (ws : List Word) (s : State) : (s.placeWords ws).fault = s.fault := rfl

@[simp] theorem State.placeWords_cause (ws : List Word) (s : State) : (s.placeWords ws).cause = s.cause := rfl

@[simp] theorem State.placeWords_info (ws : List Word) (s : State) : (s.placeWords ws).info = s.info := rfl

@[simp] theorem State.placeWords_events (ws : List Word) (s : State) : (s.placeWords ws).events = s.events := rfl

@[simp] theorem State.placeWords_draws (ws : List Word) (s : State) : (s.placeWords ws).draws = s.draws := rfl

/-! ### The views of the history -/

@[simp] theorem Event.txRecord?_tx (f : List Byte) (v : Verdict) : Event.txRecord? (.tx f v) = some (f, v) := rfl
@[simp] theorem Event.txRecord?_rsp (w : Word) : Event.txRecord? (.rsp w) = none := rfl
@[simp] theorem Event.response?_tx (f : List Byte) (v : Verdict) : Event.response? (.tx f v) = none := rfl
@[simp] theorem Event.response?_rsp (w : Word) : Event.response? (.rsp w) = some w := rfl

@[simp] theorem State.txStream_transmit (f : List Byte) (v : Verdict) (s : State) :
    (s.transmit f v).txStream = s.txStream ++ [(f, v)] := by
  simp [State.txStream]

@[simp] theorem State.txStream_respond (v : Word) (s : State) : (s.respond v).txStream = s.txStream := by
  simp [State.txStream]

@[simp] theorem State.rspStream_transmit (f : List Byte) (v : Verdict) (s : State) :
    (s.transmit f v).rspStream = s.rspStream := by
  simp [State.rspStream]

@[simp] theorem State.rspStream_respond (v : Word) (s : State) : (s.respond v).rspStream = s.rspStream ++ [v] := by
  simp [State.rspStream]

/-- The TX stream depends on the history alone. -/
theorem State.txStream_congr {s t : State} (h : t.events = s.events) : t.txStream = s.txStream := by
  rw [State.txStream, State.txStream, h]

@[simp] theorem State.txStream_raiseFault (c : Cause) (v : Word) (s : State) :
    (s.raiseFault c v).txStream = s.txStream := State.txStream_congr (by simp)

/-- Raising a fault in a state that has none records it. -/
theorem State.raiseFault_eq {s : State} (h : s.fault = false) (c : Cause) (v : Word) :
    s.raiseFault c v = { s with fault := true, cause := c, info := v, phase := .halt } := by
  simp [State.raiseFault, h]

/-! ### The micro-steps -/

@[simp] theorem Flow.run_andThen (s : State) (g : State → Flow) : (Flow.run s).andThen g = g s := rfl
@[simp] theorem Flow.ended_andThen (s : State) (g : State → Flow) : (Flow.ended s).andThen g = .ended s := rfl
@[simp] theorem Flow.fault_andThen (r : Fault) (g : State → Flow) : (Flow.fault r).andThen g = .fault r := rfl
@[simp] theorem Flow.refused_andThen (r : Refusal) (g : State → Flow) : (Flow.refused r).andThen g = .refused r := rfl
@[simp] theorem Flow.outcome_run (s : State) : (Flow.run s).outcome = .next s := rfl
@[simp] theorem Flow.outcome_ended (s : State) : (Flow.ended s).outcome = .next s := rfl
@[simp] theorem Flow.outcome_fault (r : Fault) : (Flow.fault r).outcome = .fault r := rfl
@[simp] theorem Flow.outcome_refused (r : Refusal) : (Flow.refused r).outcome = .refused r := rfl

theorem Flow.andThen_assoc (f : Flow) (g h : State → Flow) :
    (f.andThen g).andThen h = f.andThen fun s => (g s).andThen h := by cases f <;> rfl

/-- A sequence goes on exactly where both parts do. -/
theorem Flow.andThen_eq_run {f : Flow} {g : State → Flow} {t : State} :
    f.andThen g = .run t ↔ ∃ u, f = .run u ∧ g u = .run t := by cases f <;> simp [Flow.andThen]

/-- A sequence ends by a raise in its first part, or in its second. -/
theorem Flow.andThen_eq_ended {f : Flow} {g : State → Flow} {t : State} :
    f.andThen g = .ended t ↔ f = .ended t ∨ ∃ u, f = .run u ∧ g u = .ended t := by
  cases f <;> simp [Flow.andThen]

/-- A command answers a next state exactly where its micro-steps all ran or one raised a fault. -/
theorem Flow.outcome_eq_next {f : Flow} {t : State} : f.outcome = .next t ↔ f = .run t ∨ f = .ended t := by
  cases f <;> simp [Flow.outcome]

end Sys2Proof.Machine
end

