-- ==== Sys2Proof/Laws/Engine.lean ====
section
/-!
SUPPORT. What the block engine does, said once: each operation equals its closed form, and `accept_cases` lists every way
an `ACCEPT` can go.
-/

namespace Sys2Proof.Machine

/-! ## Buffer accesses inside their bounds -/

theorem fragWrite_eq {e : Env} {i off : Nat} {bs : List Byte} (s : State) (hi : i < e.par.nMax)
    (ho : off + bs.length ≤ e.par.fragCap) :
    fragWrite e i off bs s = .run { s with frag := Memory.writeBytes s.frag (i * e.par.fragCap + off) bs } :=
  if_pos ⟨hi, ho⟩

theorem fragRead_eq {e : Env} {i off n : Nat} {s : State} {bs : List Byte} (k : List Byte → Flow)
    (hi : i < e.par.nMax) (ho : off + n ≤ e.par.fragCap)
    (h : Memory.readBytes s.frag (i * e.par.fragCap + off) n = some bs) : fragRead e i off n s k = k bs := by
  rw [fragRead, if_pos ⟨hi, ho⟩, h]

theorem accWrite_eq {e : Env} {off : Nat} {bs : List Byte} (s : State) (ho : off + bs.length ≤ e.par.aggCap) :
    accWrite e off bs s = .run { s with acc := Memory.writeBytes s.acc off bs } :=
  if_pos ho

theorem accRead_eq {e : Env} {off n : Nat} {s : State} {bs : List Byte} (k : List Byte → Flow)
    (ho : off + n ≤ e.par.aggCap) (h : Memory.readBytes s.acc off n = some bs) : accRead e off n s k = k bs := by
  rw [accRead, if_pos ho, h]

/-- Buffers do not overlap: buffer `i` ends before a later one begins. -/
theorem buffer_apart {i j f : Nat} (h : i < j) : i * f + f ≤ j * f := by
  have : (i + 1) * f ≤ j * f := Nat.mul_le_mul_right f h
  rwa [Nat.add_mul, Nat.one_mul] at this

/-- A buffer lies inside the fragment storage. -/
theorem buffer_in_storage {i n f : Nat} (h : i < n) : i * f + f ≤ n * f := buffer_apart h

/-! ## Steps 2 and 3 of ACCEPT -/

/-- Zero-fill, header and payload are one write of the data fragment (40_block_engine.md R121, 20_memory.md R61). -/
theorem fillFragment_eq {e : Env} {p : List Byte} {s : State} (hwf : Memory.wf s.frag) (hi : s.frgIdx < e.par.nMax)
    (hcap : e.par.hPkt + p.length ≤ e.par.fragCap) : fillFragment e p s = .run (afterData e p s) := by
  have hz : (List.replicate e.par.fragCap (0 : Byte)).length = e.par.fragCap := by simp
  have hh : (pktHdr e.par s.seq p.length).length = e.par.hPkt := length_pktHdr ..
  have mem : Memory.writeBytes (Memory.writeBytes (Memory.writeBytes s.frag (s.frgIdx * e.par.fragCap)
      (List.replicate e.par.fragCap 0)) (s.frgIdx * e.par.fragCap) (pktHdr e.par s.seq p.length))
      (s.frgIdx * e.par.fragCap + e.par.hPkt) p =
      Memory.writeBytes s.frag (s.frgIdx * e.par.fragCap) (dataFragment e.par s.seq p) := by
    generalize s.frgIdx * e.par.fragCap = a
    rw [Memory.writeBytes_over hwf a _ _ (by rw [hz, hh]; omega), ← Memory.writeBytes_append hwf, hh,
      Memory.writeBytes_over (Memory.wf_writeBytes hwf _ _) _ _ _ (by simp; omega)]
    have := Memory.writeBytes_append hwf a (pktHdr e.par s.seq p.length)
      (p ++ ((List.replicate e.par.fragCap (0 : Byte)).drop e.par.hPkt).drop p.length)
    rw [hh] at this
    rw [this]
    congr 1
    simp only [dataFragment, List.append_assoc, List.drop_replicate]
    congr 3
    omega
  rw [fillFragment, fragWrite_eq s hi (by simp), Flow.run_andThen]
  rw [fragWrite_eq _ hi (by rw [hh]; have := hPkt_le e; omega), Flow.run_andThen, fragWrite_eq _ hi hcap,
    Flow.run_andThen]
  simp only [Nat.add_zero]
  rw [mem]
  rfl

/-! ## emit -/

/-- `emit` with its payload read: one TX record, and `INJECTION_FAILED` where the verdict is fail (R124). -/
theorem emit_eq {e : Env} {i plen : Nat} {s : State} {pl : List Byte} (hi : i < e.par.nMax)
    (hp : plen ≤ e.par.fragCap) (h : Memory.readBytes s.frag (i * e.par.fragCap) plen = some pl) :
    emit e i plen s =
      match e.linkDraw s.draws with
      | .ok => .run (s.transmit (buildFrame e.par s.blkIdx i s.tag pl plen) .ok)
      | .fail => .ended ((s.transmit (buildFrame e.par s.blkIdx i s.tag pl plen) .fail).raiseFault .injectionFailed
          (BitVec.ofNat 32 i)) := by
  rw [emit, fragRead_eq _ hi (by omega) (by rw [Nat.add_zero]; exact h)]
  rfl

/-! ## Parity -/

/-- The coder's input is read where every shard has been written (R131). -/
theorem readShards_eq {e : Env} {s : State} (k : List (List Byte) → Flow) (count j : Nat)
    (hj : j + count ≤ e.par.nMax) (hm : s.blkMax ≤ e.par.fragCap)
    (h : ∀ i, j ≤ i → i < j + count → ∃ bs, Memory.readBytes s.frag (i * e.par.fragCap) s.blkMax = some bs) :
    readShards e count j s k =
      k ((List.range' j count).map fun i => (Memory.readBytes s.frag (i * e.par.fragCap) s.blkMax).getD []) := by
  induction count generalizing j k with
  | zero => rfl
  | succ count ih =>
    obtain ⟨bs, hbs⟩ := h j (le_refl j) (by omega)
    rw [readShards, fragRead_eq _ (by omega) (by omega) (by rw [Nat.add_zero]; exact hbs),
      ih _ (j + 1) (by omega) fun i h1 h2 => h i (by omega) (by omega)]
    simp [List.range'_succ, hbs]

theorem writeParity_eq {e : Env} (ps : List (List Byte)) (i : Nat) (s : State) (hi : i + ps.length ≤ e.par.nMax)
    (hlen : ∀ p ∈ ps, p.length ≤ e.par.fragCap) :
    writeParity e ps i s =
      .run { s with frag := (ps.zipIdx i).foldl (fun m q => Memory.writeBytes m (q.2 * e.par.fragCap) q.1) s.frag } := by
  induction ps generalizing i s with
  | nil => rfl
  | cons p ps ih =>
    simp only [List.length_cons] at hi
    rw [writeParity, fragWrite_eq s (by omega) (by have := hlen p (by simp); omega), Flow.run_andThen,
      ih (i + 1) _ (by omega) fun q hq => hlen q (by simp [hq])]
    rfl

/-- What the fold of parity writes keeps and makes: canonical form, storage bound, every other buffer, and each shard in
its own buffer. -/
theorem foldWrites_spec {f lim len : Nat} (ps : List (List Byte)) (i : Nat) (m : Memory) (hwf : Memory.wf m)
    (hb : ∀ c ∈ m, c.1 < lim * f) (hi : i + ps.length ≤ lim) (hlen : ∀ p ∈ ps, p.length = len) (hf : len ≤ f) :
    let m' := (ps.zipIdx i).foldl (fun m q => Memory.writeBytes m (q.2 * f) q.1) m
    Memory.wf m' ∧ (∀ c ∈ m', c.1 < lim * f) ∧
      (∀ x, (x < i * f ∨ (i + ps.length) * f ≤ x) → Memory.read m' x = Memory.read m x) ∧
      (∀ j p, ps[j]? = some p → Memory.readBytes m' ((i + j) * f) len = some p) := by
  induction ps generalizing i m with
  | nil => exact ⟨hwf, hb, fun x _ => rfl, by simp⟩
  | cons q ps ih =>
    simp only [List.length_cons] at hi
    have hq : q.length = len := hlen q (by simp)
    have hstore := buffer_in_storage (f := f) (show i < lim by omega)
    obtain ⟨h1, h2, h3, h4⟩ := ih (i + 1) (Memory.writeBytes m (i * f) q) (Memory.wf_writeBytes hwf _ _)
      (Memory.bound_writeBytes hb (by omega)) (by omega) fun p hp => hlen p (by simp [hp])
    have hnext : (i + 1) * f = i * f + f := by rw [Nat.add_mul, Nat.one_mul]
    refine ⟨h1, h2, fun x hx => ?_, fun j p hj => ?_⟩
    · have : x < (i + 1) * f ∨ (i + 1 + ps.length) * f ≤ x := by
        rcases hx with hx | hx
        · left; omega
        · right; rw [List.length_cons] at hx; rwa [Nat.add_assoc, Nat.add_comm 1]
      refine (h3 x this).trans (Memory.read_writeBytes_outside ?_)
      rcases hx with hx | hx
      · left; exact hx
      · right
        have := buffer_in_storage (f := f) (show i < i + (q :: ps).length by simp)
        omega
    · cases j with
      | zero =>
        simp only [List.getElem?_cons_zero, Option.some.injEq] at hj
        subst hj
        have := Memory.readBytes_writeBytes_same m (i * f) q
        rw [hq] at this
        rw [Nat.add_zero, ← this]
        exact Memory.readBytes_congr fun x _ hx => h3 x (by left; omega)
      | succ j =>
        rw [List.getElem?_cons_succ] at hj
        have := h4 j p hj
        rwa [Nat.add_assoc, Nat.add_comm 1] at this

/-- `FEC_STEP`'s first part fills the parity buffers; with `K = N` it does nothing (R125, R129). -/
theorem fillParity_eq {e : Env} {s : State} (hcfg : configLegal e s) (hm : s.blkMax ≤ e.par.fragCap)
    (h : ∀ j < s.k.toNat, ∃ bs, Memory.readBytes s.frag (j * e.par.fragCap) s.blkMax = some bs) :
    fillParity e s = .run { s with frag := parityMemory e s } := by
  obtain ⟨_, hkn, hn⟩ := hcfg
  rw [fillParity]
  by_cases hk : s.k.toNat < s.n.toNat
  · rw [if_pos hk, readShards_eq _ _ _ (by omega) hm fun i _ hi => h i (by omega), ← List.range_eq_range',
      writeParity_eq _ _ _ (by rw [length_fecEncode]; omega)
        fun p hp => by rw [length_of_mem_fecEncode hp]; exact hm]
    rfl
  · have : s.n.toNat - s.k.toNat = 0 := by omega
    rw [if_neg hk, parityMemory, parityShards, fecEncode, this]
    rfl

/-- The loop of parity frames, every verdict ok (R126). -/
theorem emitParity_ok {e : Env} (ps : List (List Byte)) (s : State) (hn : s.frgIdx + ps.length = s.n.toNat)
    (hmax : s.n.toNat ≤ e.par.nMax) (hm : s.blkMax ≤ e.par.fragCap)
    (hr : ∀ j p, ps[j]? = some p →
      Memory.readBytes s.frag ((s.frgIdx + j) * e.par.fragCap) s.blkMax = some p)
    (hok : ∀ c < ps.length, e.linkDraw (s.draws + c) = .ok) :
    emitParity e ps.length s =
      .run { s with
        frgIdx := s.n.toNat
        events := s.events ++ (ps.zipIdx s.frgIdx).map
          fun q => Event.tx (buildFrame e.par s.blkIdx q.2 s.tag q.1 s.blkMax) .ok
        draws := s.draws + ps.length } := by
  induction ps generalizing s with
  | nil =>
    simp only [List.length_nil, Nat.add_zero] at hn
    simp [emitParity, ← hn]
  | cons p ps ih =>
    simp only [List.length_cons] at hn
    have h0 := hr 0 p (by simp)
    have hv : e.linkDraw s.draws = .ok := hok 0 (by simp)
    rw [List.length_cons, emitParity, if_pos (by omega), emit_eq (by omega) hm (by simpa using h0), hv]
    simp only [Flow.run_andThen]
    rw [ih _ (by simp; omega) (by simpa using hmax) (by simpa using hm)
      (fun j q hj => by
        have := hr (j + 1) q (by simpa using hj)
        simpa [Nat.add_assoc, Nat.add_comm 1] using this)
      (fun c hc => by
        have := hok (c + 1) (by simp; omega)
        simpa [Nat.add_assoc, Nat.add_comm 1] using this)]
    simp [State.nextFragment, State.transmit, State.record, List.zipIdx_cons, Nat.add_assoc, Nat.add_comm 1]

/-- The loop of parity frames, frame number `f` failed and those before it ok (R126, R134). -/
theorem emitParity_fail {e : Env} (ps : List (List Byte)) (f : Nat) (s : State) (hf : f < ps.length)
    (hn : s.frgIdx + ps.length = s.n.toNat)
    (hmax : s.n.toNat ≤ e.par.nMax) (hm : s.blkMax ≤ e.par.fragCap)
    (hr : ∀ j p, ps[j]? = some p →
      Memory.readBytes s.frag ((s.frgIdx + j) * e.par.fragCap) s.blkMax = some p)
    (hok : ∀ c < f, e.linkDraw (s.draws + c) = .ok) (hfail : e.linkDraw (s.draws + f) = .fail) :
    emitParity e ps.length s =
      .ended (State.raiseFault .injectionFailed (BitVec.ofNat 32 (s.frgIdx + f)) { s with
        frgIdx := s.frgIdx + f
        events := s.events ++
          ((((ps.zipIdx s.frgIdx).map fun q => buildFrame e.par s.blkIdx q.2 s.tag q.1 s.blkMax).take f).map
            (Event.tx · .ok) ++
          [.tx (((ps.zipIdx s.frgIdx).map fun q => buildFrame e.par s.blkIdx q.2 s.tag q.1 s.blkMax).getD f []) .fail])
        draws := s.draws + (f + 1) }) := by
  induction ps generalizing s f with
  | nil => simp at hf
  | cons p ps ih =>
    simp only [List.length_cons] at hn hf
    have h0 := hr 0 p (by simp)
    rw [List.length_cons, emitParity, if_pos (by omega), emit_eq (by omega) hm (by simpa using h0)]
    cases f with
    | zero =>
      rw [Nat.add_zero] at hfail
      rw [hfail]
      simp [State.transmit, State.record, List.zipIdx_cons]
    | succ f =>
      have hv : e.linkDraw s.draws = .ok := hok 0 (by omega)
      rw [hv]
      simp only [Flow.run_andThen]
      rw [ih f _ (by omega) (by simp; omega) (by simpa using hmax) (by simpa using hm)
        (fun j q hj => by
          have := hr (j + 1) q (by simpa using hj)
          simpa [Nat.add_assoc, Nat.add_comm 1] using this)
        (fun c hc => by
          have := hok (c + 1) (by omega)
          simpa [Nat.add_assoc, Nat.add_comm 1] using this)
        (by simpa [Nat.add_assoc, Nat.add_comm 1] using hfail)]
      simp [State.nextFragment, State.transmit, State.record, List.zipIdx_cons, Nat.add_assoc, Nat.add_comm 1]

end Sys2Proof.Machine
end

