-- ==== Sys2Proof/Laws/Accept.lean ====
section
/-!
SUPPORT. What `ACCEPT` can do, said once (40_block_engine.md R120 to R134): from a state whose engine is in order it ends
in one of five ways, each a closed form of Safety.lean.
-/

namespace Sys2Proof.Machine

/-- What `ACCEPT` needs of the engine: the part of the invariant it reads. -/
structure EngineOk (e : Env) (s : State) : Prop where
  wf : Memory.wf s.frag
  bound : ∀ c ∈ s.frag, c.1 < e.par.nMax * e.par.fragCap
  config : configLegal e s
  slot : s.frgIdx < s.k.toNat
  blkMaxFits : s.blkMax ≤ e.par.fragCap
  readable : ∀ j < s.frgIdx, ∃ bs, Memory.readBytes s.frag (j * e.par.fragCap) e.par.fragCap = some bs

theorem EngineOk.slotBuilt {e : Env} {s : State} (h : EngineOk e s) : s.frgIdx < e.par.nMax := by
  have := h.slot; have := h.config.2.1; have := h.config.2.2; omega

/-- The buffer just filled holds its data fragment. -/
theorem afterData_slot {e : Env} {p : List Byte} {s : State} (hcap : e.par.hPkt + p.length ≤ e.par.fragCap) :
    Memory.readBytes (afterData e p s).frag (s.frgIdx * e.par.fragCap) e.par.fragCap =
      some (dataFragment e.par s.seq p) := by
  have := Memory.readBytes_writeBytes_same s.frag (s.frgIdx * e.par.fragCap) (dataFragment e.par s.seq p)
  rwa [length_dataFragment hcap] at this

/-- The other buffers hold what they did. -/
theorem afterData_other {e : Env} {p : List Byte} {s : State} (hcap : e.par.hPkt + p.length ≤ e.par.fragCap)
    {j : Nat} (hj : j ≠ s.frgIdx) :
    Memory.readBytes (afterData e p s).frag (j * e.par.fragCap) e.par.fragCap =
      Memory.readBytes s.frag (j * e.par.fragCap) e.par.fragCap := by
  refine Memory.readBytes_writeBytes_apart ?_
  rw [length_dataFragment hcap]
  rcases Nat.lt_or_gt_of_ne hj with h | h
  · left; exact buffer_apart h
  · right; exact buffer_apart h

theorem afterData_wf {e : Env} {p : List Byte} {s : State} (h : Memory.wf s.frag) :
    Memory.wf (afterData e p s).frag := Memory.wf_writeBytes h _ _

theorem afterData_bound {e : Env} {p : List Byte} {s : State} (h : EngineOk e s)
    (hcap : e.par.hPkt + p.length ≤ e.par.fragCap) :
    ∀ c ∈ (afterData e p s).frag, c.1 < e.par.nMax * e.par.fragCap :=
  Memory.bound_writeBytes h.bound (by rw [length_dataFragment hcap]; exact buffer_in_storage h.slotBuilt)

theorem afterData_blkMax {e : Env} {p : List Byte} {s : State} (h : EngineOk e s)
    (hcap : e.par.hPkt + p.length ≤ e.par.fragCap) : (afterData e p s).blkMax ≤ e.par.fragCap :=
  Nat.max_le.2 ⟨h.blkMaxFits, hcap⟩

/-- With the last slot filled every data buffer is written. -/
theorem afterData_readable {e : Env} {p : List Byte} {s : State} (h : EngineOk e s)
    (hcap : e.par.hPkt + p.length ≤ e.par.fragCap) :
    ∀ j < s.frgIdx + 1, ∃ bs, Memory.readBytes (afterData e p s).frag (j * e.par.fragCap) e.par.fragCap = some bs := by
  intro j hj
  by_cases hji : j = s.frgIdx
  · exact ⟨_, hji ▸ afterData_slot hcap⟩
  · obtain ⟨bs, hbs⟩ := h.readable j (by omega)
    exact ⟨bs, (afterData_other hcap hji).trans hbs⟩

/-! ## The five ends -/

theorem accept_tooLarge {e : Env} {p : List Byte} (s : State) (h : e.par.fragCap < e.par.hPkt + p.length) :
    accept e p s = .ended (s.raiseFault .payloadTooLarge (BitVec.ofNat 32 p.length)) := if_pos h

/-- The steps up to the data frame (R121 to R124). -/
theorem accept_eq {e : Env} {p : List Byte} {s : State} (h : EngineOk e s)
    (hcap : e.par.hPkt + p.length ≤ e.par.fragCap) :
    accept e p s =
      match e.linkDraw s.draws with
      | .ok => if s.frgIdx + 1 < s.k.toNat then .run (blockOpen e p s) else fecStep e (blockOpen e p s)
      | .fail => .ended (dataFailed e p s) := by
  have hread : Memory.readBytes (afterData e p s).frag ((afterData e p s).frgIdx * e.par.fragCap)
      (afterData e p s).blkMax = some ((dataFragment e.par s.seq p).take (afterData e p s).blkMax) :=
    Memory.readBytes_take (afterData_slot hcap) (afterData_blkMax h hcap)
  rw [accept, if_neg (by omega), fillFragment_eq h.wf h.slotBuilt hcap, Flow.run_andThen,
    emit_eq (show (afterData e p s).frgIdx < _ from h.slotBuilt) (afterData_blkMax h hcap) hread]
  show Flow.andThen (match e.linkDraw s.draws with
    | .ok => _
    | .fail => _) _ = _
  cases e.linkDraw s.draws <;> rfl

theorem accept_dataFailed {e : Env} {p : List Byte} {s : State} (h : EngineOk e s)
    (hcap : e.par.hPkt + p.length ≤ e.par.fragCap) (hv : e.linkDraw s.draws = .fail) :
    accept e p s = .ended (dataFailed e p s) := by rw [accept_eq h hcap, hv]

theorem accept_open {e : Env} {p : List Byte} {s : State} (h : EngineOk e s)
    (hcap : e.par.hPkt + p.length ≤ e.par.fragCap) (hv : e.linkDraw s.draws = .ok)
    (hk : s.frgIdx + 1 < s.k.toNat) : accept e p s = .run (blockOpen e p s) := by
  rw [accept_eq h hcap, hv]; exact if_pos hk

/-- What `FEC_STEP` starts from: the state with the data frame sent and `FRG_IDX = K`. -/
theorem fillParity_blockOpen {e : Env} {p : List Byte} {s : State} (h : EngineOk e s)
    (hcap : e.par.hPkt + p.length ≤ e.par.fragCap) (hk : s.frgIdx + 1 = s.k.toNat) :
    fillParity e (blockOpen e p s) =
      .run { blockOpen e p s with frag := parityMemory e (afterData e p s) } := by
  refine fillParity_eq h.config (afterData_blkMax h hcap) fun j hj => ?_
  obtain ⟨bs, hbs⟩ := afterData_readable h hcap j (by have : j < s.k.toNat := hj; omega)
  exact ⟨_, Memory.readBytes_take hbs (afterData_blkMax h hcap)⟩

/-- The parity memory of a filled block: canonical, in bounds, the data buffers as they were, each shard readable. -/
theorem parityMemory_spec {e : Env} {p : List Byte} {s : State} (h : EngineOk e s)
    (hcap : e.par.hPkt + p.length ≤ e.par.fragCap) :
    let t := afterData e p s
    Memory.wf (parityMemory e t) ∧ (∀ c ∈ parityMemory e t, c.1 < e.par.nMax * e.par.fragCap) ∧
      (∀ x, (x < s.k.toNat * e.par.fragCap ∨ s.n.toNat * e.par.fragCap ≤ x) →
        Memory.read (parityMemory e t) x = Memory.read t.frag x) ∧
      (∀ j q, (parityShards e t)[j]? = some q →
        Memory.readBytes (parityMemory e t) ((s.k.toNat + j) * e.par.fragCap) t.blkMax = some q) := by
  intro t
  have hkn := h.config.2.1
  have hn := h.config.2.2
  have hlen : s.k.toNat + (parityShards e t).length = s.n.toNat := by
    rw [length_parityShards]; show s.k.toNat + (s.n.toNat - s.k.toNat) = _; omega
  have := foldWrites_spec (f := e.par.fragCap) (lim := e.par.nMax) (len := t.blkMax) (parityShards e t)
    s.k.toNat t.frag (afterData_wf h.wf) (afterData_bound h hcap) (by omega)
    (fun q hq => length_of_mem_fecEncode hq) (afterData_blkMax h hcap)
  rw [hlen] at this
  exact this

theorem accept_done {e : Env} {p : List Byte} {s : State} (h : EngineOk e s)
    (hcap : e.par.hPkt + p.length ≤ e.par.fragCap) (hv : e.linkDraw s.draws = .ok)
    (hk : s.frgIdx + 1 = s.k.toNat)
    (hok : ∀ c < s.n.toNat - s.k.toNat, e.linkDraw (s.draws + 1 + c) = .ok) :
    accept e p s = .run (blockDone e p s) := by
  have hlen : (parityShards e (afterData e p s)).length = s.n.toNat - s.k.toNat := by
    rw [length_parityShards]; rfl
  have hkn := h.config.2.1
  rw [accept_eq h hcap, hv]
  show (if _ then _ else _) = _
  rw [if_neg (by omega), fecStep, fillParity_blockOpen h hcap hk, Flow.run_andThen]
  have := emitParity_ok (e := e) (parityShards e (afterData e p s))
    { blockOpen e p s with frag := parityMemory e (afterData e p s) }
    (by show s.frgIdx + 1 + _ = s.n.toNat; rw [hlen]; omega) h.config.2.2 (afterData_blkMax h hcap)
    (fun j q hj => by
      have := (parityMemory_spec h hcap).2.2.2 j q hj
      rw [← hk] at this
      exact this)
    (fun c hc => by rw [hlen] at hc; exact hok c hc)
  rw [hlen, ← hk] at this
  show (emitParity e (s.n.toNat - (s.frgIdx + 1)) _).andThen _ = _
  rw [this, Flow.run_andThen]
  simp [blockDone, closeBlock, blockOpen, parityFrames, afterData, hk]

theorem accept_parityFailed {e : Env} {p : List Byte} {s : State} (h : EngineOk e s)
    (hcap : e.par.hPkt + p.length ≤ e.par.fragCap) (hv : e.linkDraw s.draws = .ok)
    (hk : s.frgIdx + 1 = s.k.toNat) {f : Nat} (hf : f < s.n.toNat - s.k.toNat)
    (hok : ∀ c < f, e.linkDraw (s.draws + 1 + c) = .ok) (hfail : e.linkDraw (s.draws + 1 + f) = .fail) :
    accept e p s = .ended (parityFailed e p f s) := by
  have hlen : (parityShards e (afterData e p s)).length = s.n.toNat - s.k.toNat := by
    rw [length_parityShards]; rfl
  have hkn := h.config.2.1
  rw [accept_eq h hcap, hv]
  show (if _ then _ else _) = _
  rw [if_neg (by omega), fecStep, fillParity_blockOpen h hcap hk, Flow.run_andThen]
  have := emitParity_fail (e := e) (parityShards e (afterData e p s)) f
    { blockOpen e p s with frag := parityMemory e (afterData e p s) } (by omega)
    (by show s.frgIdx + 1 + _ = s.n.toNat; rw [hlen]; omega) h.config.2.2 (afterData_blkMax h hcap)
    (fun j q hj => by
      have := (parityMemory_spec h hcap).2.2.2 j q hj
      rw [← hk] at this
      exact this)
    hok hfail
  rw [hlen, ← hk] at this
  show (emitParity e (s.n.toNat - (s.frgIdx + 1)) _).andThen _ = _
  rw [this, Flow.ended_andThen]
  simp [parityFailed, blockOpen, parityFrames, afterData, ← hk]

/-- Every way an `ACCEPT` can go. -/
theorem accept_cases {e : Env} {s : State} (p : List Byte) (h : EngineOk e s) :
    (e.par.fragCap < e.par.hPkt + p.length ∧
      accept e p s = .ended (s.raiseFault .payloadTooLarge (BitVec.ofNat 32 p.length))) ∨
    (e.par.hPkt + p.length ≤ e.par.fragCap ∧
      ((e.linkDraw s.draws = .fail ∧ accept e p s = .ended (dataFailed e p s)) ∨
       (e.linkDraw s.draws = .ok ∧ s.frgIdx + 1 < s.k.toNat ∧ accept e p s = .run (blockOpen e p s)) ∨
       (e.linkDraw s.draws = .ok ∧ s.frgIdx + 1 = s.k.toNat ∧
        ((∃ f < s.n.toNat - s.k.toNat, accept e p s = .ended (parityFailed e p f s)) ∨
          accept e p s = .run (blockDone e p s))))) := by
  by_cases hcap : e.par.fragCap < e.par.hPkt + p.length
  · exact .inl ⟨hcap, accept_tooLarge s hcap⟩
  have hcap' : e.par.hPkt + p.length ≤ e.par.fragCap := by omega
  refine .inr ⟨hcap', ?_⟩
  cases hv : e.linkDraw s.draws with
  | fail => exact .inl ⟨rfl, accept_dataFailed h hcap' hv⟩
  | ok =>
    right
    by_cases hk : s.frgIdx + 1 < s.k.toNat
    · exact .inl ⟨rfl, hk, accept_open h hcap' hv hk⟩
    have hk' : s.frgIdx + 1 = s.k.toNat := by have := h.slot; omega
    refine .inr ⟨rfl, hk', ?_⟩
    by_cases hall : ∀ c < s.n.toNat - s.k.toNat, e.linkDraw (s.draws + 1 + c) = .ok
    · exact .inr (accept_done h hcap' hv hk' hall)
    · left
      have hex : ∃ c, c < s.n.toNat - s.k.toNat ∧ e.linkDraw (s.draws + 1 + c) ≠ .ok := by
        simpa using hall
      obtain ⟨hf, hne⟩ := Nat.find_spec hex
      refine ⟨Nat.find hex, hf, accept_parityFailed h hcap' hv hk' hf (fun c hc => ?_) ?_⟩
      · by_contra hcon
        exact Nat.find_min hex hc ⟨by omega, hcon⟩
      · cases hd : e.linkDraw (s.draws + 1 + Nat.find hex) with
        | ok => exact absurd hd hne
        | fail => rfl

end Sys2Proof.Machine
end

