-- ==== Sys2Proof/Laws/Decode.lean ====
section
/-!
SUPPORT. The small facts of the encoding: CSR numbers, the fields of an encoded command word, the packing of datagrams.
-/

namespace Sys2Proof

@[simp] theorem Csr.ofNumber_number (c : Csr) : Csr.ofNumber c.number = c := by cases c <;> rfl

theorem Csr.number_ofNumber (b : BitVec 4) : (Csr.ofNumber b).number = b := by
  revert b; decide

/-! ## Datagram bytes -/

theorem toNat_wordOfBytes (a b c d : Byte) :
    (wordOfBytes a b c d).toNat = d.toNat * 2 ^ 24 + c.toNat * 2 ^ 16 + b.toNat * 2 ^ 8 + a.toNat := by
  have ha := a.isLt
  have hb := b.isLt
  have hc := c.isLt
  simp only [wordOfBytes, BitVec.toNat_append, Nat.shiftLeft_eq]
  rw [Nat.mul_comm d.toNat, ← Nat.two_pow_add_eq_or_of_lt hc, Nat.mul_comm (_ + _) (2 ^ 8),
    ← Nat.two_pow_add_eq_or_of_lt hb, Nat.mul_comm (_ + _) (2 ^ 8), ← Nat.two_pow_add_eq_or_of_lt ha]
  omega

theorem wordBytes_wordOfBytes (a b c d : Byte) : wordBytes (wordOfBytes a b c d) = [a, b, c, d] := by
  have ha := a.isLt
  have hb := b.isLt
  have hc := c.isLt
  have hd := d.isLt
  simp only [wordBytes, List.cons.injEq, and_true]
  refine ⟨?_, ?_, ?_, ?_⟩ <;>
    · apply BitVec.eq_of_toNat_eq
      rw [BitVec.extractLsb'_toNat, toNat_wordOfBytes, Nat.shiftRight_eq_div_pow]
      omega

@[simp] theorem length_wordBytes (d : Word) : (wordBytes d).length = 4 := rfl

theorem length_packBytes : ∀ p : List Byte, (packBytes p).length = (p.length + 3) / 4
  | [] => rfl
  | [_] => by simp [packBytes]
  | [_, _] => by simp [packBytes]
  | [_, _, _] => by simp [packBytes]
  | _ :: _ :: _ :: _ :: rest => by
    simp only [packBytes, List.length_cons, length_packBytes rest]
    omega

/-- The bytes come back out of their follow words (R95). -/
theorem unpackBytes_packBytes : ∀ p : List Byte, unpackBytes p.length (packBytes p) = p
  | [] => rfl
  | [a] => by simp [unpackBytes, packBytes, wordBytes_wordOfBytes]
  | [a, b] => by simp [unpackBytes, packBytes, wordBytes_wordOfBytes]
  | [a, b, c] => by simp [unpackBytes, packBytes, wordBytes_wordOfBytes]
  | a :: b :: c :: d :: rest => by
    have ih := unpackBytes_packBytes rest
    simp only [unpackBytes] at ih
    simp [unpackBytes, packBytes, wordBytes_wordOfBytes, ih]

theorem length_unpackBytes {len : Nat} {d : List Word} (h : len ≤ 4 * d.length) :
    (unpackBytes len d).length = len := by
  have : (d.flatMap wordBytes).length = 4 * d.length := by
    induction d with
    | nil => rfl
    | cons w d ih => simp [List.flatMap_cons, Nat.mul_add]; omega
  rw [unpackBytes, List.length_take, this]
  omega

/-! ## Fields of an encoded command word -/

theorem opField_csrWord (o b : BitVec 4) : opField (o ++ b ++ (0 : BitVec 24)) = o := by
  revert o b; decide

theorem csrField_csrWord (o b : BitVec 4) : csrField (o ++ b ++ (0 : BitVec 24)) = b := by
  revert o b; decide

theorem reservedC_csrWord (o b : BitVec 4) : reservedC (o ++ b ++ (0 : BitVec 24)) = 0 := by
  revert o b; decide

theorem opField_dgramWord (l : BitVec 16) : opField ((0x4 : BitVec 4) ++ (0 : BitVec 12) ++ l) = 0x4 := by
  apply BitVec.eq_of_toNat_eq
  have := l.isLt
  simp only [opField, BitVec.extractLsb'_toNat, BitVec.toNat_append, Nat.shiftLeft_eq, Nat.shiftRight_eq_div_pow]
  rw [Nat.mul_comm, ← Nat.two_pow_add_eq_or_of_lt this]
  simp
  omega

theorem reservedD_dgramWord (l : BitVec 16) : reservedD ((0x4 : BitVec 4) ++ (0 : BitVec 12) ++ l) = 0 := by
  apply BitVec.eq_of_toNat_eq
  have := l.isLt
  simp only [reservedD, BitVec.extractLsb'_toNat, BitVec.toNat_append, Nat.shiftLeft_eq, Nat.shiftRight_eq_div_pow]
  rw [Nat.mul_comm, ← Nat.two_pow_add_eq_or_of_lt this]
  simp
  omega

theorem lenField_dgramWord (l : BitVec 16) : lenField ((0x4 : BitVec 4) ++ (0 : BitVec 12) ++ l) = l := by
  apply BitVec.eq_of_toNat_eq
  have := l.isLt
  simp only [lenField, BitVec.extractLsb'_toNat, BitVec.toNat_append, Nat.shiftLeft_eq, Nat.shiftRight_eq_div_pow]
  rw [Nat.mul_comm, ← Nat.two_pow_add_eq_or_of_lt this]
  simp
  omega

/-- A 64-bit value is its high word behind its low word (R96). -/
theorem time_words (t : BitVec 64) : (t.extractLsb' 32 32 ++ t.extractLsb' 0 32 : BitVec 64) = t := by
  apply BitVec.eq_of_toNat_eq
  have := t.isLt
  simp only [BitVec.extractLsb'_toNat, BitVec.toNat_append, Nat.shiftLeft_eq, Nat.shiftRight_eq_div_pow]
  rw [Nat.mul_comm, ← Nat.two_pow_add_eq_or_of_lt (by omega)]
  omega

/-! ## What the decoder makes of a word of the table -/

theorem follow_dgramWord (l : BitVec 16) :
    follow ((0x4 : BitVec 4) ++ (0 : BitVec 12) ++ l) = (l.toNat + 3) / 4 := by
  rw [follow, opField_dgramWord, reservedD_dgramWord, lenField_dgramWord]
  simp

theorem malformed_dgramWord (l : BitVec 16) : malformed ((0x4 : BitVec 4) ++ (0 : BitVec 12) ++ l) = false := by
  rw [malformed, opField_dgramWord, reservedD_dgramWord]
  rfl

/-- A `DGRAM` word with its follow words decodes to the datagram in them. -/
theorem decode_dgramWord (l : BitVec 16) (d rest : List Word) (h : d.length = (l.toNat + 3) / 4) :
    decode (((0x4 : BitVec 4) ++ (0 : BitVec 12) ++ l) :: (d ++ rest)) =
      .command (.dgram (unpackBytes l.toNat d)) rest := by
  have hlt : ¬ (d ++ rest).length < follow ((0x4 : BitVec 4) ++ (0 : BitVec 12) ++ l) := by
    rw [follow_dgramWord, List.length_append]; omega
  rw [decode, if_neg hlt, follow_dgramWord, ← h, List.take_left, List.drop_left, decodeCommand, malformed_dgramWord,
    opField_dgramWord, lenField_dgramWord]
  rfl

/-! ## Malformed words (R97) -/

/-- A word is well formed in eight ways: an opcode of the map, its reserved bits zero. -/
theorem malformed_eq_false (w : Word) : malformed w = false ↔
    (opField w = 1 ∧ reservedC w = 0) ∨ (opField w = 2 ∧ reservedC w = 0) ∨ (opField w = 3 ∧ reservedZ w = 0) ∨
    (opField w = 4 ∧ reservedD w = 0) ∨ (opField w = 5 ∧ reservedZ w = 0) ∨ (opField w = 6 ∧ reservedZ w = 0) ∨
    (opField w = 7 ∧ reservedZ w = 0) ∨ (opField w = 8 ∧ reservedZ w = 0) := by
  rw [malformed]
  generalize opField w = o
  generalize reservedZ w = z
  generalize reservedC w = c
  generalize reservedD w = d
  have h16 : ∀ o : BitVec 4, o = 0 ∨ o = 1 ∨ o = 2 ∨ o = 3 ∨ o = 4 ∨ o = 5 ∨ o = 6 ∨ o = 7 ∨ o = 8 ∨ o = 9 ∨
      o = 10 ∨ o = 11 ∨ o = 12 ∨ o = 13 ∨ o = 14 ∨ o = 15 := by decide
  rcases h16 o with rfl | rfl | rfl | rfl | rfl | rfl | rfl | rfl | rfl | rfl | rfl | rfl | rfl | rfl | rfl | rfl <;>
    simp

/-- A malformed word takes no follow word. -/
theorem follow_of_malformed {w : Word} (h : malformed w = true) : follow w = 0 := by
  have hm := (malformed_eq_false w).not.1 (by rw [h]; simp)
  rw [follow, if_neg (by tauto), if_neg (by tauto), if_neg (by tauto)]

/-- Exactly the malformed words have no command. -/
theorem decodeCommand_eq_none (w : Word) (f : List Word) : decodeCommand w f = none ↔ malformed w = true := by
  rw [decodeCommand]
  constructor
  · intro h
    by_contra hm
    have hm : malformed w = false := by simpa using hm
    have hm2 := (malformed_eq_false w).1 hm
    rw [hm] at h
    rcases hm2 with h' | h' | h' | h' | h' | h' | h' | h' <;> rw [h'.1] at h <;> simp at h
  · intro h; rw [if_pos h]

end Sys2Proof
end

