-- ==== Sys2Proof/Laws/Environment.lean ====
section
/-!
SUPPORT. The machine is the machine of a given environment, at `Config.env`.
-/

namespace Sys2Proof.Machine

theorem exec_eq_execIn (i : Instr) (s : State) : exec i s = execIn Config.env i s := by cases i <;> rfl

theorem step_eq_stepIn (s : State) : step s = stepIn Config.env s := by
  unfold step stepIn
  cases fetch s with
  | wait t => rfl
  | command i t => exact exec_eq_execIn i t
  | malformedWord w t => rfl

end Sys2Proof.Machine
end

