-- ==== Sys2Proof/Laws/Kept.lean ====
section
/-!
SUPPORT. What every operation leaves alone, from ANY state: `Flow.Always` composes such facts, and `Kept` is the frame of
the block engine and the ingestion multiplexer.
-/

namespace Sys2Proof.Machine

/-- Wherever the micro-steps leave a state, it has `P`. -/
def Flow.Always (f : Flow) (P : State → Prop) : Prop := ∀ t, f = .run t ∨ f = .ended t → P t

theorem Flow.Always.outcome {f : Flow} {P : State → Prop} (h : f.Always P) {t : State} (ht : f.outcome = .next t) :
    P t := h t (Flow.outcome_eq_next.1 ht)

theorem Flow.always_run {s : State} {P : State → Prop} (h : P s) : (Flow.run s).Always P := by
  rintro t (ht | ht) <;> cases ht; exact h

theorem Flow.always_ended {s : State} {P : State → Prop} (h : P s) : (Flow.ended s).Always P := by
  rintro t (ht | ht) <;> cases ht; exact h

theorem Flow.always_fault {r : Fault} {P : State → Prop} : (Flow.fault r).Always P := by
  rintro t (ht | ht) <;> cases ht

theorem Flow.always_refused {r : Refusal} {P : State → Prop} : (Flow.refused r).Always P := by
  rintro t (ht | ht) <;> cases ht

theorem Flow.Always.andThen {f : Flow} {g : State → Flow} {P Q : State → Prop} (hf : f.Always P)
    (he : ∀ t, P t → Q t) (hg : ∀ t, P t → (g t).Always Q) : (f.andThen g).Always Q := by
  cases f with
  | run t => exact hg t (hf t (.inl rfl))
  | ended t => exact Flow.always_ended (he t (hf t (.inr rfl)))
  | fault r => exact Flow.always_fault
  | refused r => exact Flow.always_refused

theorem Flow.Always.mono {f : Flow} {P Q : State → Prop} (hf : f.Always P) (h : ∀ t, P t → Q t) : f.Always Q :=
  fun t ht => h t (hf t ht)

/-- For a transitive relation to the first state. -/
theorem Flow.Always.trans {f : Flow} {g : State → Flow} {R : State → State → Prop} {s : State}
    (tr : ∀ {a b c}, R a b → R b c → R a c) (hf : f.Always (R s)) (hg : ∀ t, (g t).Always (R t)) :
    (f.andThen g).Always (R s) :=
  hf.andThen (fun _ h => h) fun t ht => (hg t).mono fun _ hu => tr ht hu

theorem fragRead_always {e : Env} {i off n : Nat} {s : State} {k : List Byte → Flow} {P : State → Prop}
    (h : ∀ bs, (k bs).Always P) : (fragRead e i off n s k).Always P := by
  rw [fragRead]; split
  · split
    · exact h _
    · exact Flow.always_fault
  · exact Flow.always_refused

theorem accRead_always {e : Env} {off n : Nat} {s : State} {k : List Byte → Flow} {P : State → Prop}
    (h : ∀ bs, (k bs).Always P) : (accRead e off n s k).Always P := by
  rw [accRead]; split
  · split
    · exact h _
    · exact Flow.always_fault
  · exact Flow.always_refused

theorem readShards_always {e : Env} {s : State} {P : State → Prop} (count j : Nat) (k : List (List Byte) → Flow)
    (h : ∀ ds, (k ds).Always P) : (readShards e count j s k).Always P := by
  induction count generalizing j k with
  | zero => exact h _
  | succ count ih => exact fragRead_always fun bs => ih _ _ fun ds => h _

theorem fragWrite_always {e : Env} {i off : Nat} {bs : List Byte} {s : State} {P : State → Prop}
    (h : i < e.par.nMax ∧ off + bs.length ≤ e.par.fragCap →
      P { s with frag := Memory.writeBytes s.frag (i * e.par.fragCap + off) bs }) :
    (fragWrite e i off bs s).Always P := by
  rw [fragWrite]; split
  · rename_i hb; exact Flow.always_run (h hb)
  · exact Flow.always_refused

theorem accWrite_always {e : Env} {off : Nat} {bs : List Byte} {s : State} {P : State → Prop}
    (h : P { s with acc := Memory.writeBytes s.acc off bs }) : (accWrite e off bs s).Always P := by
  rw [accWrite]; split
  · exact Flow.always_run h
  · exact Flow.always_refused

/-! ## The frame of a command -/

/-- What no operation of the engine or the multiplexer changes: the configuration, the clock, the port; the history is
only appended to, and by TX records alone; a recorded fault stays; the phase never goes back to `UNCFG` (10_state.md R32,
R34, R40). -/
structure Kept (s t : State) : Prop where
  k : t.k = s.k
  n : t.n = s.n
  tag : t.tag = s.tag
  mode : t.mode = s.mode
  lat : t.lat = s.lat
  now : t.now = s.now
  port : t.port = s.port
  decoder : t.decoder = s.decoder
  events : ∃ l : List (List Byte × Verdict), t.events = s.events ++ l.map fun r => Event.tx r.1 r.2
  fault : s.fault = true → t.fault = true ∧ t.cause = s.cause ∧ t.info = s.info
  phase : t.phase = .uncfg → s.phase = .uncfg

theorem Kept.refl (s : State) : Kept s s :=
  ⟨rfl, rfl, rfl, rfl, rfl, rfl, rfl, rfl, ⟨[], by simp⟩, fun h => ⟨h, rfl, rfl⟩, id⟩

theorem Kept.trans {s t u : State} (h : Kept s t) (g : Kept t u) : Kept s u where
  k := g.k.trans h.k
  n := g.n.trans h.n
  tag := g.tag.trans h.tag
  mode := g.mode.trans h.mode
  lat := g.lat.trans h.lat
  now := g.now.trans h.now
  port := g.port.trans h.port
  decoder := g.decoder.trans h.decoder
  events := by
    obtain ⟨l, hl⟩ := h.events
    obtain ⟨m, hm⟩ := g.events
    exact ⟨l ++ m, by rw [hm, hl]; simp⟩
  fault hf := by
    obtain ⟨h1, h2, h3⟩ := h.fault hf
    obtain ⟨g1, g2, g3⟩ := g.fault h1
    exact ⟨g1, g2.trans h2, g3.trans h3⟩
  phase hp := h.phase (g.phase hp)

/-- An update of the engine's, the buffer's or the sequencer's registers keeps the rest. -/
theorem Kept.update (s : State) (ph : Phase) (b f m q : Nat) (fr ac : Memory) (l d : Nat) (dl : BitVec 64)
    (hp : ph = .uncfg → s.phase = .uncfg := by simp) :
    Kept s { s with phase := ph, blkIdx := b, frgIdx := f, blkMax := m, seq := q, frag := fr, acc := ac,
                    accLen := l, draws := d, deadline := dl } :=
  ⟨rfl, rfl, rfl, rfl, rfl, rfl, rfl, rfl, ⟨[], by simp⟩, fun h => ⟨h, rfl, rfl⟩, hp⟩

theorem Kept.transmit (f : List Byte) (v : Verdict) (s : State) : Kept s (s.transmit f v) :=
  ⟨rfl, rfl, rfl, rfl, rfl, rfl, rfl, rfl, ⟨[(f, v)], by simp⟩, fun h => ⟨h, rfl, rfl⟩, id⟩

theorem Kept.raiseFault (c : Cause) (v : Word) (s : State) : Kept s (s.raiseFault c v) :=
  ⟨by simp, by simp, by simp, by simp, by simp, by simp, by simp, by simp, ⟨[], by simp⟩,
    fun h => by simp [h], by simp⟩

/-- Two parts that keep the frame keep it together. -/
theorem Flow.Always.thenKept {f : Flow} {g : State → Flow} {s : State} (hf : f.Always (Kept s))
    (hg : ∀ t, (g t).Always (Kept t)) : (f.andThen g).Always (Kept s) :=
  Flow.Always.trans (R := Kept) Kept.trans hf hg

theorem emit_kept (e : Env) (i plen : Nat) (s : State) : (emit e i plen s).Always (Kept s) := by
  refine fragRead_always fun bs => ?_
  dsimp only
  cases e.linkDraw s.draws with
  | ok => exact Flow.always_run (Kept.transmit _ _ _)
  | fail => exact Flow.always_ended ((Kept.transmit _ _ _).trans (Kept.raiseFault _ _ _))

theorem writeParity_kept (e : Env) (ps : List (List Byte)) (i : Nat) (s : State) :
    (writeParity e ps i s).Always (Kept s) := by
  induction ps generalizing i s with
  | nil => exact Flow.always_run (Kept.refl s)
  | cons p ps ih =>
    exact Flow.Always.thenKept
      (fragWrite_always fun _ => Kept.update s s.phase s.blkIdx s.frgIdx s.blkMax s.seq _ s.acc s.accLen s.draws
        s.deadline) fun t => ih _ _

theorem fillParity_kept (e : Env) (s : State) : (fillParity e s).Always (Kept s) := by
  rw [fillParity]; split
  · exact readShards_always _ _ _ fun ds => writeParity_kept _ _ _ _
  · exact Flow.always_run (Kept.refl s)

theorem nextFragment_kept (s : State) : Kept s s.nextFragment :=
  Kept.update s s.phase s.blkIdx _ s.blkMax s.seq s.frag s.acc s.accLen s.draws s.deadline

theorem emitParity_kept (e : Env) (fuel : Nat) (s : State) : (emitParity e fuel s).Always (Kept s) := by
  induction fuel generalizing s with
  | zero => exact Flow.always_run (Kept.refl s)
  | succ fuel ih =>
    rw [emitParity]; split
    · exact ((emit_kept e _ _ s).thenKept fun t => Flow.always_run (nextFragment_kept t)).thenKept fun t => ih t
    · exact Flow.always_run (Kept.refl s)

theorem closeBlock_kept (e : Env) (s : State) : Kept s (closeBlock e s) :=
  Kept.update s s.phase _ _ _ s.seq s.frag s.acc s.accLen s.draws s.deadline

theorem fecStep_kept (e : Env) (s : State) : (fecStep e s).Always (Kept s) :=
  ((fillParity_kept e s).thenKept fun t => emitParity_kept e _ t).thenKept
    fun t => Flow.always_run (closeBlock_kept e t)

theorem fillFragment_kept (e : Env) (p : List Byte) (s : State) : (fillFragment e p s).Always (Kept s) := by
  have w : ∀ (i off : Nat) (bs : List Byte) (t : State), (fragWrite e i off bs t).Always (Kept t) :=
    fun i off bs t => fragWrite_always fun _ =>
      Kept.update t t.phase t.blkIdx t.frgIdx t.blkMax t.seq _ t.acc t.accLen t.draws t.deadline
  exact ((w _ _ _ s).thenKept fun t => (w _ _ _ t).thenKept fun u => w _ _ _ u).thenKept
    fun t => Flow.always_run
      (Kept.update t t.phase t.blkIdx t.frgIdx _ _ t.frag t.acc t.accLen t.draws t.deadline)

theorem accept_kept (e : Env) (p : List Byte) (s : State) : (accept e p s).Always (Kept s) := by
  rw [accept]; split
  · exact Flow.always_ended (Kept.raiseFault _ _ _)
  · refine (fillFragment_kept e p s).thenKept fun t => (emit_kept e _ _ t).thenKept fun u => ?_
    dsimp only; split
    · exact Flow.always_run (nextFragment_kept u)
    · exact (fecStep_kept e _).mono fun _ h => (nextFragment_kept u).trans h

theorem flush_kept (e : Env) (s : State) : (flush e s).Always (Kept s) :=
  (accRead_always fun bs => accept_kept e bs s).thenKept fun t => Flow.always_run
    (Kept.update t t.phase t.blkIdx t.frgIdx t.blkMax t.seq t.frag t.acc 0 t.draws t.deadline)

theorem restartDeadline_kept (s : State) : Kept s s.restartDeadline :=
  Kept.update s s.phase s.blkIdx s.frgIdx s.blkMax s.seq s.frag s.acc s.accLen s.draws _

theorem timeout_kept (e : Env) (s : State) : (timeout e s).Always (Kept s) := by
  refine Flow.Always.thenKept ?_ fun t => Flow.always_run (restartDeadline_kept t)
  rw [flushIfAny]; split
  · exact flush_kept e s
  · exact Flow.always_run (Kept.refl s)

theorem checkTimeout_kept (e : Env) (s : State) : (checkTimeout e s).Always (Kept s) := by
  rw [checkTimeout]; split
  · exact timeout_kept e s
  · exact Flow.always_run (Kept.refl s)

theorem checkTimeoutIfIdle_kept (e : Env) (s : State) : (checkTimeoutIfIdle e s).Always (Kept s) := by
  rw [checkTimeoutIfIdle]; split
  · exact checkTimeout_kept e s
  · exact Flow.always_run (Kept.refl s)

theorem dgramAgg_kept (e : Env) (p : List Byte) (s : State) : (dgramAgg e p s).Always (Kept s) := by
  have w : ∀ (off : Nat) (t : State), (accWrite e off p t).Always (Kept t) := fun off t => accWrite_always
    (Kept.update t t.phase t.blkIdx t.frgIdx t.blkMax t.seq t.frag _ t.accLen t.draws t.deadline)
  have l : ∀ (n : Nat) (t : State), Kept t { t with accLen := n } := fun n t =>
    Kept.update t t.phase t.blkIdx t.frgIdx t.blkMax t.seq t.frag t.acc n t.draws t.deadline
  have hd : Kept s { s with phase := .drain } :=
    Kept.update s .drain s.blkIdx s.frgIdx s.blkMax s.seq s.frag s.acc s.accLen s.draws s.deadline
  suffices h : (dgramAgg e p s).Always (Kept { s with phase := .drain }) from h.mono fun _ ht => hd.trans ht
  rw [dgramAgg]; dsimp only; split
  · rw [startNewBuffer]
    refine Flow.Always.thenKept ?_ fun t => ?_
    · split
      · exact (flush_kept e _).thenKept fun t => Flow.always_run (restartDeadline_kept t)
      · exact Flow.always_run (Kept.refl _)
    · split
      · exact Flow.always_ended (Kept.raiseFault _ _ _)
      · exact (w _ t).thenKept fun u => Flow.always_run (l _ u)
  · exact (w _ _).thenKept fun u => Flow.always_run (l _ u)

end Sys2Proof.Machine
end

