-- ==== Sys2Proof/Laws/Exec.lean ====
section
/-!
SUPPORT. How a command is dispatched (43_control.md R210, R217), said once for all of them: every command but `RDCSR` is
`command` of its micro-steps.
-/

namespace Sys2Proof.Machine

/-! ## `command` -/

theorem command_halt {w : Word} {l : Bool} {b : State → Flow} {s : State} (h : s.phase = .halt) :
    command w l b s = .next s := if_pos h

theorem command_legal {w : Word} {l : Bool} {b : State → Flow} {s : State} (h : s.phase ≠ .halt) (hl : l = true) :
    command w l b s = (b s).outcome := by rw [command, if_neg h, if_pos hl]

theorem command_illegal {w : Word} {l : Bool} {b : State → Flow} {s : State} (h : s.phase ≠ .halt) (hl : l = false) :
    command w l b s = .next (s.raiseFault .illegalCmd w) := by rw [command, if_neg h, if_neg (by simp [hl])]

/-! ## The micro-steps of each command -/

/-- What a legal command does; an `RDCSR` has no micro-step that can end early. -/
def microSteps (e : Env) (i : Instr) (s : State) : Flow :=
  match i with
  | .wrcfg c v => writeCsr (Instr.wrcfg c v).commandWord c v s
  | .rdcsr c => .run (s.respond (readCsr c s))
  | .start =>
    if configLegal e s then
      if (constructCore s).mode = .aggregation then checkTimeout e (constructCore s) else .run (constructCore s)
    else raise .usageError (s.k ++ s.n) s
  | .dgram p =>
    match s.mode with
    | .passThrough => accept e p s
    | .aggregation => dgramAgg e p s
  | .srcEmpty => checkTimeout e { s with phase := .idle }
  | .srcErr => raise .sourceReadError 0 s
  | .intr => checkTimeoutIfIdle e s
  | .time v => if v < s.now then raise .badTime (v.extractLsb' 0 32) s else checkTimeoutIfIdle e { s with now := v }

theorem execIn_eq_command (e : Env) {i : Instr} (s : State) (hi : ∀ c, i ≠ .rdcsr c) :
    execIn e i s = command i.commandWord (legal i s.phase s.mode) (microSteps e i) s := by
  cases i with
  | rdcsr c => exact absurd rfl (hi c)
  | _ => rfl

/-- A command that is legal runs its micro-steps. -/
theorem execIn_legal (e : Env) {i : Instr} {s : State} (h : s.phase ≠ .halt) (hl : legal i s.phase s.mode = true) :
    execIn e i s = (microSteps e i s).outcome := by
  cases i with
  | rdcsr c => rfl
  | _ => rw [execIn_eq_command e s (by simp)]; exact command_legal h hl

/-- A command that is not legal raises `ILLEGAL_CMD` with its command word. -/
theorem execIn_illegal (e : Env) {i : Instr} {s : State} (h : s.phase ≠ .halt) (hl : legal i s.phase s.mode = false) :
    execIn e i s = .next (s.raiseFault .illegalCmd i.commandWord) := by
  cases i with
  | rdcsr c => cases hl
  | _ => rw [execIn_eq_command e s (by simp)]; exact command_illegal h hl

/-- In `HALT` every command but `RDCSR` is discarded. -/
theorem execIn_halt (e : Env) {i : Instr} {s : State} (h : s.phase = .halt) (hi : ∀ c, i ≠ .rdcsr c) :
    execIn e i s = .next s := by
  rw [execIn_eq_command e s hi]; exact command_halt h

/-- The four ways a command ends in a next state. -/
theorem execIn_next {e : Env} {i : Instr} {s t : State} (h : execIn e i s = .next t) :
    (∃ c, i = .rdcsr c ∧ t = s.respond (readCsr c s)) ∨
    (s.phase = .halt ∧ t = s) ∨
    (s.phase ≠ .halt ∧ legal i s.phase s.mode = false ∧ t = s.raiseFault .illegalCmd i.commandWord) ∨
    (s.phase ≠ .halt ∧ legal i s.phase s.mode = true ∧ (microSteps e i s).outcome = .next t) := by
  by_cases hi : ∃ c, i = .rdcsr c
  · obtain ⟨c, rfl⟩ := hi
    cases h
    exact .inl ⟨c, rfl, rfl⟩
  · have hi : ∀ c, i ≠ .rdcsr c := fun c hc => hi ⟨c, hc⟩
    by_cases hp : s.phase = .halt
    · rw [execIn_halt e hp hi] at h
      cases h
      exact .inr (.inl ⟨hp, rfl⟩)
    · cases hl : legal i s.phase s.mode with
      | false =>
        rw [execIn_illegal e hp hl] at h
        cases h
        exact .inr (.inr (.inl ⟨hp, rfl, rfl⟩))
      | true =>
        rw [execIn_legal e hp hl] at h
        exact .inr (.inr (.inr ⟨hp, rfl, h⟩))

/-! ## What the micro-steps keep -/

/-- The commands that run the engine or the ingestion keep the frame of `Kept`; `TIME` starts from the new time. -/
theorem microSteps_kept (e : Env) (i : Instr) (s : State) :
    (microSteps e i s).Always fun t =>
      (∃ c v, i = .wrcfg c v ∧ (microSteps e i s = .run t ∨ microSteps e i s = .ended t)) ∨
      (∃ c, i = .rdcsr c ∧ t = s.respond (readCsr c s)) ∨
      (∃ v, i = .time v ∧ s.now ≤ v ∧ Kept { s with now := v } t) ∨
      Kept s t := by
  cases i with
  | wrcfg c v => exact fun t ht => .inl ⟨c, v, rfl, ht⟩
  | rdcsr c => exact Flow.always_run (.inr (.inl ⟨c, rfl, rfl⟩))
  | start =>
    rw [microSteps]
    have hc : Kept s (constructCore s) := Kept.update s .idle 0 0 0 0 s.frag s.acc 0 s.draws _
    split
    · split
      · exact (checkTimeout_kept e _).mono fun t ht => .inr (.inr (.inr (hc.trans ht)))
      · exact Flow.always_run (.inr (.inr (.inr hc)))
    · exact Flow.always_ended (.inr (.inr (.inr (Kept.raiseFault _ _ _))))
  | dgram p =>
    rw [microSteps]
    split
    · exact (accept_kept e p s).mono fun t ht => .inr (.inr (.inr ht))
    · exact (dgramAgg_kept e p s).mono fun t ht => .inr (.inr (.inr ht))
  | srcEmpty =>
    exact (checkTimeout_kept e _).mono fun t ht => .inr (.inr (.inr
      ((Kept.update s .idle s.blkIdx s.frgIdx s.blkMax s.seq s.frag s.acc s.accLen s.draws s.deadline).trans ht)))
  | srcErr => exact Flow.always_ended (.inr (.inr (.inr (Kept.raiseFault _ _ _))))
  | intr => exact (checkTimeoutIfIdle_kept e _).mono fun t ht => .inr (.inr (.inr ht))
  | time v =>
    rw [microSteps]
    split
    · exact Flow.always_ended (.inr (.inr (.inr (Kept.raiseFault _ _ _))))
    · rename_i hv
      exact (checkTimeoutIfIdle_kept e _).mono fun t ht => .inr (.inr (.inl ⟨v, rfl, by simpa using hv, ht⟩))

/-! ## What a command can change, once for all eight -/

/-- How the state `t` after the command `i` relates to the state `s` before it: a `WRCFG` that is legal changes
configuration registers alone, an `RDCSR` the history alone, a `TIME` that is taken moves `NOW` forward and keeps the
frame from there, and everything else keeps the frame. -/
inductive Changes (s t : State) : Instr → Prop where
  | wrcfg (c : Csr) (v : Word) (hp : s.phase = .uncfg)
    (ht : t = { s with k := t.k, n := t.n, tag := t.tag, mode := t.mode, lat := t.lat }) : Changes s t (.wrcfg c v)
  | rdcsr (c : Csr) (ht : t = s.respond (readCsr c s)) : Changes s t (.rdcsr c)
  | time (v : BitVec 64) (hv : s.now ≤ v) (hk : Kept { s with now := v } t) : Changes s t (.time v)
  | kept (i : Instr) (hk : Kept s t) (hi : ∀ c, i ≠ .rdcsr c) : Changes s t i

theorem execIn_changes {e : Env} {i : Instr} {s t : State} (h : execIn e i s = .next t) : Changes s t i := by
  by_cases hi : ∃ c, i = .rdcsr c
  · obtain ⟨c, rfl⟩ := hi
    cases h; exact .rdcsr _ rfl
  have hi : ∀ c, i ≠ .rdcsr c := fun c hc => hi ⟨c, hc⟩
  rcases execIn_next h with ⟨c, rfl, rfl⟩ | ⟨_, rfl⟩ | ⟨_, _, rfl⟩ | ⟨hp, hl, h⟩
  · exact .rdcsr _ rfl
  · exact .kept _ (Kept.refl _) hi
  · exact .kept _ (Kept.raiseFault _ _ _) hi
  · rcases (microSteps_kept e i s).outcome h with ⟨c, v, rfl, -⟩ | ⟨c, rfl, rfl⟩ | ⟨v, rfl, hv, hk⟩ | hk
    · have hp : s.phase = .uncfg ∧ csrWritable c = true := by simpa [legal] using hl
      refine .wrcfg c v hp.1 ?_
      have hw := hp.2
      cases c <;> cases hw <;> cases h <;> rfl
    · exact .rdcsr _ rfl
    · exact .time v hv hk
    · exact .kept _ hk hi

/-- A malformed word keeps the frame: it is discarded or raises. -/
theorem execMalformed_kept {w : Word} {s t : State} (h : execMalformed w s = .next t) : Kept s t := by
  by_cases hp : s.phase = .halt
  · rw [execMalformed, command_halt hp] at h
    cases h; exact Kept.refl _
  · rw [execMalformed, command_illegal hp rfl] at h
    cases h; exact Kept.raiseFault _ _ _

/-! ## The step -/

/-- The three ways a step ends in a next state. -/
theorem step_next {s t : State} (h : step s = .next t) :
    (decode (s.decoder ++ s.port) = .incomplete ∧ t = { s with decoder := s.decoder ++ s.port, port := [] }) ∨
    (∃ w rest, decode (s.decoder ++ s.port) = .malformedWord w rest ∧
      execMalformed w { s with decoder := [], port := rest } = .next t) ∨
    (∃ i rest, decode (s.decoder ++ s.port) = .command i rest ∧
      exec i { s with decoder := [], port := rest } = .next t) := by
  rw [step, fetch] at h
  cases hd : decode (s.decoder ++ s.port) with
  | incomplete => rw [hd] at h; cases h; exact .inl ⟨rfl, rfl⟩
  | malformedWord w rest => rw [hd] at h; exact .inr (.inl ⟨w, rest, rfl, h⟩)
  | command i rest => rw [hd] at h; exact .inr (.inr ⟨i, rest, rfl, h⟩)

end Sys2Proof.Machine
end

