-- ==== Sys2Proof/Laws/Invariant.lean ====
section
/-!
SUPPORT. From a state that meets the invariant every operation runs or raises a fault, and leaves the invariant: the
parts of `State.Inv`, and one lemma per operation, composed by `Flow.Lands`.
-/

namespace Sys2Proof.Machine

/-! ## Where a sequence of micro-steps lands -/

/-- The micro-steps go on in a state with `R` or a raise ended them in a state with `H`; the model does not stop. -/
def Flow.Lands (f : Flow) (R H : State → Prop) : Prop :=
  match f with
  | .run t => R t
  | .ended t => H t
  | .fault _ => False
  | .refused _ => False

theorem Flow.Lands.andThen {f : Flow} {g : State → Flow} {R R' H : State → Prop} (hf : f.Lands R H)
    (hg : ∀ t, R t → (g t).Lands R' H) : (f.andThen g).Lands R' H := by
  cases f with
  | run t => exact hg t hf
  | ended t => exact hf
  | fault r => exact hf
  | refused r => exact hf

theorem Flow.Lands.mono {f : Flow} {R R' H H' : State → Prop} (hf : f.Lands R H) (hr : ∀ t, R t → R' t)
    (hh : ∀ t, H t → H' t) : f.Lands R' H' := by
  cases f with
  | run t => exact hr t hf
  | ended t => exact hh t hf
  | fault r => exact hf
  | refused r => exact hf

theorem Flow.Lands.next {f : Flow} {R H : State → Prop} (hf : f.Lands R H) :
    ∃ t, f.outcome = .next t ∧ (R t ∨ H t) := by
  cases f with
  | run t => exact ⟨t, rfl, .inl hf⟩
  | ended t => exact ⟨t, rfl, .inr hf⟩
  | fault r => exact hf.elim
  | refused r => exact hf.elim

/-! ## The parts of the invariant -/

/-- What holds in every phase. -/
structure Base (e : Env) (s : State) : Prop where
  fragWf : Memory.wf s.frag
  fragBound : ∀ c ∈ s.frag, c.1 < e.par.nMax * e.par.fragCap
  accWf : Memory.wf s.acc
  accBound : ∀ c ∈ s.acc, c.1 < e.par.aggCap
  blkIdxFits : s.blkIdx < 2 ^ e.par.wBlk
  frgIdxFits : s.frgIdx ≤ e.par.nMax
  blkMaxFits : s.blkMax ≤ e.par.fragCap
  seqFits : s.seq < 2 ^ e.par.wSeq
  accLenFits : s.accLen ≤ e.par.aggCap
  decoderPartial : ∀ w ws, s.decoder = w :: ws → ws.length < follow w
  framesFit : ∀ r ∈ s.txStream, r.1.length ≤ e.par.maxFrame

/-- A halted state. -/
structure Halted (e : Env) (s : State) : Prop extends Base e s where
  halt : s.phase = .halt
  fault : s.fault = true
  cause : s.cause ≠ .none

/-- No fault is recorded. -/
structure Clean (s : State) : Prop where
  fault : s.fault = false
  cause : s.cause = .none
  info : s.info = 0

/-- A run in progress, inside a command or between two: items 1 to 6 of R37. -/
structure Live (e : Env) (s : State) : Prop extends Base e s, Clean s where
  config : configLegal e s
  slot : s.frgIdx < s.k.toNat
  emptyBlock : s.blkMax = 0 ↔ s.frgIdx = 0
  framed : 0 < s.frgIdx → e.par.hPkt ≤ s.blkMax ∧ s.blkMax ≤ e.par.fragCap
  fragments : ∀ j < s.frgIdx, s.holdsFragment e j
  buffered : ∃ bs, Memory.readBytes s.acc 0 s.accLen = some bs
  framesOk : ∀ r ∈ s.txStream, r.2 = .ok

theorem State.Inv.base {e : Env} {s : State} (h : s.Inv e) : Base e s :=
  ⟨h.fragWf, h.fragBound, h.accWf, h.accBound, h.blkIdxFits, h.frgIdxFits, h.blkMaxFits, h.seqFits, h.accLenFits,
    h.decoderPartial, h.framesFit⟩

theorem State.Inv.clean {e : Env} {s : State} (h : s.Inv e) (hp : s.phase ≠ .halt) : Clean s := by
  have hf : s.fault = false := by
    cases hf : s.fault with
    | false => rfl
    | true => exact absurd (h.faultHalt.1 hf) hp
  refine ⟨hf, ?_, h.noInfo hf⟩
  by_contra hc
  have := h.faultCause.2 hc
  rw [hf] at this; cases this

theorem State.Inv.live {e : Env} {s : State} (h : s.Inv e) (hp : s.phase = .idle ∨ s.phase = .drain) : Live e s := by
  have hr := h.running hp
  have hh : s.phase ≠ .halt := by rcases hp with hp | hp <;> rw [hp] <;> decide
  exact { h.base, h.clean hh with
    config := hr.config, slot := hr.slot, emptyBlock := hr.emptyBlock, framed := hr.framed,
    fragments := hr.fragments, buffered := hr.buffered.2, framesOk := h.framesOk hh }

theorem Halted.inv {e : Env} {s : State} (h : Halted e s) : s.Inv e :=
  { h.toBase with
    faultHalt := by simp [h.halt, h.fault]
    faultCause := by simp [h.fault, h.cause]
    noInfo := by simp [h.fault]
    unstarted := by simp [h.halt]
    running := by simp [h.halt]
    framesOk := by simp [h.halt] }

/-- Items 7 and 8 of R37. -/
structure Settled (s : State) : Prop where
  phase : s.phase = .idle ∨ s.phase = .drain
  passThrough : s.mode = .passThrough → s.accLen = 0 ∧ s.phase = .idle
  deadlineAhead : s.mode = .aggregation → s.phase = .idle →
    s.now < s.deadline ∨ s.lat = 0 ∨ s.deadline = BitVec.ofNat 64 (2 ^ 64 - 1)

theorem State.Inv.settled {e : Env} {s : State} (h : s.Inv e) (hp : s.phase = .idle ∨ s.phase = .drain) : Settled s :=
  ⟨hp, (h.running hp).passThrough, (h.running hp).deadlineAhead⟩

theorem Live.inv {e : Env} {s : State} (h : Live e s) (hs : Settled s) : s.Inv e :=
  { h.toBase with
    faultHalt := by rcases hs.phase with hp | hp <;> simp [hp, h.fault]
    faultCause := by simp [h.fault, h.cause]
    noInfo := fun _ => h.info
    unstarted := by rcases hs.phase with hp | hp <;> simp [hp]
    running := fun _ => {
      config := h.config, slot := h.slot, emptyBlock := h.emptyBlock, framed := h.framed, fragments := h.fragments,
      buffered := ⟨h.accLenFits, h.buffered⟩, passThrough := hs.passThrough, deadlineAhead := hs.deadlineAhead }
    framesOk := fun _ => h.framesOk }

theorem Live.engineOk {e : Env} {s : State} (h : Live e s) : EngineOk e s :=
  ⟨h.fragWf, h.fragBound, h.config, h.slot, h.blkMaxFits, fun j hj => by
    obtain ⟨q, p, -, -, hr⟩ := h.fragments j hj; exact ⟨_, hr⟩⟩

/-- Raising a fault from a state in order halts in one. -/
theorem Base.raise {e : Env} {s : State} (h : Base e s) (hc : Clean s) {c : Cause} (hne : c ≠ .none) (v : Word) :
    Halted e (s.raiseFault c v) := by
  exact {
    fragWf := by simpa using h.fragWf
    fragBound := by simpa using h.fragBound
    accWf := by simpa using h.accWf
    accBound := by simpa using h.accBound
    blkIdxFits := by simpa using h.blkIdxFits
    frgIdxFits := by simpa using h.frgIdxFits
    blkMaxFits := by simpa using h.blkMaxFits
    seqFits := by simpa using h.seqFits
    accLenFits := by simpa using h.accLenFits
    decoderPartial := by simpa using h.decoderPartial
    framesFit := by rw [State.txStream_raiseFault]; exact h.framesFit
    halt := by simp
    fault := by simp
    cause := by simp [hc.fault, hne] }

/-! ## ACCEPT -/

/-- The TX records of a list of accepted frames. -/
theorem filterMap_txRecord_ok (l : List (List Byte)) :
    (l.map (Event.tx · .ok)).filterMap Event.txRecord? = l.map fun x => (x, Verdict.ok) := by
  simp [List.filterMap_map, Function.comp_def]

/-- The engine's part of a state, and all the rest as it was. -/
abbrev SameOutside (s t : State) : Prop :=
  t = { s with frag := t.frag, seq := t.seq, blkMax := t.blkMax, frgIdx := t.frgIdx, blkIdx := t.blkIdx,
               events := t.events, draws := t.draws }

theorem dataFrame_fits {e : Env} {p : List Byte} {s : State} (h : EngineOk e s)
    (hcap : e.par.hPkt + p.length ≤ e.par.fragCap) : (dataFrame e p s).length ≤ e.par.maxFrame :=
  length_buildFrame_le _ _ _ _ _ (afterData_blkMax h hcap)

theorem parityFrames_fit {e : Env} {s : State} (h : s.blkMax ≤ e.par.fragCap) :
    ∀ f ∈ parityFrames e s, f.length ≤ e.par.maxFrame := by
  intro f hf
  simp only [parityFrames, List.mem_map] at hf
  obtain ⟨q, -, rfl⟩ := hf
  exact length_buildFrame_le _ _ _ _ _ h

/-- What `ACCEPT` leaves where it runs: the open block one fragment further, or a new block. -/
theorem accept_lands {e : Env} {s : State} (p : List Byte) (h : Live e s) :
    (accept e p s).Lands
      (fun t => Live e t ∧ SameOutside s t ∧ t.seq = (s.seq + 1) % 2 ^ e.par.wSeq ∧
        (t = blockOpen e p s ∨ t = blockDone e p s) ∧ e.par.hPkt + p.length ≤ e.par.fragCap)
      (Halted e) := by
  have hE := h.engineOk
  have hpos := hPkt_pos e
  have h2 : 0 < 2 ^ e.par.wSeq := Nat.pow_pos (by decide)
  have h3 : 0 < 2 ^ e.par.wBlk := Nat.pow_pos (by decide)
  have hbuilt := hE.slotBuilt
  have hcfg := h.config
  rcases accept_cases p hE with ⟨-, ha⟩ | ⟨hcap, hrest⟩
  · rw [ha]; exact h.toBase.raise h.toClean (by decide) _
  have hmax := afterData_blkMax hE hcap
  have hwf := afterData_wf (e := e) (p := p) h.fragWf
  have hbd := afterData_bound hE hcap
  have hpar := parityMemory_spec hE hcap
  have hdf := dataFrame_fits hE hcap
  have hpf : ∀ f ∈ parityFrames e (afterData e p s), f.length ≤ e.par.maxFrame := parityFrames_fit hmax
  rcases hrest with ⟨-, ha⟩ | ⟨-, hk, ha⟩ | ⟨-, hk, ⟨f, hf, ha⟩ | ha⟩
  · rw [ha]
    refine Base.raise (s := { afterData e p s with
      events := s.events ++ [.tx (dataFrame e p s) .fail], draws := s.draws + 1 })
      { fragWf := hwf, fragBound := hbd, accWf := h.accWf, accBound := h.accBound, blkIdxFits := h.blkIdxFits,
        frgIdxFits := h.frgIdxFits, blkMaxFits := hmax, seqFits := Nat.mod_lt _ h2, accLenFits := h.accLenFits,
        decoderPartial := h.decoderPartial, framesFit := ?_ } ⟨h.fault, h.cause, h.info⟩ (by decide) _
    intro r hr
    have : r ∈ s.txStream ++ [(dataFrame e p s, Verdict.fail)] := by
      simpa [State.txStream] using hr
    rcases List.mem_append.1 this with hr | hr
    · exact h.framesFit r hr
    · rw [List.mem_singleton.1 hr]; exact hdf
  · rw [ha]
    have htx : (blockOpen e p s).txStream = s.txStream ++ [(dataFrame e p s, Verdict.ok)] := by
      simp [State.txStream, blockOpen]
    refine ⟨{
        fragWf := hwf, fragBound := hbd, accWf := h.accWf, accBound := h.accBound, blkIdxFits := h.blkIdxFits,
        frgIdxFits := ?_, blkMaxFits := hmax, seqFits := Nat.mod_lt _ h2, accLenFits := h.accLenFits,
        decoderPartial := h.decoderPartial, framesFit := ?_, fault := h.fault, cause := h.cause, info := h.info,
        config := h.config, slot := hk, emptyBlock := ?_, framed := ?_, fragments := ?_, buffered := h.buffered,
        framesOk := ?_ }, rfl, rfl, .inl rfl, hcap⟩
    · show s.frgIdx + 1 ≤ _; omega
    · intro r hr
      rw [htx] at hr
      rcases List.mem_append.1 hr with hr | hr
      · exact h.framesFit r hr
      · rw [List.mem_singleton.1 hr]; exact hdf
    · show max s.blkMax (e.par.hPkt + p.length) = 0 ↔ s.frgIdx + 1 = 0
      omega
    · exact fun _ => ⟨by show _ ≤ max s.blkMax (e.par.hPkt + p.length); omega, hmax⟩
    · intro j hj
      have hj : j < s.frgIdx + 1 := hj
      by_cases hji : j = s.frgIdx
      · refine ⟨s.seq, p, Nat.le_max_right .., ?_, ?_⟩
        · show (s.seq + (s.frgIdx + 1 - j)) % _ = (s.seq + 1) % _
          rw [hji, Nat.add_sub_cancel_left]
        · rw [hji]; exact afterData_slot hcap
      · obtain ⟨q, pl, hlen, hq, hr⟩ := h.fragments j (by omega)
        refine ⟨q, pl, le_trans hlen (Nat.le_max_left ..), ?_, (afterData_other hcap hji).trans hr⟩
        show (q + (s.frgIdx + 1 - j)) % _ = (s.seq + 1) % _
        rw [← hq, Nat.mod_add_mod]
        congr 1; omega
    · intro r hr
      rw [htx] at hr
      rcases List.mem_append.1 hr with hr | hr
      · exact h.framesOk r hr
      · rw [List.mem_singleton.1 hr]
  · rw [ha]
    refine Base.raise (s := { afterData e p s with
      frag := parityMemory e (afterData e p s), frgIdx := s.k.toNat + f,
      events := s.events ++ .tx (dataFrame e p s) .ok ::
        (((parityFrames e (afterData e p s)).take f).map (Event.tx · .ok) ++
          [.tx ((parityFrames e (afterData e p s)).getD f []) .fail]),
      draws := s.draws + 1 + (f + 1) })
      { fragWf := hpar.1, fragBound := hpar.2.1, accWf := h.accWf, accBound := h.accBound,
        blkIdxFits := h.blkIdxFits, frgIdxFits := ?_, blkMaxFits := hmax, seqFits := Nat.mod_lt _ h2,
        accLenFits := h.accLenFits, decoderPartial := h.decoderPartial, framesFit := ?_ }
      ⟨h.fault, h.cause, h.info⟩ (by decide) _
    · show s.k.toNat + f ≤ _; have := hcfg.2.2; omega
    · intro r hr
      have hlt : f < (parityFrames e (afterData e p s)).length := by rw [length_parityFrames]; exact hf
      have : r ∈ s.txStream ++ (dataFrame e p s, Verdict.ok) ::
          (((parityFrames e (afterData e p s)).take f).map (fun x => (x, Verdict.ok)) ++
            [((parityFrames e (afterData e p s)).getD f [], Verdict.fail)]) := by
        simpa only [State.txStream, List.filterMap_append, List.filterMap_cons, List.filterMap_nil,
          Event.txRecord?_tx, filterMap_txRecord_ok] using hr
      rcases List.mem_append.1 this with hr | hr
      · exact h.framesFit r hr
      rcases List.mem_cons.1 hr with hr | hr
      · rw [hr]; exact hdf
      rcases List.mem_append.1 hr with hr | hr
      · obtain ⟨x, hx, rfl⟩ := List.mem_map.1 hr
        exact hpf x (List.mem_of_mem_take hx)
      · rw [List.mem_singleton.1 hr]
        refine hpf _ ?_
        rw [List.getD_eq_getElem _ _ hlt]
        exact List.getElem_mem hlt
  · rw [ha]
    have htx : (blockDone e p s).txStream = s.txStream ++ (dataFrame e p s, Verdict.ok) ::
        (parityFrames e (afterData e p s)).map (fun x => (x, Verdict.ok)) := by
      simp [State.txStream, blockDone, List.filterMap_map, Function.comp_def]
    refine ⟨{
        fragWf := hpar.1, fragBound := hpar.2.1, accWf := h.accWf, accBound := h.accBound,
        blkIdxFits := Nat.mod_lt _ h3, frgIdxFits := Nat.zero_le _, blkMaxFits := Nat.zero_le _,
        seqFits := Nat.mod_lt _ h2, accLenFits := h.accLenFits,
        decoderPartial := h.decoderPartial, framesFit := ?_, fault := h.fault, cause := h.cause, info := h.info,
        config := h.config, slot := ?_, emptyBlock := ?_, framed := ?_, fragments := ?_, buffered := h.buffered,
        framesOk := ?_ }, rfl, rfl, .inr rfl, hcap⟩
    · intro r hr
      rw [htx] at hr
      rcases List.mem_append.1 hr with hr | hr
      · exact h.framesFit r hr
      rcases List.mem_cons.1 hr with hr | hr
      · rw [hr]; exact hdf
      · obtain ⟨x, hx, rfl⟩ := List.mem_map.1 hr
        exact hpf x hx
    · exact hcfg.1
    · simp [blockDone]
    · intro hpos; exact absurd hpos (by simp [blockDone])
    · intro j hj; exact absurd hj (by simp [blockDone])
    · intro r hr
      rw [htx] at hr
      rcases List.mem_append.1 hr with hr | hr
      · exact h.framesOk r hr
      rcases List.mem_cons.1 hr with hr | hr
      · rw [hr]
      · obtain ⟨x, -, rfl⟩ := List.mem_map.1 hr; rfl

end Sys2Proof.Machine
end

