-- ==== Sys2Proof/Laws/Ingestion.lean ====
section
/-!
SUPPORT. What `FLUSH`, `TIMEOUT`, `CHECK_TIMEOUT` and the two `DGRAM` disciplines do to a run in progress
(42_ingestion.md).
-/

namespace Sys2Proof.Machine

/-! ## Live states under the simple updates -/

/-- Phase, clock and deadline are no part of `Live`. -/
theorem Live.retime {e : Env} {s : State} (h : Live e s) (p : Phase) (nw dl : BitVec 64) :
    Live e { s with phase := p, now := nw, deadline := dl } where
  fragWf := h.fragWf
  fragBound := h.fragBound
  accWf := h.accWf
  accBound := h.accBound
  blkIdxFits := h.blkIdxFits
  frgIdxFits := h.frgIdxFits
  blkMaxFits := h.blkMaxFits
  seqFits := h.seqFits
  accLenFits := h.accLenFits
  decoderPartial := h.decoderPartial
  framesFit := h.framesFit
  fault := h.fault
  cause := h.cause
  info := h.info
  config := h.config
  slot := h.slot
  emptyBlock := h.emptyBlock
  framed := h.framed
  fragments := h.fragments
  buffered := h.buffered
  framesOk := h.framesOk

/-- The accumulation buffer may take any readable content within its bound. -/
theorem Live.withAcc {e : Env} {s : State} (h : Live e s) {m : Memory} {l : Nat} (hwf : Memory.wf m)
    (hb : ∀ c ∈ m, c.1 < e.par.aggCap) (hl : l ≤ e.par.aggCap) (hr : ∃ bs, Memory.readBytes m 0 l = some bs) :
    Live e { s with acc := m, accLen := l } where
  fragWf := h.fragWf
  fragBound := h.fragBound
  accWf := hwf
  accBound := hb
  blkIdxFits := h.blkIdxFits
  frgIdxFits := h.frgIdxFits
  blkMaxFits := h.blkMaxFits
  seqFits := h.seqFits
  accLenFits := hl
  decoderPartial := h.decoderPartial
  framesFit := h.framesFit
  fault := h.fault
  cause := h.cause
  info := h.info
  config := h.config
  slot := h.slot
  emptyBlock := h.emptyBlock
  framed := h.framed
  fragments := h.fragments
  buffered := hr
  framesOk := h.framesOk

theorem Live.readBuffered {e : Env} {s : State} (h : Live e s) :
    Memory.readBytes s.acc 0 s.accLen = some s.buffered := by
  obtain ⟨bs, hbs⟩ := h.buffered
  rw [State.buffered, hbs]; rfl

theorem Live.length_buffered {e : Env} {s : State} (h : Live e s) : s.buffered.length = s.accLen :=
  Memory.readBytes_length h.readBuffered

/-! ## FLUSH, TIMEOUT, CHECK_TIMEOUT -/

/-- `FLUSH` is `ACCEPT` of the buffer's content, then `ACC_LEN <- 0` (R176). -/
theorem flush_eq {e : Env} {s : State} (hl : s.accLen ≤ e.par.aggCap)
    (hr : Memory.readBytes s.acc 0 s.accLen = some s.buffered) :
    flush e s = (accept e s.buffered s).andThen fun t => .run { t with accLen := 0 } := by
  rw [flush, accRead_eq _ (by omega) hr]

/-- What a flush that runs leaves: the unit accepted, the buffer empty, everything outside the engine as it was. -/
structure Flushed (e : Env) (s t : State) : Prop where
  live : Live e t
  accepted : ∃ u, accept e s.buffered s = .run u ∧ t = { u with accLen := 0 }
  outside : t = { s with frag := t.frag, seq := t.seq, blkMax := t.blkMax, frgIdx := t.frgIdx, blkIdx := t.blkIdx,
                         events := t.events, draws := t.draws, accLen := 0 }
  counted : t.seq = (s.seq + 1) % 2 ^ e.par.wSeq

theorem flush_lands {e : Env} {s : State} (h : Live e s) : (flush e s).Lands (Flushed e s) (Halted e) := by
  rw [flush_eq h.accLenFits h.readBuffered]
  have ha := accept_lands s.buffered h
  cases hf : accept e s.buffered s with
  | run u =>
    rw [hf] at ha
    obtain ⟨hlive, hout, hseq, -, -⟩ := ha
    refine ⟨hlive.withAcc hlive.accWf hlive.accBound (Nat.zero_le _) ⟨[], rfl⟩, ⟨u, hf, rfl⟩, ?_, hseq⟩
    rw [hout]
  | ended u => rw [hf] at ha; exact ha
  | fault r => rw [hf] at ha; exact ha
  | refused r => rw [hf] at ha; exact ha

/-- What a timeout that runs leaves: the buffer empty and the deadline restarted from the current `NOW` (R177). -/
structure TimedOut (e : Env) (s t : State) : Prop where
  live : Live e t
  outside : t = { s with frag := t.frag, seq := t.seq, blkMax := t.blkMax, frgIdx := t.frgIdx, blkIdx := t.blkIdx,
                         events := t.events, draws := t.draws, accLen := 0,
                         deadline := sat64 (s.now.toNat + s.lat.toNat) }
  counted : t.seq = if s.accLen = 0 then s.seq else (s.seq + 1) % 2 ^ e.par.wSeq

theorem timeout_lands {e : Env} {s : State} (h : Live e s) : (timeout e s).Lands (TimedOut e s) (Halted e) := by
  rw [timeout, flushIfAny]
  by_cases hz : 0 < s.accLen
  · rw [if_pos hz]
    refine (flush_lands h).andThen fun t ht => ?_
    refine ⟨ht.live.retime t.phase t.now _, ?_, ?_⟩
    · have := ht.outside
      generalize t.frag = a1, t.seq = a2, t.blkMax = a3, t.frgIdx = a4, t.blkIdx = a5, t.events = a6, t.draws = a7
        at this
      subst this
      rfl
    · rw [if_neg (by omega)]; exact ht.counted
  · have hz : s.accLen = 0 := by omega
    rw [if_neg (by omega)]
    refine ⟨h.retime s.phase s.now _, ?_, ?_⟩
    · cases s; simp only at hz; subst hz; rfl
    · rw [if_pos hz]; rfl

/-- A deadline restarted at `NOW` is ahead, or `LAT = 0`, or it is saturated (R37 item 8). -/
theorem sat64_ahead (nw : BitVec 64) (lat : BitVec 32) :
    nw < sat64 (nw.toNat + lat.toNat) ∨ lat = 0 ∨ sat64 (nw.toNat + lat.toNat) = BitVec.ofNat 64 (2 ^ 64 - 1) := by
  have hn := nw.isLt
  by_cases hl : lat = 0
  · exact .inr (.inl hl)
  have hl : 0 < lat.toNat := by
    rcases Nat.eq_zero_or_pos lat.toNat with h | h
    · exact absurd (BitVec.eq_of_toNat_eq h) hl
    · exact h
  by_cases hs : nw.toNat + lat.toNat ≤ 2 ^ 64 - 1
  · left
    rw [sat64, Nat.min_eq_left hs, BitVec.lt_def, BitVec.toNat_ofNat, Nat.mod_eq_of_lt (by omega)]
    omega
  · right; right
    rw [sat64, Nat.min_eq_right (by omega)]

/-- What a timeout check that runs leaves, in the phase it was made in. -/
structure Checked (e : Env) (s t : State) : Prop where
  live : Live e t
  phase : t.phase = s.phase
  mode : t.mode = s.mode
  now : t.now = s.now
  lat : t.lat = s.lat
  ahead : t.now < t.deadline ∨ t.lat = 0 ∨ t.deadline = BitVec.ofNat 64 (2 ^ 64 - 1)
  accLen : t.accLen = 0 ∨ t.accLen = s.accLen

theorem checkTimeout_lands {e : Env} {s : State} (h : Live e s) :
    (checkTimeout e s).Lands (Checked e s) (Halted e) := by
  rw [checkTimeout]
  by_cases hd : s.deadline ≤ s.now
  · rw [if_pos hd]
    refine (timeout_lands h).mono (fun t ht => ?_) fun _ ht => ht
    have e1 := congrArg State.phase ht.outside
    have e2 := congrArg State.mode ht.outside
    have e3 := congrArg State.now ht.outside
    have e4 := congrArg State.lat ht.outside
    have e5 := congrArg State.deadline ht.outside
    refine ⟨ht.live, e1, e2, e3, e4, ?_, .inl (congrArg State.accLen ht.outside)⟩
    rw [e3, e4, e5]
    exact sat64_ahead _ _
  · rw [if_neg hd]
    exact ⟨h, rfl, rfl, rfl, rfl, .inl (by simpa using hd), .inr rfl⟩

/-! ## DGRAM in aggregation -/

/-- The buffer after an append within its bound holds the old content and the datagram. -/
theorem readBytes_append {m : Memory} {l : Nat} {old p : List Byte} (h : Memory.readBytes m 0 l = some old) :
    Memory.readBytes (Memory.writeBytes m l p) 0 (l + p.length) = some (old ++ p) := by
  obtain ⟨hlen, hall⟩ := Memory.readBytes_eq_some.1 h
  refine Memory.readBytes_eq_some.2 ⟨by simp [hlen], fun i hi => ?_⟩
  rw [Nat.zero_add, Memory.read_writeBytes]
  by_cases hil : i < l
  · rw [if_neg (by omega), List.getElem?_append_left (by omega)]
    have := hall i hil
    rwa [Nat.zero_add] at this
  · rw [if_pos (by omega), List.getElem?_append_right (by omega), hlen]

/-- `DGRAM_AGG` that fits: the datagram is appended, a drain is on (R172). -/
theorem dgramAgg_fits {e : Env} {s : State} {p : List Byte} (hfit : s.accLen + p.length ≤ e.par.aggCap) :
    dgramAgg e p s = .run { s with
      phase := .drain, acc := Memory.writeBytes s.acc s.accLen p, accLen := s.accLen + p.length } := by
  rw [dgramAgg]
  show (if _ then _ else _) = _
  rw [if_neg (by show ¬ e.par.aggCap < s.accLen + p.length; omega), appendToBuffer, accWrite_eq _ hfit]
  rfl

/-- What `DGRAM_AGG` leaves where it runs (R172): a drain; the datagram behind the old content, nothing emitted; or the old
content flushed and the datagram alone in the buffer. -/
structure Gathered (e : Env) (s : State) (p : List Byte) (t : State) : Prop where
  live : Live e t
  phase : t.phase = .drain
  mode : t.mode = s.mode
  now : t.now = s.now
  lat : t.lat = s.lat
  content :
    (t.seq = s.seq ∧ s.accLen + p.length ≤ e.par.aggCap ∧ t.deadline = s.deadline ∧
      t.buffered = s.buffered ++ p) ∨
    (t.seq = (s.seq + 1) % 2 ^ e.par.wSeq ∧ 0 < s.accLen ∧ t.deadline = sat64 (s.now.toNat + s.lat.toNat) ∧
      t.buffered = p)

theorem dgramAgg_lands {e : Env} {s : State} (p : List Byte) (h : Live e s) :
    (dgramAgg e p s).Lands (Gathered e s p) (Halted e) := by
  by_cases hfit : s.accLen + p.length ≤ e.par.aggCap
  · rw [dgramAgg_fits hfit]
    have hr := readBytes_append (p := p) h.readBuffered
    refine ⟨(h.retime .drain s.now s.deadline).withAcc (Memory.wf_writeBytes h.accWf _ _)
      (Memory.bound_writeBytes h.accBound hfit) hfit ⟨_, hr⟩, rfl, rfl, rfl, rfl, .inl ⟨rfl, hfit, rfl, ?_⟩⟩
    show (Memory.readBytes _ 0 _).getD [] = _
    rw [hr]; rfl
  · have hl := h.retime .drain s.now s.deadline
    rw [dgramAgg]
    show Flow.Lands (if _ then _ else _) _ _
    rw [if_pos (by show e.par.aggCap < s.accLen + p.length; omega), startNewBuffer]
    -- a datagram alone in an emptied or empty buffer
    have store : ∀ t, Live e t → p.length ≤ e.par.aggCap →
        ((accWrite e 0 p t).andThen fun u => .run { u with accLen := p.length }) =
          .run { t with acc := Memory.writeBytes t.acc 0 p, accLen := p.length } ∧
        Live e { t with acc := Memory.writeBytes t.acc 0 p, accLen := p.length } ∧
        ({ t with acc := Memory.writeBytes t.acc 0 p, accLen := p.length } : State).buffered = p := by
      intro t ht hp
      have hr := Memory.readBytes_writeBytes_same t.acc 0 p
      refine ⟨by rw [accWrite_eq _ (by omega)]; rfl, ht.withAcc (Memory.wf_writeBytes ht.accWf _ _)
        (Memory.bound_writeBytes ht.accBound (by omega)) hp ⟨_, hr⟩, ?_⟩
      show (Memory.readBytes _ 0 _).getD [] = _
      rw [hr]; rfl
    by_cases hz : 0 < s.accLen
    · rw [if_pos (show 0 < ({ s with phase := Phase.drain } : State).accLen from hz), Flow.andThen_assoc]
      refine (flush_lands hl).andThen fun t ht => ?_
      rw [Flow.run_andThen]
      have hlt := ht.live.retime t.phase t.now (sat64 (t.now.toNat + t.lat.toNat))
      have e1 := congrArg State.phase ht.outside
      have e2 := congrArg State.mode ht.outside
      have e3 := congrArg State.now ht.outside
      have e4 := congrArg State.lat ht.outside
      by_cases hp : e.par.aggCap < p.length
      · rw [if_pos hp]; exact hlt.toBase.raise hlt.toClean (by decide) _
      · rw [if_neg hp]
        obtain ⟨h1, h2, h3⟩ := store _ hlt (by omega)
        show Flow.Lands (Flow.andThen (accWrite e 0 p t.restartDeadline) _) _ _
        rw [show t.restartDeadline =
          { t with phase := t.phase, now := t.now, deadline := sat64 (t.now.toNat + t.lat.toNat) } from rfl, h1]
        refine ⟨h2, e1, e2, e3, e4, .inr ⟨ht.counted, hz, ?_, h3⟩⟩
        show sat64 (t.now.toNat + t.lat.toNat) = _
        rw [e3, e4]
    · rw [if_neg (show ¬ 0 < ({ s with phase := Phase.drain } : State).accLen from hz), Flow.run_andThen]
      have hp : e.par.aggCap < p.length := by omega
      rw [if_pos hp]
      exact hl.toBase.raise hl.toClean (by decide) _

end Sys2Proof.Machine
end

