-- ==== Sys2Proof/Laws/Outside.lean ====
section
/-!
SUPPORT. What `ACCEPT` leaves alone, from EVERY state: all that is outside the engine where it runs, and all but the fault
registers and the phase where it raises (60_exceptions.md R235); and which bytes of `FRAG` it stores to (20_memory.md R61,
R62).
-/

namespace Sys2Proof.Machine

/-- If `f` runs on, `R` holds of the state it leaves; if it raises, that state is a `raiseFault` of one where `R` holds. -/
def Flow.Ends (f : Flow) (R : State → Prop) : Prop :=
  match f with
  | .run t => R t
  | .ended t => ∃ u c v, R u ∧ t = State.raiseFault c v u
  | .fault _ => True
  | .refused _ => True

theorem Flow.ends_run {s : State} {R : State → Prop} (h : R s) : (Flow.run s).Ends R := h

theorem Flow.Ends.andThen {f : Flow} {g : State → Flow} {R Q : State → Prop} (hf : f.Ends R) (h : ∀ t, R t → Q t)
    (hg : ∀ t, R t → (g t).Ends Q) : (f.andThen g).Ends Q := by
  cases f with
  | run t => exact hg t hf
  | ended t => obtain ⟨u, c, v, hu, ht⟩ := hf; exact ⟨u, c, v, h u hu, ht⟩
  | fault r => trivial
  | refused r => trivial

theorem Flow.Ends.mono {f : Flow} {R Q : State → Prop} (hf : f.Ends R) (h : ∀ t, R t → Q t) : f.Ends Q := by
  cases f with
  | run t => exact h t hf
  | ended t => obtain ⟨u, c, v, hu, ht⟩ := hf; exact ⟨u, c, v, h u hu, ht⟩
  | fault r => trivial
  | refused r => trivial

/-- The next state of a command whose micro-steps end so. -/
theorem Flow.Ends.outcome {f : Flow} {R : State → Prop} (hf : f.Ends R) {t : State} (h : f.outcome = .next t) :
    R t ∨ ∃ u c v, R u ∧ t = State.raiseFault c v u := by
  cases f with
  | run u => cases h; exact .inl hf
  | ended u => cases h; exact .inr hf
  | fault r => cases h
  | refused r => cases h

theorem fragRead_ends {e : Env} {i off n : Nat} {s : State} {k : List Byte → Flow} {R : State → Prop}
    (h : ∀ bs, (k bs).Ends R) : (fragRead e i off n s k).Ends R := by
  rw [fragRead]; split
  · split
    · exact h _
    · trivial
  · trivial

theorem accRead_ends {e : Env} {off n : Nat} {s : State} {k : List Byte → Flow} {R : State → Prop}
    (h : ∀ bs, (k bs).Ends R) : (accRead e off n s k).Ends R := by
  rw [accRead]; split
  · split
    · exact h _
    · trivial
  · trivial

theorem fragWrite_ends {e : Env} {i off : Nat} {bs : List Byte} {s : State} {R : State → Prop}
    (h : off + bs.length ≤ e.par.fragCap →
      R { s with frag := Memory.writeBytes s.frag (i * e.par.fragCap + off) bs }) :
    (fragWrite e i off bs s).Ends R := by
  rw [fragWrite]; split
  · rename_i hb; exact h hb.2
  · trivial

theorem readShards_ends {e : Env} {s : State} {R : State → Prop} (count j : Nat) (k : List (List Byte) → Flow)
    (h : ∀ ds, (k ds).Ends R) : (readShards e count j s k).Ends R := by
  induction count generalizing j k with
  | zero => exact h _
  | succ count ih => exact fragRead_ends fun bs => ih _ _ fun ds => h _

/-! ## The engine -/

/-- The bytes of the open slot, and those of the parity buffers once the last slot is filled. -/
abbrev storesTo (e : Env) (s : State) (a : Nat) : Prop :=
  (s.frgIdx * e.par.fragCap ≤ a ∧ a < (s.frgIdx + 1) * e.par.fragCap) ∨
  (s.k.toNat ≤ s.frgIdx + 1 ∧ s.k.toNat * e.par.fragCap ≤ a ∧ a < s.n.toNat * e.par.fragCap)

/-- Only the engine's part may differ, and of `FRAG` only bytes of `W`. -/
structure EngineOnly (W : Nat → Prop) (s t : State) : Prop where
  outside : SameOutside s t
  stored : ∀ a, ¬ W a → Memory.read t.frag a = Memory.read s.frag a

theorem EngineOnly.trans {W : Nat → Prop} {s t u : State} (h : EngineOnly W s t) (g : EngineOnly W t u) :
    EngineOnly W s u := by
  refine ⟨?_, fun a ha => (g.stored a ha).trans (h.stored a ha)⟩
  have h1 := h.outside
  have h2 := g.outside
  show u = _
  rw [h2, h1]

theorem EngineOnly.refl {W : Nat → Prop} (s : State) : EngineOnly W s s := ⟨rfl, fun _ _ => rfl⟩

/-- The registers it keeps, one by one. -/
theorem EngineOnly.fields {W : Nat → Prop} {s t : State} (h : EngineOnly W s t) :
    t.phase = s.phase ∧ t.acc = s.acc ∧ t.accLen = s.accLen ∧ t.deadline = s.deadline ∧ t.fault = s.fault ∧ t.cause = s.cause ∧ t.info = s.info :=
by
  have h1 := h.outside
  rw [show t = _ from h1]
  exact ⟨rfl, rfl, rfl, rfl, rfl, rfl, rfl⟩

theorem Flow.Ends.thenEngine {f : Flow} {g : State → Flow} {W : Nat → Prop} {s : State}
    (hf : f.Ends (EngineOnly W s)) (hg : ∀ t, EngineOnly W s t → (g t).Ends (EngineOnly W t)) :
    (f.andThen g).Ends (EngineOnly W s) :=
  hf.andThen (fun _ h => h) fun t ht => (hg t ht).mono fun _ hu => ht.trans hu

theorem emit_ends (e : Env) (W : Nat → Prop) (i plen : Nat) (s : State) :
    (emit e i plen s).Ends (EngineOnly W s) := by
  refine fragRead_ends fun bs => ?_
  dsimp only
  cases e.linkDraw s.draws with
  | ok => exact ⟨rfl, fun _ _ => rfl⟩
  | fail => exact ⟨s.transmit _ .fail, _, _, ⟨rfl, fun _ _ => rfl⟩, rfl⟩

theorem fragWrite_engine {e : Env} {W : Nat → Prop} {i off : Nat} {bs : List Byte} {s : State}
    (hW : ∀ a, i * e.par.fragCap ≤ a → a < (i + 1) * e.par.fragCap → W a) :
    (fragWrite e i off bs s).Ends (EngineOnly W s) := by
  refine fragWrite_ends fun hb => ⟨rfl, fun a ha => ?_⟩
  refine Memory.read_writeBytes_outside ?_
  by_contra hcon
  refine ha (hW a (by omega) ?_)
  rw [Nat.add_mul, Nat.one_mul]
  omega

theorem writeParity_ends {e : Env} {W : Nat → Prop} (ps : List (List Byte)) (i : Nat) (s : State)
    (hW : ∀ a, i * e.par.fragCap ≤ a → a < (i + ps.length) * e.par.fragCap → W a) :
    (writeParity e ps i s).Ends (EngineOnly W s) := by
  induction ps generalizing i s with
  | nil => exact EngineOnly.refl s
  | cons p ps ih =>
    have h1 : (i + 1) * e.par.fragCap ≤ (i + (p :: ps).length) * e.par.fragCap :=
      Nat.mul_le_mul_right _ (by simp)
    have h2 : i * e.par.fragCap ≤ (i + 1) * e.par.fragCap := Nat.mul_le_mul_right _ (by omega)
    refine Flow.Ends.thenEngine (fragWrite_engine fun a ha hb => hW a ha (by omega)) fun t _ => ih _ _ fun a ha hb => ?_
    refine hW a (by omega) ?_
    rwa [show i + (p :: ps).length = i + 1 + ps.length by simp; omega]

theorem fillParity_ends {e : Env} {W : Nat → Prop} (s : State)
    (hW : ∀ a, s.k.toNat * e.par.fragCap ≤ a → a < s.n.toNat * e.par.fragCap → W a) :
    (fillParity e s).Ends (EngineOnly W s) := by
  rw [fillParity]; split
  · rename_i hk
    refine readShards_ends _ _ _ fun ds => writeParity_ends _ _ _ fun a ha hb => hW a ha ?_
    rwa [length_fecEncode, show s.k.toNat + (s.n.toNat - s.k.toNat) = s.n.toNat by omega] at hb
  · exact EngineOnly.refl s

theorem emitParity_ends (e : Env) (W : Nat → Prop) (fuel : Nat) (s : State) :
    (emitParity e fuel s).Ends (EngineOnly W s) := by
  induction fuel generalizing s with
  | zero => exact EngineOnly.refl s
  | succ fuel ih =>
    rw [emitParity]; split
    · have hn : ∀ t : State, (Flow.run t.nextFragment).Ends (EngineOnly W t) := fun t =>
        Flow.ends_run ⟨rfl, fun _ _ => rfl⟩
      exact ((emit_ends e W _ _ s).thenEngine fun t _ => hn t).thenEngine fun t _ => ih t
    · exact EngineOnly.refl s

theorem fecStep_ends {e : Env} {W : Nat → Prop} (s : State)
    (hW : ∀ a, s.k.toNat * e.par.fragCap ≤ a → a < s.n.toNat * e.par.fragCap → W a) :
    (fecStep e s).Ends (EngineOnly W s) :=
  ((fillParity_ends s hW).thenEngine fun t _ => emitParity_ends e W _ t).thenEngine
    fun t _ => Flow.ends_run (s := closeBlock e t) ⟨rfl, fun _ _ => rfl⟩

theorem fillFragment_ends {e : Env} {W : Nat → Prop} (p : List Byte) (s : State)
    (hW : ∀ a, s.frgIdx * e.par.fragCap ≤ a → a < (s.frgIdx + 1) * e.par.fragCap → W a) :
    (fillFragment e p s).Ends (fun t => EngineOnly W s t ∧ t.frgIdx = s.frgIdx) := by
  have w : ∀ (off : Nat) (bs : List Byte) (t : State), t.frgIdx = s.frgIdx →
      (fragWrite e t.frgIdx off bs t).Ends (fun u => EngineOnly W t u ∧ u.frgIdx = t.frgIdx) := fun off bs t ht =>
    fragWrite_ends fun hb => ⟨⟨rfl, fun a ha => by
      refine Memory.read_writeBytes_outside ?_
      by_contra hcon
      rw [ht] at hcon
      refine ha (hW a (by omega) ?_)
      rw [Nat.add_mul, Nat.one_mul]
      omega⟩, rfl⟩
  have tr : ∀ {t u : State}, EngineOnly W s t ∧ t.frgIdx = s.frgIdx → EngineOnly W t u ∧ u.frgIdx = t.frgIdx →
      EngineOnly W s u ∧ u.frgIdx = s.frgIdx := fun h g => ⟨h.1.trans g.1, g.2.trans h.2⟩
  refine Flow.Ends.andThen (R := fun t => EngineOnly W s t ∧ t.frgIdx = s.frgIdx) ?_ (fun _ h => h) fun t ht => ?_
  · refine (w _ _ s rfl).andThen (fun _ h => h) fun t ht => ?_
    refine ((w _ _ t ht.2).mono fun _ hu => tr ht hu).andThen (fun _ h => h) fun u hu => ?_
    exact (w _ _ u hu.2).mono fun _ hv => tr hu hv
  · exact tr ht ⟨⟨rfl, fun _ _ => rfl⟩, rfl⟩

/-- `ACCEPT` changes the engine's part alone, and of `FRAG` the bytes of `storesTo` alone. -/
theorem accept_ends (e : Env) (p : List Byte) (s : State) :
    (accept e p s).Ends (EngineOnly (storesTo e s) s) := by
  rw [accept]; split
  · exact ⟨s, _, _, EngineOnly.refl s, rfl⟩
  · refine (fillFragment_ends p s fun a ha hb => .inl ⟨ha, hb⟩).andThen (fun _ h => h.1) fun t ht => ?_
    have hsub : (emit e t.frgIdx t.blkMax t).Ends fun u => EngineOnly (storesTo e s) t u ∧ u.frgIdx = t.frgIdx := by
      refine fragRead_ends fun bs => ?_
      dsimp only
      cases e.linkDraw t.draws with
      | ok => exact ⟨⟨rfl, fun _ _ => rfl⟩, rfl⟩
      | fail => exact ⟨t.transmit _ .fail, _, _, ⟨⟨rfl, fun _ _ => rfl⟩, rfl⟩, rfl⟩
    refine hsub.andThen (fun _ h => ht.1.trans h.1) fun u hu => ?_
    have hv : EngineOnly (storesTo e s) s u.nextFragment :=
      (ht.1.trans hu.1).trans ⟨rfl, fun _ _ => rfl⟩
    dsimp only
    split
    · exact hv
    · rename_i hk
      refine (fecStep_ends _ fun a ha hb => .inr ⟨?_, ?_, ?_⟩).mono fun _ h => hv.trans h
      all_goals
        have h1 := congrArg State.k hv.outside
        have h2 := congrArg State.n hv.outside
        simp only at h1 h2
        rw [h1] at ha hk
        rw [h2] at hb
      · show s.k.toNat ≤ s.frgIdx + 1
        have h3 : u.nextFragment.frgIdx = s.frgIdx + 1 := by
          show u.frgIdx + 1 = _
          rw [hu.2, ht.2]
        omega
      · exact ha
      · exact hb

/-! ## The ingestion -/

/-- What a flush, or a timeout, leaves alone: the phase, the bytes of `ACC`, the fault registers, the bytes of `FRAG` that
the unit's `ACCEPT` does not store to; where nothing waits, the whole engine. -/
structure FlushOnly (e : Env) (s t : State) : Prop where
  phase : t.phase = s.phase
  acc : t.acc = s.acc
  fault : t.fault = s.fault ∧ t.cause = s.cause ∧ t.info = s.info
  stored : ∀ a, ¬ storesTo e s a → Memory.read t.frag a = Memory.read s.frag a
  idle : s.accLen = 0 →
    t.frag = s.frag ∧ t.blkIdx = s.blkIdx ∧ t.frgIdx = s.frgIdx ∧ t.blkMax = s.blkMax ∧ t.seq = s.seq ∧
      t.accLen = 0 ∧ t.events = s.events ∧ t.draws = s.draws

theorem flush_ends (e : Env) (s : State) (hz : 0 < s.accLen) : (flush e s).Ends (FlushOnly e s) := by
  refine Flow.Ends.andThen (R := FlushOnly e s)
    (accRead_ends fun bs => (accept_ends e bs s).mono fun t ht => ?_) (fun _ h => h) fun t ht => ?_
  · obtain ⟨f1, f2, f3, f4, f5, f6, f7⟩ := ht.fields
    exact ⟨f1, f2, ⟨f5, f6, f7⟩, ht.stored, by omega⟩
  · exact ⟨ht.phase, ht.acc, ht.fault, ht.stored, by omega⟩

theorem timeout_ends (e : Env) (s : State) : (timeout e s).Ends (FlushOnly e s) := by
  refine Flow.Ends.andThen (R := FlushOnly e s) ?_ (fun _ h => h) fun t ht => ?_
  · rw [flushIfAny]; split
    · rename_i h; exact flush_ends e s h
    · rename_i h; exact ⟨rfl, rfl, ⟨rfl, rfl, rfl⟩, fun _ _ => rfl, fun h0 => ⟨rfl, rfl, rfl, rfl, rfl, h0, rfl, rfl⟩⟩
  · exact ⟨ht.phase, ht.acc, ht.fault, ht.stored, ht.idle⟩

theorem checkTimeout_ends (e : Env) (s : State) : (checkTimeout e s).Ends (FlushOnly e s) := by
  rw [checkTimeout]; split
  · exact timeout_ends e s
  · exact ⟨rfl, rfl, ⟨rfl, rfl, rfl⟩, fun _ _ => rfl, fun h0 => ⟨rfl, rfl, rfl, rfl, rfl, h0, rfl, rfl⟩⟩

theorem checkTimeoutIfIdle_ends (e : Env) (s : State) : (checkTimeoutIfIdle e s).Ends (FlushOnly e s) := by
  rw [checkTimeoutIfIdle]; split
  · exact checkTimeout_ends e s
  · exact ⟨rfl, rfl, ⟨rfl, rfl, rfl⟩, fun _ _ => rfl, fun h0 => ⟨rfl, rfl, rfl, rfl, rfl, h0, rfl, rfl⟩⟩

/-- What `DGRAM_AGG` leaves alone (R172, R173): the fault registers, the bytes of `FRAG` that a flush does not store to, the
bytes of `ACC` that the datagram is not stored to; where nothing is flushed, the whole engine. -/
structure GatherOnly (e : Env) (p : List Byte) (s t : State) : Prop where
  phase : t.phase = .drain
  fault : t.fault = s.fault ∧ t.cause = s.cause ∧ t.info = s.info
  stored : ∀ a, ¬ storesTo e s a → Memory.read t.frag a = Memory.read s.frag a
  idle : s.accLen = 0 ∨ s.accLen + p.length ≤ e.par.aggCap →
    t.frag = s.frag ∧ t.blkIdx = s.blkIdx ∧ t.frgIdx = s.frgIdx ∧ t.blkMax = s.blkMax ∧ t.seq = s.seq ∧
      t.deadline = s.deadline ∧ t.events = s.events ∧ t.draws = s.draws
  acc : ∀ a, (let base := if s.accLen + p.length ≤ e.par.aggCap then s.accLen else 0
        a < base ∨ base + p.length ≤ a) → Memory.read t.acc a = Memory.read s.acc a

theorem accWrite_ends {e : Env} {off : Nat} {bs : List Byte} {s : State} {R : State → Prop}
    (h : R { s with acc := Memory.writeBytes s.acc off bs }) :
    (accWrite e off bs s).Ends R := by
  rw [accWrite]; split
  · exact h
  · trivial

theorem dgramAgg_ends (e : Env) (p : List Byte) (s : State) : (dgramAgg e p s).Ends (GatherOnly e p s) := by
  rw [dgramAgg]; dsimp only
  split
  · rename_i hov
    rw [startNewBuffer]
    refine Flow.Ends.andThen (R := GatherOnly e p s) ?_ (fun _ h => h) fun t ht => ?_
    · dsimp only; split
      · rename_i hz
        refine (flush_ends e { s with phase := .drain } hz).andThen (Q := GatherOnly e p s)
          (fun t ht => ?_) fun t ht => ?_
        · exact ⟨ht.phase, ht.fault, ht.stored, by have hz : 0 < s.accLen := hz; omega, fun a _ => by rw [ht.acc]⟩
        · exact ⟨ht.phase, ht.fault, ht.stored, by have hz : 0 < s.accLen := hz; omega,
            fun a _ => by show Memory.read t.acc a = _; rw [ht.acc]⟩
      · exact ⟨rfl, ⟨rfl, rfl, rfl⟩, fun _ _ => rfl, fun _ => ⟨rfl, rfl, rfl, rfl, rfl, rfl, rfl, rfl⟩, fun _ _ => rfl⟩
    · split
      · exact ⟨t, _, _, ht, rfl⟩
      · refine (accWrite_ends (R := GatherOnly e p s)
          ⟨ht.phase, ht.fault, ht.stored, ht.idle, fun a ha => ?_⟩).andThen (fun _ h => h) fun u hu => ?_
        · rw [if_neg (by omega)] at ha
          rw [← ht.acc a (by rwa [if_neg (by omega)])]
          exact Memory.read_writeBytes_outside ha
        · exact ⟨hu.phase, hu.fault, hu.stored, hu.idle, hu.acc⟩
  · rename_i hov
    rw [appendToBuffer]
    refine (accWrite_ends (s := { s with phase := .drain }) (R := GatherOnly e p s)
      ⟨rfl, ⟨rfl, rfl, rfl⟩, fun _ _ => rfl, fun _ => ⟨rfl, rfl, rfl, rfl, rfl, rfl, rfl, rfl⟩,
        fun a ha => ?_⟩).andThen (fun _ h => h) fun u hu => ?_
    · rw [if_pos (by omega)] at ha
      exact Memory.read_writeBytes_outside ha
    · exact ⟨hu.phase, hu.fault, hu.stored, hu.idle, hu.acc⟩

end Sys2Proof.Machine
end

