-- ==== Sys2Proof/Laws/PerInstr.lean ====
section
/-!
SUPPORT. Per command: its command word is well formed and its follow words are as many as the word asks for, so that the
decoder's framing and the encoder agree (30_encoding.md R91, R97).
-/

namespace Sys2Proof.Laws.Framing

/-- The framing of a command's own words. -/
def Statement (i : Instr) : Prop :=
  malformed i.commandWord = false ∧ (i.wellFormed = true → i.followWords.length = follow i.commandWord)

theorem wrcfg (c : Csr) (v : Word) : Statement (.wrcfg c v) := by
  refine ⟨?_, fun _ => ?_⟩
  · show malformed ((0x1 : BitVec 4) ++ c.number ++ (0 : BitVec 24)) = false
    rw [malformed, opField_csrWord, reservedC_csrWord]; rfl
  · show 1 = follow ((0x1 : BitVec 4) ++ c.number ++ (0 : BitVec 24))
    rw [follow, opField_csrWord, reservedC_csrWord]; rfl

theorem rdcsr (c : Csr) : Statement (.rdcsr c) := by
  refine ⟨?_, fun _ => ?_⟩
  · show malformed ((0x2 : BitVec 4) ++ c.number ++ (0 : BitVec 24)) = false
    rw [malformed, opField_csrWord, reservedC_csrWord]; rfl
  · show 0 = follow ((0x2 : BitVec 4) ++ c.number ++ (0 : BitVec 24))
    rw [follow, opField_csrWord]; rfl

theorem start : Statement .start := ⟨by decide, fun _ => by decide⟩

theorem dgram (p : List Byte) : Statement (.dgram p) := by
  refine ⟨malformed_dgramWord _, fun h => ?_⟩
  have h : p.length ≤ 65535 := by simpa [Instr.wellFormed] using h
  show (packBytes p).length = follow _
  rw [length_packBytes]
  refine (?_ : _ = (((BitVec.ofNat 16 p.length).toNat + 3) / 4)).trans (follow_dgramWord _).symm
  rw [BitVec.toNat_ofNat, Nat.mod_eq_of_lt (by omega)]

theorem srcEmpty : Statement .srcEmpty := ⟨by decide, fun _ => by decide⟩

theorem srcErr : Statement .srcErr := ⟨by decide, fun _ => by decide⟩

theorem intr : Statement .intr := ⟨by decide, fun _ => by decide⟩

theorem time (t : BitVec 64) : Statement (.time t) := by
  refine ⟨?_, fun _ => ?_⟩
  · show malformed 0x80000000 = false; decide
  · show 2 = follow 0x80000000; decide

end Sys2Proof.Laws.Framing
end

