-- ==== Sys2Proof/Laws/Units.lean ====
section
/-!
SUPPORT. What a command does to the block engine, said once for both modes: nothing, or one `ACCEPT` of its unit
(42_ingestion.md R170 to R180). And runs, command by command.
-/

namespace Sys2Proof.Machine

/-! ## One command -/

/-- The block engine and the TX stream are the same in both states. -/
structure SameEngine (s t : State) : Prop where
  blkIdx : t.blkIdx = s.blkIdx
  frgIdx : t.frgIdx = s.frgIdx
  blkMax : t.blkMax = s.blkMax
  seq : t.seq = s.seq
  frag : t.frag = s.frag
  txStream : t.txStream = s.txStream
  draws : t.draws = s.draws
  k : t.k = s.k
  n : t.n = s.n
  tag : t.tag = s.tag

theorem SameEngine.refl (s : State) : SameEngine s s := by constructor <;> rfl

theorem SameEngine.trans {s t u : State} (h : SameEngine s t) (g : SameEngine t u) : SameEngine s u :=
  ⟨g.1.trans h.1, g.2.trans h.2, g.3.trans h.3, g.4.trans h.4, g.5.trans h.5, g.6.trans h.6, g.7.trans h.7,
    g.8.trans h.8, g.9.trans h.9, g.10.trans h.10⟩

/-- What `ACCEPT` needs of the engine, in the other state. -/
theorem SameEngine.engineOk {e : Env} {s t : State} (h : SameEngine s t) (hs : EngineOk e s) : EngineOk e t := by
  refine ⟨by rw [h.frag]; exact hs.wf, by rw [h.frag]; exact hs.bound, ?_, by rw [h.frgIdx, h.k]; exact hs.slot,
    by rw [h.blkMax]; exact hs.blkMaxFits, by rw [h.frgIdx, h.frag]; exact hs.readable⟩
  exact ⟨by rw [h.k]; exact hs.config.1, by rw [h.k, h.n]; exact hs.config.2.1, by rw [h.n]; exact hs.config.2.2⟩

/-- A command that accepts at most the unit `p`. -/
inductive UnitStep (e : Env) (p : List Byte) (s t : State) : Prop where
  /-- the engine is left alone -/
  | quiet (h : SameEngine s t)
  /-- one `ACCEPT(p)`, which runs -/
  | counted (m u : State) (before : SameEngine s m) (runs : accept e p m = .run u) (after : SameEngine u t)

theorem UnitStep.before {e : Env} {p : List Byte} {s s' t : State} (h : SameEngine s s') (g : UnitStep e p s' t) :
    UnitStep e p s t := by
  cases g with
  | quiet g => exact .quiet (h.trans g)
  | counted m u hm ha hu => exact .counted m u (h.trans hm) ha hu

theorem UnitStep.after {e : Env} {p : List Byte} {s t t' : State} (g : UnitStep e p s t) (h : SameEngine t t') :
    UnitStep e p s t' := by
  cases g with
  | quiet g => exact .quiet (g.trans h)
  | counted m u hm ha hu => exact .counted m u hm ha (hu.trans h)

theorem acceptedUnit_aggregation {s : State} (h : s.mode = .aggregation) (i : Instr) : acceptedUnit i s = s.buffered := by
  unfold acceptedUnit; rw [h]

theorem acceptedUnit_passThrough {s : State} (h : s.mode = .passThrough) (p : List Byte) :
    acceptedUnit (.dgram p) s = p := by
  unfold acceptedUnit; rw [h]

theorem flush_unit {e : Env} {s t : State} (h : flush e s = .run t) : UnitStep e s.buffered s t := by
  obtain ⟨u, hu, ht⟩ := Flow.andThen_eq_run.1 h
  cases ht
  rw [accRead] at hu
  split at hu
  · cases hr : Memory.readBytes s.acc 0 s.accLen with
    | none => rw [hr] at hu; cases hu
    | some bs =>
      rw [hr] at hu
      refine .counted s u (.refl s) ?_ (by constructor <;> rfl)
      rw [State.buffered, hr]
      exact hu
  · cases hu

theorem checkTimeout_unit {e : Env} {s t : State} (h : checkTimeout e s = .run t) : UnitStep e s.buffered s t := by
  rw [checkTimeout] at h
  split at h
  · obtain ⟨u, hu, ht⟩ := Flow.andThen_eq_run.1 h
    cases ht
    rw [flushIfAny] at hu
    split at hu
    · exact (flush_unit hu).after (by constructor <;> rfl)
    · cases hu; exact .quiet (by constructor <;> rfl)
  · cases h; exact .quiet (.refl _)

theorem dgramAgg_unit {e : Env} {p : List Byte} {s t : State} (h : dgramAgg e p s = .run t) :
    UnitStep e s.buffered s t := by
  have wr : ∀ {off l : Nat} {u : State}, ((accWrite e off p u).andThen fun w => .run { w with accLen := l }) = .run t →
      SameEngine u t := by
    intro off l u hu
    obtain ⟨w, hw, ht⟩ := Flow.andThen_eq_run.1 hu
    cases ht
    rw [accWrite] at hw
    split at hw
    · cases hw; constructor <;> rfl
    · cases hw
  rw [dgramAgg] at h
  dsimp only at h
  split at h
  · obtain ⟨u, hu, ht⟩ := Flow.andThen_eq_run.1 h
    have hs : SameEngine u t := by
      split at ht
      · cases ht
      · exact wr ht
    refine UnitStep.after ?_ hs
    split at hu
    · obtain ⟨w, hw, hr⟩ := Flow.andThen_eq_run.1 hu
      cases hr
      exact ((flush_unit hw).before (by constructor <;> rfl)).after (by constructor <;> rfl)
    · cases hu; exact .quiet (by constructor <;> rfl)
  · obtain ⟨w, hw, ht⟩ := Flow.andThen_eq_run.1 h
    cases ht
    rw [accWrite] at hw
    split at hw
    · cases hw; exact .quiet (by constructor <;> rfl)
    · cases hw

/-- Micro-steps that a raise has ended have halted. -/
theorem microSteps_ended {e : Env} {i : Instr} {s t : State} (h : microSteps e i s = .ended t) : t.phase = .halt := by
  have fin : ∀ {f : Flow} {R : State → Prop}, f.Ends R → f = .ended t → t.phase = .halt := by
    intro f R hf he
    rw [he] at hf
    obtain ⟨u, c, v, -, rfl⟩ := hf
    simp
  have chk : ∀ u, checkTimeout e u = .ended t → t.phase = .halt := fun u => fin (checkTimeout_ends e u)
  have idle : ∀ u, checkTimeoutIfIdle e u = .ended t → t.phase = .halt := fun u => fin (checkTimeoutIfIdle_ends e u)
  cases i with
  | wrcfg c v => cases c <;> cases h <;> simp
  | rdcsr c => cases h
  | start =>
    rw [microSteps] at h
    split at h
    · split at h
      · exact chk _ h
      · cases h
    · cases h; simp
  | dgram p =>
    rw [microSteps] at h
    split at h
    · exact fin (accept_ends e p s) h
    · exact fin (dgramAgg_ends e p s) h
  | srcEmpty => exact chk _ h
  | srcErr => cases h; simp
  | intr => exact idle _ h
  | time v =>
    rw [microSteps] at h
    split at h
    · cases h; simp
    · exact idle _ h

/-- A command of a run in progress that does not halt: at most one `ACCEPT`, of its unit, is all it does to the engine. -/
theorem execIn_unit {e : Env} {i : Instr} {s t : State} (hp : s.phase = .idle ∨ s.phase = .drain)
    (h : execIn e i s = .next t) (ht : t.phase ≠ .halt) : UnitStep e (acceptedUnit i s) s t := by
  have hu : s.phase ≠ .uncfg := by rcases hp with hp | hp <;> rw [hp] <;> decide
  rcases execIn_next h with ⟨c, rfl, rfl⟩ | ⟨h', -⟩ | ⟨-, -, rfl⟩ | ⟨-, hl, h⟩
  · refine .quiet ⟨rfl, rfl, rfl, rfl, rfl, ?_, rfl, rfl, rfl, rfl⟩
    simp [State.respond, State.record, State.txStream, Event.txRecord?]
  · rw [h'] at hp; rcases hp with hp | hp <;> cases hp
  · exact absurd (by simp) ht
  have hr : microSteps e i s = .run t := by
    cases hm : microSteps e i s with
    | run u => rw [hm] at h; cases h; rfl
    | ended u => rw [hm] at h; cases h; exact absurd (microSteps_ended hm) ht
    | fault r => rw [hm] at h; cases h
    | refused r => rw [hm] at h; cases h
  have idle : ∀ {j : Instr} {u : State}, SameEngine s u → u.mode = s.mode → u.acc = s.acc → u.accLen = s.accLen →
      checkTimeoutIfIdle e u = .run t → UnitStep e (acceptedUnit j s) s t := by
    intro j u hs hmode hacc hlen hc
    rw [checkTimeoutIfIdle] at hc
    split at hc
    · rename_i hm
      rw [acceptedUnit_aggregation (hmode ▸ hm.2), show s.buffered = u.buffered by
        rw [State.buffered, State.buffered, hacc, hlen]]
      exact (checkTimeout_unit hc).before hs
    · cases hc; exact .quiet hs
  cases i with
  | wrcfg c v => simp [legal, hu] at hl
  | rdcsr c => cases hr; exact .quiet ⟨rfl, rfl, rfl, rfl, rfl, by
      simp [State.respond, State.record, State.txStream, Event.txRecord?], rfl, rfl, rfl, rfl⟩
  | start => simp [legal, hu] at hl
  | dgram p =>
    rw [microSteps] at hr
    cases hm : s.mode with
    | passThrough =>
      rw [hm] at hr
      rw [acceptedUnit_passThrough hm]
      exact .counted s t (.refl s) hr (.refl t)
    | aggregation =>
      rw [hm] at hr
      rw [acceptedUnit_aggregation hm]
      exact dgramAgg_unit hr
  | srcEmpty =>
    have hm : s.mode = .aggregation := by simpa [legal, hp] using hl
    rw [acceptedUnit_aggregation hm]
    exact (checkTimeout_unit (s := { s with phase := .idle }) hr).before (by constructor <;> rfl)
  | srcErr => cases hr
  | intr => exact idle (.refl s) rfl rfl rfl hr
  | time v =>
    rw [microSteps] at hr
    split at hr
    · cases hr
    · exact idle (u := { s with now := v }) (by constructor <;> rfl) rfl rfl rfl hr

/-! ## Runs -/

@[simp] theorem datagrams_append (is js : List Instr) : datagrams (is ++ js) = datagrams is ++ datagrams js := by
  induction is with
  | nil => rfl
  | cons i is ih => cases i <;> simp [datagrams, ih]

theorem payloads_cons (i : Instr) (is : List Instr) : payloads (i :: is) = payloads [i] ++ payloads is := by
  cases i <;> simp [payloads, datagrams]

/-- The first command of a run: it does not halt, and its unit, where it counts one, is the first of the run. -/
theorem acceptedUnits_cons {e : Env} {i : Instr} {is : List Instr} {s w : State} {ws : List (List Byte)} :
    acceptedUnits e (i :: is) s = some (ws, w) ↔
      ∃ t us, execIn e i s = .next t ∧ t.phase ≠ .halt ∧ acceptedUnits e is t = some (us, w) ∧
        ws = (if t.seq = s.seq then [] else [acceptedUnit i s]) ++ us := by
  rw [acceptedUnits]
  cases hx : execIn e i s with
  | next t =>
    dsimp only
    by_cases ht : t.phase = .halt
    · rw [if_pos ht]
      exact ⟨fun h => (nomatch h), fun ⟨t', _, h1, h2, _⟩ => by cases h1; exact absurd ht h2⟩
    · rw [if_neg ht]
      cases ha : acceptedUnits e is t with
      | none => exact ⟨fun h => (nomatch h), fun ⟨t', _, h1, _, h3, _⟩ => by cases h1; rw [ha] at h3; cases h3⟩
      | some r =>
        obtain ⟨us, u⟩ := r
        constructor
        · intro h
          cases h
          exact ⟨t, us, rfl, ht, ha, by split <;> rfl⟩
        · rintro ⟨t', us', h1, -, h3, rfl⟩
          cases h1
          rw [ha] at h3
          cases h3
          dsimp only
          congr 2
          split <;> rfl
  | fault r => exact ⟨fun h => (nomatch h), fun ⟨_, _, h, _⟩ => (nomatch h)⟩
  | refused r => exact ⟨fun h => (nomatch h), fun ⟨_, _, h, _⟩ => (nomatch h)⟩

/-- The last command of a run. -/
theorem acceptedUnits_snoc {e : Env} {is : List Instr} {i : Instr} {s w : State} {ws : List (List Byte)}
    (h : acceptedUnits e (is ++ [i]) s = some (ws, w)) :
    ∃ t us, acceptedUnits e is s = some (us, t) ∧ execIn e i t = .next w ∧ w.phase ≠ .halt ∧
      ws = us ++ if w.seq = t.seq then [] else [acceptedUnit i t] := by
  induction is generalizing s ws with
  | nil =>
    obtain ⟨t, us, h1, h2, h3, rfl⟩ := acceptedUnits_cons.1 h
    cases h3
    exact ⟨s, [], rfl, h1, h2, List.append_nil _⟩
  | cons j is ih =>
    obtain ⟨t, us, h1, h2, h3, rfl⟩ := acceptedUnits_cons.1 h
    obtain ⟨u, vs, g1, g2, g3, rfl⟩ := ih h3
    exact ⟨u, _, acceptedUnits_cons.2 ⟨t, vs, h1, h2, g1, rfl⟩, g2, g3, (List.append_assoc _ _ _).symm⟩

/-- A run that accepts units is a run of its commands. -/
theorem runCommands_of_acceptedUnits {e : Env} {is : List Instr} {s t : State} {us : List (List Byte)}
    (h : acceptedUnits e is s = some (us, t)) : runCommands e is s = .next t := by
  induction is generalizing s us with
  | nil => cases h; rfl
  | cons i is ih =>
    obtain ⟨u, us', h1, -, h3, -⟩ := acceptedUnits_cons.1 h
    rw [runCommands, h1]
    exact ih h3

end Sys2Proof.Machine
end

