-- ==== Sys2Proof/Tests/Slice0.lean ====
section
/-!
SUPPORT. Tests and witnesses. The tests run ONE step of `stepIn` in the spec's reference configuration REF with its XOR
coder (92_eei_decisions.md D5, D40); every expected value is copied from 95_test_vectors.md, whose vector is named. The
witnesses show, for each statement of Obligations.lean that has hypotheses, a concrete state and operands that meet them.
-/

namespace Sys2Proof.Tests

open Sys2Proof.Machine

/-! ## The reference environment and small states -/

/-- The test-only XOR coder of D40. -/
def xorByte : List (List Byte) → Nat → Byte
  | [], _ => 0
  | d :: ds, o => d.getD o 0 ^^^ xorByte ds o

/-- REF (95_test_vectors.md), with the link verdicts as an argument. -/
def refEnv (verdict : Nat → Verdict := fun _ => .ok) : Env where
  par := .ref
  valid := by decide
  fecByte := fun _ _ _ d _ o => xorByte d o
  linkDraw := verdict

/-- The state right after `boot 0, K, N, 0x5A, MODE, LAT`, written out field by field, with `waiting` in the buffer. -/
def booted (k n : BitVec 16) (mode : Mode) (lat : BitVec 32) (phase : Phase := .idle) (waiting : List Byte := []) :
    State :=
  { State.reset with
    phase := phase, k := k, n := n, tag := 0x5A, mode := mode, lat := lat, deadline := lat.setWidth 64
    acc := Memory.cells 0 waiting, accLen := waiting.length }

/-- The next state of an outcome. -/
def next? (o : Host.Outcome State Fault Refusal) : Option State :=
  match o with
  | .next s => some s
  | .fault _ => none
  | .refused _ => none

/-- What a test looks at: one value of the state that one step in REF leaves, the words on the port. -/
def after {α : Type} (f : State → α) (s : State) (ws : List Word) (verdict : Nat → Verdict := fun _ => .ok) : Option α :=
  (next? (stepIn (refEnv verdict) (s.offer ws))).map f

/-- The last response word. -/
def lastRsp (s : State) : Option Word := s.rspStream.getLast?

/-! ## WellFormed and decoding -/

/-- A datagram of 65536 bytes does not fit the field `len` (R94); one of 65535 does. -/
theorem test_wellFormed_refuses_a_long_datagram :
    (Instr.dgram (List.replicate 65536 0)).wellFormed = false ∧
    (Instr.dgram (List.replicate 65535 0)).wellFormed = true := by
  constructor <;> rw [Instr.wellFormed, List.length_replicate] <;> rfl

/-- One word of each row, written out from the bit fields of R92 to R96 and R98. -/
theorem test_decode_control :
    decode [0b00010100000000000000000000000000, 10] = .command (.wrcfg .lat 10) [] ∧
    decode [0b00101111000000000000000000000000] = .command (.rdcsr .faultInfo) [] ∧
    decode [0b00110000000000000000000000000000] = .command .start [] := by decide

theorem test_decode_ingestion :
    decode [0b01000000000000000000000000000101, 0x04030201, 0xEEEEEE05] = .command (.dgram [1, 2, 3, 4, 5]) [] ∧
    decode [0b01010000000000000000000000000000] = .command .srcEmpty [] ∧
    decode [0b01100000000000000000000000000000] = .command .srcErr [] ∧
    decode [0b01110000000000000000000000000000] = .command .intr [] ∧
    decode [0b10000000000000000000000000000000, 5, 1] = .command (.time 0x100000005) [] := by decide

/-- V-D8: five malformed words; none takes a follow word. -/
theorem test_decode_malformed :
    decode [0x30000001, 7] = .malformedWord 0x30000001 [7] ∧ decode [0x20000001, 7] = .malformedWord 0x20000001 [7] ∧
    decode [0x40010000, 7] = .malformedWord 0x40010000 [7] ∧ decode [0x90000000, 7] = .malformedWord 0x90000000 [7] ∧
    decode [0x00000000, 7] = .malformedWord 0x00000000 [7] := by decide

/-- R101: the words an assembler emits for two lines of P1. -/
theorem test_encode :
    encode (.dgram [0x11, 0x22, 0x33]) = [0x40000003, 0x00332211] ∧ encode (.wrcfg .n 3) = [0x11000000, 3] := by decide

/-- R102: the words of P2, lines 1 to 7, from the `boot` line; those of one burst. -/
theorem test_pseudo_words :
    (AsmLine.boot 100 2 2 0x01 1 10).words =
      [0x80000000, 0x00000064, 0x00000000, 0x10000000, 2, 0x11000000, 2, 0x12000000, 1, 0x13000000, 1,
       0x14000000, 0x0000000A, 0x30000000] ∧
    (AsmLine.burst [[0x44], []]).words = [0x40000001, 0x00000044, 0x40000000, 0x50000000] := by decide

/-! ## Frame builder -/

/-- V-B1 and V-B2. -/
theorem test_headers :
    linkPatch .ref 0x00 = [0xB0, 0xB1, 0xB2, 0x00, 0xB4, 0xB5, 0xB6, 0x00] ∧
    linkPatch .ref 0xB3 = [0xB0, 0xB1, 0xB2, 0xB3, 0xB4, 0xB5, 0xB6, 0xB3] ∧
    fragHdr .ref 0x010203 5 = [0x03, 0x02, 0x01, 0x05] ∧
    fragHdr { Params.ref with hdrOrder := .be } 0x010203 5 = [0x01, 0x02, 0x03, 0x05] := by decide

/-- V-B3: P1 frame 0 with big-endian header fields. -/
theorem test_frame_be :
    let p := { Params.ref with hdrOrder := .be }
    buildFrame p 0 0 0x5A (dataFragment p 0 [0x11, 0x22, 0x33]) 9 =
      [0xA0, 0xA1, 0xA2, 0xA3, 0xB0, 0xB1, 0xB2, 0x5A, 0xB4, 0xB5, 0xB6, 0x5A, 0, 0, 0, 0,
       0, 0, 0, 0, 0, 3, 0x11, 0x22, 0x33] := by decide

/-! ## WRCFG -/

/-- V-D2: the field takes its bits, the others are dropped. -/
theorem test_wrcfg_truncates : after State.k State.reset [0x10000000, 0x00010002] = some 2 := by decide

/-- V-D5 and V-D6: a locked register and a read-only one. -/
theorem test_wrcfg_illegal :
    after (fun s => (s.info, s.cause, s.port)) (booted 2 3 .passThrough 0) [0x12000000, 1] =
      some (0x12000000, .illegalCmd, []) ∧
    after (fun s => (s.info, s.cause, s.port)) State.reset [0x15000000, 0] = some (0x15000000, .illegalCmd, []) := by
  decide

/-! ## RDCSR -/

/-- P2, line 14 and 15: `DEADLINE_LO` and `STATUS`. -/
theorem test_rdcsr_answers :
    after lastRsp { booted 2 2 .aggregation 10 with deadline := 140 } [0x2B000000] = some (some 0x8C) ∧
    after lastRsp (booted 2 2 .aggregation 10) [0x25000000] = some (some 9) := by decide

/-- V-E1: an answer in `HALT`. -/
theorem test_rdcsr_in_halt :
    after lastRsp (State.raiseFault .payloadTooLarge 0x7B (booted 1 1 .passThrough 0)) [0x2F000000] =
      some (some 0x7B) := by decide

/-! ## START -/

/-- V-D3: three illegal configurations. -/
theorem test_start_usage_error :
    after (fun s => (s.info, s.status)) State.reset [0x30000000] = some (0, 0x47) ∧
    after (fun s => (s.info, s.status)) { State.reset with k := 3, n := 2 } [0x30000000] = some (0x00030002, 0x47) ∧
    after (fun s => (s.info, s.status)) { State.reset with k := 1, n := 17 } [0x30000000] = some (0x00010011, 0x47) := by
  decide

/-- V-D3, the legal boundary `N = N_MAX`, and V-C6: with `LAT = 0` an empty timeout inside `START`. -/
theorem test_start_legal :
    after State.phase { State.reset with k := 1, n := 16 } [0x30000000] = some .idle ∧
    after (fun s => (s.deadline, s.phase, s.events))
      { State.reset with k := 2, n := 3, mode := .aggregation, now := 50 } [0x30000000] = some (50, .idle, []) := by
  decide

/-! ## DGRAM -/

/-- The block of P1 after its first datagram. -/
def secondSlot : State :=
  { booted 2 3 .passThrough 0 with
    frgIdx := 1, blkMax := 9, seq := 1
    frag := Memory.cells 0 ([0, 0, 0, 0, 3, 0, 0x11, 0x22, 0x33] ++ List.replicate 119 0) }

set_option maxRecDepth 20000 in
/-- P1's second datagram: the data frame at the running maximum, the XOR parity frame, the block closed; and P5, the same
datagram with the verdict `fail`. -/
theorem test_dgram_pass_through :
    after (fun s => (s.txStream.map Prod.fst, s.blkIdx, s.frgIdx, s.blkMax, s.seq)) secondSlot [0x40000001, 0x44] =
      some ([[0xA0, 0xA1, 0xA2, 0xA3, 0xB0, 0xB1, 0xB2, 0x5A, 0xB4, 0xB5, 0xB6, 0x5A, 0, 0, 0, 1,
              1, 0, 0, 0, 1, 0, 0x44, 0, 0],
             [0xA0, 0xA1, 0xA2, 0xA3, 0xB0, 0xB1, 0xB2, 0x5A, 0xB4, 0xB5, 0xB6, 0x5A, 0, 0, 0, 2,
              1, 0, 0, 0, 2, 0, 0x55, 0x22, 0x33]], 1, 0, 0, 2) ∧
    after (fun s => (s.info, s.frgIdx, s.blkMax, s.seq, s.status)) secondSlot [0x40000001, 0x44] (fun _ => .fail) =
      some (1, 1, 9, 2, 0x27) := by decide +kernel

set_option maxRecDepth 20000 in
/-- P2's flush unit in an overflow (V-C2's rule): what waits is flushed as one unit, the datagram starts a new buffer; and
V-C5: an oversize datagram is refused after the flush. -/
theorem test_dgram_aggregation :
    after (fun s => (s.txStream.map Prod.fst, s.accLen, Memory.readBytes s.acc 0 1, s.phase))
        { booted 2 2 .aggregation 10 .drain (List.replicate 122 0xCC) with tag := 1 } [0x40000001, 0xFF] =
      some ([[0xA0, 0xA1, 0xA2, 0xA3, 0xB0, 0xB1, 0xB2, 0x01, 0xB4, 0xB5, 0xB6, 0x01, 0, 0, 0, 0,
              0, 0, 0, 0, 122, 0] ++ List.replicate 122 0xCC], 1, some [0xFF], .drain) ∧
    after (fun s => (s.info, s.status, s.accLen, s.txStream.length))
        (booted 2 3 .aggregation 10 .drain [1, 2, 3, 4]) (0x400000C8 :: List.replicate 50 0) = some (0xC8, 0x1F, 0, 1) := by decide +kernel

/-! ## SRC_EMPTY, SRC_ERR, INTR, TIME -/

set_option maxRecDepth 20000 in
/-- V-C8: the end of a drain fires the timeout that was due in it. -/
theorem test_srcEmpty_fires_a_due_timeout :
    after (fun s => (s.deadline, s.accLen, s.phase, s.txStream.length))
      { booted 2 3 .aggregation 10 .drain [0x77] with now := 500 } [0x50000000] = some (510, 0, .idle, 1) := by
  decide +kernel

/-- V-C12: `SRC_EMPTY` is illegal in pass-through. -/
theorem test_srcEmpty_in_pass_through :
    after (fun s => (s.info, s.status)) (booted 2 3 .passThrough 0) [0x50000000] = some (0x50000000, 0x57) := by decide

/-- V-C15, and the value of R175 for `MODE = 0`. -/
theorem test_srcErr :
    after (fun s => (s.info, s.status, s.accLen)) (booted 2 3 .aggregation 10 .drain [0xAA, 0xBB]) [0x60000000] =
      some (0, 0x3F, 2) ∧
    after State.status (booted 2 3 .passThrough 0) [0x60000000] = some 0x37 := by decide

/-- V-C11: nothing in a drain, a timeout in `IDLE` when it is due. -/
theorem test_intr :
    after (fun s => (s.phase, s.deadline)) { booted 2 3 .aggregation 10 .drain with now := 30 } [0x70000000] =
      some (.drain, 10) ∧
    after (fun s => (s.phase, s.deadline)) { booted 2 3 .aggregation 10 with now := 30 } [0x70000000] =
      some (.idle, 40) := by decide

/-- V-C10: time going backwards. -/
theorem test_time_backwards :
    after (fun s => (s.info, s.status, s.now)) { booted 2 3 .aggregation 10 with now := 0x100000007 }
      [0x80000000, 5, 1] = some (5, 0x6F, 0x100000007) := by decide

/-- V-C9: one timeout for many missed periods; V-C14: a saturated deadline. -/
theorem test_time_fires_once :
    after State.deadline (booted 2 3 .aggregation 10) [0x80000000, 1000, 0] = some 1010 ∧
    after State.deadline (booted 2 3 .aggregation 0x100) [0x80000000, 0xFFFFFFF0, 0xFFFFFFFF] =
      some 0xFFFFFFFFFFFFFFFF := by decide

/-! ## The port -/

/-- V-E2: in `HALT` the words are framed as always; a `DGRAM` takes its follow word with it. -/
theorem test_framing_in_halt :
    after (fun s => (s.port, s.rspStream)) (State.raiseFault .badTime 5 State.reset) [0x40000004, 0x25000000, 0x25000000] =
      some ([0x25000000], []) := by decide

/-- The opcode table's first word: the value word is zero, and the step runs it (log entry 6). -/
theorem test_withFetchWord :
    decodeTableWord 32 0x12000000 = some (.wrcfg .tag 0) ∧
    (next? (step ({ State.reset with tag := 7 }.withFetchWord 32 0x12000000))).map State.tag = some 0 := by decide

/-! ## Witnesses: the statements' hypotheses can be met -/

/-- The booted states meet the invariant. -/
theorem booted_inv (e : Env) (k n : BitVec 16) (mode : Mode) (lat : BitVec 32) (phase : Phase) (waiting : List Byte)
    (hc : 1 ≤ k.toNat ∧ k.toNat ≤ n.toNat ∧ n.toNat ≤ e.par.nMax) (hw : waiting.length ≤ e.par.aggCap)
    (hp : phase = .idle ∨ phase = .drain) (hm : mode = .passThrough → waiting = [] ∧ phase = .idle) :
    (booted k n mode lat phase waiting).Inv e := by
  have live : Live e (booted k n mode lat phase waiting) := {
    fragWf := by simp [booted, State.reset]
    fragBound := by simp [booted, State.reset]
    accWf := Memory.wf_cells _ _
    accBound := fun c hc => by have := (Memory.mem_cells hc).2; omega
    blkIdxFits := Nat.pow_pos (by decide)
    frgIdxFits := Nat.zero_le _
    blkMaxFits := Nat.zero_le _
    seqFits := Nat.pow_pos (by decide)
    accLenFits := hw
    decoderPartial := by simp [booted, State.reset]
    framesFit := by simp [booted, State.reset, State.txStream]
    fault := rfl
    cause := rfl
    info := rfl
    config := hc
    slot := hc.1
    emptyBlock := by simp [booted, State.reset]
    framed := by simp [booted, State.reset]
    fragments := by simp [booted, State.reset]
    buffered := ⟨waiting, Memory.readBytes_eq_some.2 ⟨rfl, fun i hi => by
      show Memory.read (Memory.cells 0 waiting) (0 + i) = _
      rw [Memory.read_cells]; simp⟩⟩
    framesOk := by simp [booted, State.reset, State.txStream] }
  refine live.inv ⟨hp, fun h => ⟨by show waiting.length = 0; rw [(hm h).1]; rfl, (hm h).2⟩, fun _ _ => ?_⟩
  show (0 : BitVec 64) < lat.setWidth 64 ∨ lat = 0 ∨ _
  by_cases h : lat = 0
  · exact .inr (.inl h)
  · left
    have h0 : 0 < lat.toNat := by
      rcases Nat.eq_zero_or_pos lat.toNat with h' | h'
      · exact absurd (BitVec.eq_of_toNat_eq (by simpa using h')) h
      · exact h'
    have := lat.isLt
    rw [BitVec.lt_def, BitVec.toNat_setWidth, Nat.mod_eq_of_lt (by omega)]
    simpa using h0

/-- The same in REF, where the bounds are numbers. -/
theorem booted_ref (v : Nat → Verdict) (k n : BitVec 16) (mode : Mode) (lat : BitVec 32) (phase : Phase)
    (waiting : List Byte) (hc : 1 ≤ k.toNat ∧ k.toNat ≤ n.toNat ∧ n.toNat ≤ 16) (hw : waiting.length ≤ 122)
    (hp : phase = .idle ∨ phase = .drain) (hm : mode = .passThrough → waiting = [] ∧ phase = .idle) :
    (booted k n mode lat phase waiting).Inv (refEnv v) :=
  booted_inv (refEnv v) k n mode lat phase waiting hc (by
    have h : (refEnv v).par.aggCap = 122 := by show Params.ref.aggCap = 122; decide
    omega) hp hm

/-- A unit of at most 122 bytes fits a fragment of REF. -/
theorem fits_ref (v : Nat → Verdict) {p : List Byte} (h : p.length ≤ 122) :
    (refEnv v).par.hPkt + p.length ≤ (refEnv v).par.fragCap := by
  have h1 : (refEnv v).par.hPkt = 6 := by show Params.ref.hPkt = 6; decide
  have h2 : (refEnv v).par.fragCap = 128 := rfl
  omega

/-- One fragment buffer is built in every environment (R8). -/
theorem one_le_nMax (e : Env) : 1 ≤ e.par.nMax := e.valid.2.2.2.2.2.2.2.1

/-! ### Encoding and decoding -/

theorem witness_DecodeOfEncodeIsTheCommand :
    (Instr.dgram (List.replicate 65535 0)).wellFormed = true ∧ (Instr.dgram []).wellFormed = true := by
  constructor <;> rw [Instr.wellFormed]
  · rw [List.length_replicate]; rfl
  · rfl

/-- A word that a pattern matches, with the last CSR number, and one that none does. -/
theorem witness_WellFormedWordsAreThePatterns :
    (0x10000000, 0xF0FFFFFF) ∈ opcodePatterns ∧ (0x1F000000 : Word) &&& 0xF0FFFFFF = 0x10000000 ∧
    malformed 0x1F000000 = false ∧ malformed 0x1F000001 = true := by decide

theorem witness_FollowWordsByTheTable :
    (0x1F000000 : Word) &&& 0xF0FFFFFF = 0x10000000 ∧ (0x4000FFFF : Word) &&& 0xFFFF0000 = 0x40000000 ∧
    ((0x80000001 : Word) &&& 0xF0FFFFFF ≠ 0x10000000 ∧ (0x80000001 : Word) &&& 0xFFFF0000 ≠ 0x40000000 ∧
      (0x80000001 : Word) ≠ 0x80000000) ∧
    ([] : List Word).length < follow 0x40000001 ∧ follow 0x40000004 ≤ [(0 : Word)].length := by decide

theorem witness_DatagramBytesAreLittleEndian :
    ([0x04030201, 0xEEEEEE05] : List Word).length = ((5 : BitVec 16).toNat + 3) / 4 ∧
    ([] : List Word).length = ((0 : BitVec 16).toNat + 3) / 4 ∧ 4 < (5 : BitVec 16).toNat := by decide

/-! ### The step -/

theorem witness_StepRunsTheDecodedCommand :
    decode ((State.reset.offer [0x12000000, 0x5A, 0x25000000]).decoder ++
      (State.reset.offer [0x12000000, 0x5A, 0x25000000]).port) = .command (.wrcfg .tag 0x5A) [0x25000000] := by decide

theorem witness_StepWaitsForAWholeCommand :
    decode ((State.reset.offer [0x40000005, 1]).decoder ++ (State.reset.offer [0x40000005, 1]).port) = .incomplete := by
  decide

theorem witness_DeliveryInPartsIsDeliveryAtOnce :
    decode ((State.reset.offer [0x40000005, 1]).decoder ++ (State.reset.offer [0x40000005, 1]).port) = .incomplete ∧
    step (State.reset.offer [0x40000005, 1]) = .next { State.reset with decoder := [0x40000005, 1] } := ⟨by decide, rfl⟩

theorem witness_StepTakesExactlyOneCommand :
    let s := State.reset.offer [0x12000000, 0x5A, 0x25000000]
    s.decoder ++ s.port = 0x12000000 :: ([0x5A] ++ [0x25000000]) ∧ ([0x5A] : List Word).length = follow 0x12000000 ∧
    step s = .next { State.reset with tag := 0x5A, port := [0x25000000] } := ⟨rfl, by decide, rfl⟩

theorem witness_MalformedWordIsIllegal :
    (State.reset.offer [0x20000001]).decoder ++ (State.reset.offer [0x20000001]).port = [0x20000001] ∧
    malformed 0x20000001 = true ∧ State.reset.phase ≠ .halt ∧
    ({ State.reset with phase := .halt, port := [0x20000001] } : State).phase = .halt := by decide

/-! ### Faults -/

theorem witness_RaiseRecordsTheFirstFault :
    State.reset.fault = false ∧ (State.reset.raiseFault .badTime 5).fault = true := by decide

/-- Also for `FirstFaultIsKept`, `HaltIsTerminal`. -/
theorem witness_HaltDiscardsAllButRdcsr :
    (State.reset.raiseFault .badTime 5).phase = .halt ∧ (∀ c, Instr.srcErr ≠ .rdcsr c) ∧
    ([0x40000001, 9] ++ [0x60000000] : List Word) = 0x40000001 :: ([9] ++ [0x60000000]) ∧
    ([9] : List Word).length = follow 0x40000001 :=
  ⟨rfl, fun _ h => (nomatch h), rfl, by decide⟩

theorem witness_HaltIsTerminal : ((State.reset.raiseFault .badTime 5).offer [0x60000000]).phase = .halt := rfl

theorem witness_FirstFaultIsKept :
    step ((State.reset.raiseFault .badTime 5).offer [0x60000000]) = .next (State.reset.raiseFault .badTime 5) ∧
    ((State.reset.raiseFault .badTime 5).offer [0x60000000]).fault = true := ⟨rfl, rfl⟩

/-! ### Control commands -/

theorem witness_WrcfgStoresTheFieldBits :
    State.reset.phase = .uncfg ∧ (booted 1 1 .passThrough 0).phase = .idle ∧
    (booted 1 1 .aggregation 0 .drain).phase = .drain := by decide

/-- The boundaries `K = N = 1` and `N = N_MAX`. -/
theorem witness_StartConstructsTheCore :
    let s := { State.reset with k := 1, n := 1 }
    let t := { State.reset with k := 1, n := BitVec.ofNat 16 Config.env.par.nMax }
    (s.phase = .uncfg ∧ 1 ≤ s.k.toNat ∧ s.k.toNat ≤ s.n.toNat ∧ s.n.toNat ≤ Config.env.par.nMax) ∧
    (t.phase = .uncfg ∧ 1 ≤ t.k.toNat ∧ t.k.toNat ≤ t.n.toNat ∧ t.n.toNat ≤ Config.env.par.nMax) := by
  have h1 := one_le_nMax Config.env
  have h2 := Config.env.valid.2.2.2.2.2.2.2.2
  have hn : (BitVec.ofNat 16 Config.env.par.nMax).toNat = Config.env.par.nMax := by
    rw [BitVec.toNat_ofNat]; exact Nat.mod_eq_of_lt (by omega)
  refine ⟨⟨rfl, by decide, by decide, h1⟩, rfl, by decide, ?_, ?_⟩
  · show 1 ≤ (BitVec.ofNat 16 Config.env.par.nMax).toNat
    rw [hn]; exact h1
  · show (BitVec.ofNat 16 Config.env.par.nMax).toNat ≤ _
    rw [hn]

/-- `K = 0`, and `K` one above `N`. -/
theorem witness_StartChecksTheConfiguration :
    State.reset.phase = .uncfg ∧
    ¬ (1 ≤ State.reset.k.toNat ∧ State.reset.k.toNat ≤ State.reset.n.toNat ∧
      State.reset.n.toNat ≤ Config.env.par.nMax) ∧
    ¬ (1 ≤ (3 : BitVec 16).toNat ∧ (3 : BitVec 16).toNat ≤ (2 : BitVec 16).toNat ∧
      (2 : BitVec 16).toNat ≤ Config.env.par.nMax) :=
  ⟨rfl, fun h => absurd h.1 (by decide), fun h => absurd h.2.1 (by decide)⟩

theorem witness_CommandIllegalInItsPhase :
    State.reset.phase = .uncfg ∧ (booted 1 1 .aggregation 0 .drain).phase = .drain ∧
    ((booted 1 1 .passThrough 0).phase = .idle ∧ (booted 1 1 .passThrough 0).mode = .passThrough) := by decide

theorem witness_ConfigurationIsLocked :
    let s := booted 1 1 .passThrough 0
    s.phase ≠ .uncfg ∧ s.phase ≠ .halt ∧ s.fault = false ∧
    step (s.offer [0x60000000]) = .next (s.raiseFault .sourceReadError 0) ∧
    exec (.wrcfg .tag 1) s = .next (s.raiseFault .illegalCmd 0x12000000) := ⟨by decide, by decide, rfl, rfl, rfl⟩

/-! ### Frames and buffers -/

/-- The first and the last byte of each part of a frame of REF with a payload of three bytes. -/
theorem witness_FrameBytesByOffset :
    3 ≤ ([1, 2, 3] : List Byte).length ∧ Params.ref.phyRom.length = 4 ∧
    Params.ref.phyRom.length + Params.ref.linkRom.length = 12 ∧
    (buildFrame .ref 7 5 0x5A [1, 2, 3] 3)[3]? = some 0xA3 ∧ (buildFrame .ref 7 5 0x5A [1, 2, 3] 3)[7]? = some 0x5A ∧
    (buildFrame .ref 7 5 0x5A [1, 2, 3] 3)[12]? = some 7 ∧ (buildFrame .ref 7 5 0x5A [1, 2, 3] 3)[14]? = some 0 ∧
    (buildFrame .ref 7 5 0x5A [1, 2, 3] 3)[15]? = some 5 ∧ (buildFrame .ref 7 5 0x5A [1, 2, 3] 3)[18]? = some 3 ∧
    (buildFrame .ref 7 5 0x5A [1, 2, 3] 3)[19]? = none := by decide

/-- Widths of 32 and 64 bits; and a payload of three bytes in a fragment of REF. -/
theorem witness_HeaderFieldBytes :
    32 % 8 = 0 ∧ 3 < 32 / 8 ∧ 64 % 8 = 0 ∧ 7 < 64 / 8 ∧
    (refEnv).par.hPkt + ([1, 2, 3] : List Byte).length ≤ (refEnv).par.fragCap := by decide

theorem witness_HeadersAreNeverTruncated :
    0xFFFFFF < 2 ^ (refEnv).par.wBlk ∧ 15 < (refEnv).par.nMax ∧ 0xFFFFFFFF < 2 ^ (refEnv).par.wSeq ∧
    (refEnv).par.hPkt + 122 ≤ (refEnv).par.fragCap ∧
    fragHdr (refEnv).par 0xFFFFFF 15 = fragHdr (refEnv).par 0xFFFFFF 15 ∧
    2 ≤ ([0x11, 0x22] : List Byte).length ∧ 2 ≤ (refEnv).par.fragCap := by decide

/-- The first access over each bound. -/
theorem witness_OutOfBoundsIsRefused :
    (refEnv).par.nMax ≤ 16 ∧ (refEnv).par.fragCap < 128 + 1 ∧
    (refEnv).par.fragCap < 127 + ([0, 0] : List Byte).length ∧ (refEnv).par.aggCap < 122 + 1 ∧
    (refEnv).par.aggCap < 121 + ([0, 0] : List Byte).length := by decide

theorem witness_BufferReadsBackItsWrites :
    Memory.wf [(3, 0x10), (9, 0x20)] ∧ (3 < 4 ∨ 4 + ([1, 2] : List Byte).length ≤ 3) ∧
    (6 < 4 ∨ 4 + ([1, 2] : List Byte).length ≤ 6) := by
  refine ⟨?_, by decide, by decide⟩
  simp [Memory.wf]

/-! ### The block engine -/

/-- `K = N = 1` and an empty datagram, in the machine's own environment. -/
theorem witness_PassThroughDatagramCompletes :
    (booted 1 1 .passThrough 0).Inv Config.env ∧ (booted 1 1 .passThrough 0).phase = .idle ∧
    (booted 1 1 .passThrough 0).mode = .passThrough ∧
    Config.env.par.hPkt + ([] : List Byte).length ≤ Config.env.par.fragCap :=
  ⟨booted_inv _ _ _ _ _ _ _ ⟨by decide, by decide, one_le_nMax _⟩ (Nat.zero_le _) (.inl rfl) (fun _ => ⟨rfl, rfl⟩),
    rfl, rfl, hPkt_le _⟩

/-- `K = 2`, `N = 3` in REF. -/
theorem booted_two_three (v : Nat → Verdict) : (booted 2 3 .passThrough 0).Inv (refEnv v) :=
  booted_ref _ _ _ _ _ _ _ (by decide) (Nat.zero_le _) (.inl rfl) (fun _ => ⟨rfl, rfl⟩)

/-- `K = 1`, `N = 3` in REF: the first datagram fills the block. -/
theorem booted_one_three (v : Nat → Verdict) : (booted 1 3 .passThrough 0).Inv (refEnv v) :=
  booted_ref _ _ _ _ _ _ _ (by decide) (Nat.zero_le _) (.inl rfl) (fun _ => ⟨rfl, rfl⟩)

/-- A flush of a run in aggregation starts from such a state: three bytes wait in a drain, `K = 2` or `K = 1`. -/
theorem draining_inv (k : BitVec 16) (hk : 1 ≤ k.toNat ∧ k.toNat ≤ 3) (v : Nat → Verdict) :
    (booted k 3 .aggregation 10 .drain [1, 2, 3]).Inv (refEnv v) :=
  booted_ref _ _ _ _ _ _ _ ⟨hk.1, hk.2, by decide⟩ (by decide) (.inr rfl) (fun h => nomatch h)

/-- The largest datagram that fits, the first of two slots; and the unit of a flush. -/
theorem witness_FragmentLeavesTheBlockOpen :
    ((booted 2 3 .aggregation 10 .drain [1, 2, 3]).Inv refEnv ∧
      (booted 2 3 .aggregation 10 .drain [1, 2, 3]).phase = .drain ∧
      (booted 2 3 .aggregation 10 .drain [1, 2, 3]).frgIdx + 1 < (booted 2 3 .aggregation 10).k.toNat ∧
      (refEnv).par.hPkt + (booted 2 3 .aggregation 10 .drain [1, 2, 3]).buffered.length ≤ (refEnv).par.fragCap) ∧
    (booted 2 3 .passThrough 0).Inv refEnv ∧ (booted 2 3 .passThrough 0).phase = .idle ∧
    (booted 2 3 .passThrough 0).mode = .passThrough ∧
    (refEnv).par.hPkt + (List.replicate 122 (0 : Byte)).length ≤ (refEnv).par.fragCap ∧
    (booted 2 3 .passThrough 0).frgIdx + 1 < (booted 2 3 .passThrough 0).k.toNat ∧
    (refEnv).linkDraw (booted 2 3 .passThrough 0).draws = .ok :=
  ⟨⟨draining_inv _ (by decide) _, rfl, by decide, by decide⟩, booted_two_three _, rfl, rfl, by decide, by decide, rfl⟩

theorem witness_LastFragmentClosesTheBlock :
    ((booted 1 3 .aggregation 10 .drain [1, 2, 3]).Inv refEnv ∧
      (booted 1 3 .aggregation 10 .drain [1, 2, 3]).phase = .drain ∧
      (booted 1 3 .aggregation 10 .drain [1, 2, 3]).frgIdx + 1 = (booted 1 3 .aggregation 10).k.toNat ∧
      (refEnv).par.hPkt + (booted 1 3 .aggregation 10 .drain [1, 2, 3]).buffered.length ≤ (refEnv).par.fragCap) ∧
    (booted 1 3 .passThrough 0).Inv refEnv ∧ (booted 1 3 .passThrough 0).phase = .idle ∧
    (booted 1 3 .passThrough 0).mode = .passThrough ∧
    (refEnv).par.hPkt + ([0x44] : List Byte).length ≤ (refEnv).par.fragCap ∧
    (booted 1 3 .passThrough 0).frgIdx + 1 = (booted 1 3 .passThrough 0).k.toNat ∧
    ∀ c ≤ 2, (refEnv).linkDraw ((booted 1 3 .passThrough 0).draws + c) = .ok :=
  ⟨⟨draining_inv _ (by decide) _, rfl, rfl, by decide⟩, booted_one_three _, rfl, rfl, by decide, by decide, fun _ _ => rfl⟩

/-- The data frame fails; and the last of two parity frames does; both also where the unit is that of a flush. -/
theorem witness_FailedFrameHaltsTheEngine :
    let e := refEnv (fun _ => .fail)
    let g := refEnv (fun c => if c = 2 then .fail else .ok)
    let s := booted 1 3 .passThrough 0
    let a := booted 1 3 .aggregation 10 .drain [1, 2, 3]
    (a.Inv e ∧ a.Inv g ∧ a.phase = .drain ∧ a.frgIdx + 1 = a.k.toNat ∧
      e.par.hPkt + a.buffered.length ≤ e.par.fragCap ∧ e.linkDraw a.draws = .fail ∧
      g.linkDraw (a.draws + (1 + 1)) = .fail) ∧
    (s.phase = .idle ∧ s.mode = .passThrough) ∧
    (s.Inv e ∧ e.par.hPkt + ([0x44] : List Byte).length ≤ e.par.fragCap ∧ e.linkDraw s.draws = .fail) ∧
    (s.Inv g ∧ 1 < s.n.toNat - s.k.toNat ∧ s.frgIdx + 1 = s.k.toNat ∧
      (∀ c ≤ 1, g.linkDraw (s.draws + c) = .ok) ∧ g.linkDraw (s.draws + (1 + 1)) = .fail) := by
  refine ⟨⟨draining_inv _ (by decide) _, draining_inv _ (by decide) _, rfl, rfl, by decide, rfl, rfl⟩, ⟨rfl, rfl⟩,
    ⟨booted_one_three _, by decide, rfl⟩, booted_one_three _, by decide, by decide, ?_, rfl⟩
  decide

/-- One byte over: in the machine's own environment, whatever its capacity is. -/
theorem witness_OversizePayloadIsRejected :
    (booted 1 1 .passThrough 0).phase = .idle ∧ (booted 1 1 .passThrough 0).mode = .passThrough ∧
    Config.env.par.fragCap <
      Config.env.par.hPkt + (List.replicate (Config.env.par.aggCap + 1) (0 : Byte)).length := by
  refine ⟨rfl, rfl, ?_⟩
  rw [List.length_replicate]
  show Config.env.par.fragCap < Config.env.par.hPkt + (Config.env.par.fragCap - Config.env.par.hPkt + 1)
  omega

theorem witness_NoCoderWhenKEqualsN : (booted 2 2 .passThrough 0).k = (booted 2 2 .passThrough 0).n := rfl

/-- Two blocks with the same shards: different tags, modes and phases. -/
theorem witness_ParityIsAFunctionOfTheShards :
    let s := booted 1 3 .passThrough 0
    let s' := { booted 1 3 .aggregation 10 .drain with tag := 0x11 }
    s.Inv refEnv ∧ s'.Inv refEnv ∧ s.phase = .idle ∧ s'.phase = .drain ∧ s.frgIdx + 1 = s.k.toNat ∧ s'.frgIdx + 1 = s'.k.toNat ∧ s'.k = s.k ∧ s'.n = s.n ∧
    (refEnv).par.hPkt + ([0x44] : List Byte).length ≤ (refEnv).par.fragCap ∧ 
    (∀ c ≤ s.n.toNat - s.k.toNat, (refEnv).linkDraw (s.draws + c) = .ok ∧ (refEnv).linkDraw (s'.draws + c) = .ok) ∧
    (afterData refEnv [0x44] s').blkMax = (afterData refEnv [0x44] s).blkMax ∧
    ∀ j < s.k.toNat,
      Memory.readBytes (afterData refEnv [0x44] s').frag (j * (refEnv).par.fragCap) (afterData refEnv [0x44] s).blkMax =
        Memory.readBytes (afterData refEnv [0x44] s).frag (j * (refEnv).par.fragCap)
          (afterData refEnv [0x44] s).blkMax := by
  have h : (booted 1 3 .aggregation 10 .drain).Inv refEnv :=
    booted_ref _ _ _ _ _ _ _ (by decide) (by decide) (.inr rfl) (fun h => nomatch h)
  refine ⟨booted_one_three _, ?_, rfl, rfl, rfl, rfl, rfl, rfl, by decide, fun _ _ => ⟨rfl, rfl⟩, rfl, fun _ _ => rfl⟩
  exact { h with unstarted := h.unstarted, running := fun hp => { h.running hp with } }

theorem witness_BlockIndexChangesOnlyAtAClose :
    Instr.intr ≠ .start ∧ exec .intr (booted 1 1 .passThrough 0) = .next (booted 1 1 .passThrough 0) :=
  ⟨by decide, rfl⟩

/-- A run that accepts units has a result. -/
theorem units_of_map {e : Env} {is : List Instr} {s : State} {us : List (List Byte)}
    (h : (acceptedUnits e is s).map Prod.fst = some us) : ∃ t, acceptedUnits e is s = some (us, t) := by
  obtain ⟨⟨us', t⟩, h1, h2⟩ := Option.map_eq_some_iff.1 h
  cases h2
  exact ⟨t, h1⟩

set_option maxRecDepth 20000 in
/-- `K = N = 2` and three datagrams in pass-through: one block and a half; and one unit in aggregation. -/
theorem witness_FramesOfARunInOrder :
    ((booted 2 2 .passThrough 0).Inv refEnv ∧ (booted 2 2 .passThrough 0).phase = .idle ∧
      (booted 2 2 .passThrough 0).mode = .passThrough ∧ (booted 2 2 .passThrough 0).frgIdx = 0 ∧
      ∃ t, acceptedUnits refEnv ([[], [5], []].map .dgram) (booted 2 2 .passThrough 0) = some ([[], [5], []], t)) ∧
    ((booted 2 3 .aggregation 10 .drain [1, 2, 3]).Inv refEnv ∧
      (booted 2 3 .aggregation 10 .drain [1, 2, 3]).frgIdx = 0 ∧
      ∃ t, acceptedUnits refEnv [.srcEmpty, .time 10] (booted 2 3 .aggregation 10 .drain [1, 2, 3]) =
        some ([[1, 2, 3]], t)) :=
  ⟨⟨booted_inv _ _ _ _ _ _ _ (by decide) (Nat.zero_le _) (.inl rfl) (fun _ => ⟨rfl, rfl⟩), rfl, rfl, rfl,
    units_of_map (by decide +kernel)⟩, draining_inv _ (by decide) _, rfl, units_of_map (by decide +kernel)⟩

/-! ### Aggregation -/

theorem witness_AggregatedDatagramIsAppended :
    let s := booted 1 1 .aggregation 10
    (s.phase = .idle ∨ s.phase = .drain) ∧ s.mode = .aggregation ∧
    s.accLen + (List.replicate Config.env.par.aggCap (0 : Byte)).length ≤ Config.env.par.aggCap := by
  refine ⟨.inl rfl, rfl, ?_⟩
  rw [List.length_replicate]
  exact Nat.le_of_eq (Nat.zero_add _)

/-- A full buffer in a drain meets the invariant. -/
theorem full_inv (v : Nat → Verdict) :
    (booted 2 3 .aggregation 10 .drain (List.replicate 122 0xCC)).Inv (refEnv v) :=
  booted_ref _ _ _ _ _ _ _ (by decide) (by decide) (.inr rfl) (fun h => nomatch h)

/-- One byte waits in `IDLE`. -/
theorem waiting_inv (v : Nat → Verdict) : (booted 2 3 .aggregation 10 .idle [0x77]).Inv (refEnv v) :=
  booted_ref _ _ _ _ _ _ _ (by decide) (by decide) (.inl rfl) (fun h => nomatch h)

/-- A run accepts what waits when the verdict is ok, and raises when it is not: what the flush statements assume. -/
theorem accept_ends_somewhere (p : Phase) (w : List Byte) (hp : p = .idle ∨ p = .drain) (hw : w.length ≤ 122)
    (x : Phase) (nw dl : BitVec 64) :
    (∃ u, accept refEnv (booted 2 3 .aggregation 10 p w).buffered
      { booted 2 3 .aggregation 10 p w with phase := x, now := nw, deadline := dl } = .run u) ∧
    (∃ u, accept (refEnv fun _ => .fail) (booted 2 3 .aggregation 10 p w).buffered
      { booted 2 3 .aggregation 10 p w with phase := x, now := nw, deadline := dl } = .ended u) := by
  have hi : ∀ v, (booted 2 3 .aggregation 10 p w).Inv (refEnv v) := fun v =>
    booted_ref _ _ _ _ _ _ _ (by decide) hw hp (fun h => nomatch h)
  have hl : ∀ v, Live (refEnv v) { booted 2 3 .aggregation 10 p w with phase := x, now := nw, deadline := dl } :=
    fun v => ((hi v).live hp).retime x nw dl
  have hb : (booted 2 3 .aggregation 10 p w).buffered.length = w.length := ((hi fun _ => .ok).live hp).length_buffered
  have hcap : ∀ v, (refEnv v).par.hPkt + (booted 2 3 .aggregation 10 p w).buffered.length ≤ (refEnv v).par.fragCap := by
    intro v
    exact fits_ref v (by omega)
  exact ⟨⟨_, accept_open (hl _).engineOk (hcap _) rfl (show 0 + 1 < 2 by decide)⟩, ⟨_, accept_dataFailed (hl _).engineOk (hcap _) rfl⟩⟩

/-- One byte over a full buffer; the flush runs in one environment and raises in another. -/
theorem witness_OverflowFlushesThenStartsANewBuffer :
    let s := booted 2 3 .aggregation 10 .drain (List.replicate 122 0xCC)
    s.Inv refEnv ∧ s.phase = .drain ∧ s.mode = .aggregation ∧ 0 < s.accLen ∧
    (refEnv).par.aggCap < s.accLen + ([0xFF] : List Byte).length ∧ ([0xFF] : List Byte).length ≤ (refEnv).par.aggCap ∧
    (∃ u, accept refEnv s.buffered { s with phase := .drain } = .run u) ∧
    s.Inv (refEnv fun _ => .fail) ∧
    (∃ u, accept (refEnv fun _ => .fail) s.buffered { s with phase := .drain } = .ended u) :=
  ⟨full_inv _, rfl, rfl, by decide, by decide, by decide,
    (accept_ends_somewhere .drain _ (.inr rfl) (by decide) .drain 0 10).1, full_inv _,
    (accept_ends_somewhere .drain _ (.inr rfl) (by decide) .drain 0 10).2⟩

/-- One byte over `AGG_CAP`, with an empty and with a full buffer. -/
theorem witness_OversizeDatagramInAggregation :
    let s := booted 2 3 .aggregation 10
    let t := booted 2 3 .aggregation 10 .drain (List.replicate 122 0xCC)
    (refEnv).par.aggCap < (List.replicate 123 (0 : Byte)).length ∧
    (s.Inv refEnv ∧ s.phase = .idle ∧ s.mode = .aggregation ∧ s.accLen = 0) ∧
    (t.Inv refEnv ∧ t.phase = .drain ∧ t.mode = .aggregation ∧ 0 < t.accLen ∧
      ∃ u, accept refEnv t.buffered { t with phase := .drain } = .run u) ∧
    (t.Inv (refEnv fun _ => .fail) ∧
      ∃ u, accept (refEnv fun _ => .fail) t.buffered { t with phase := .drain } = .ended u) :=
  ⟨by decide, ⟨booted_inv _ _ _ _ _ _ _ (by decide) (by decide) (.inl rfl) (fun h => nomatch h), rfl, rfl, rfl⟩,
    ⟨full_inv _, rfl, rfl, by decide, (accept_ends_somewhere .drain _ (.inr rfl) (by decide) .drain 0 10).1⟩,
    full_inv _, (accept_ends_somewhere .drain _ (.inr rfl) (by decide) .drain 0 10).2⟩

set_option maxRecDepth 20000 in
/-- Three datagrams, the third over the capacity: one unit is accepted in the run. -/
theorem witness_AggregationConservesBytes :
    (booted 2 3 .aggregation 10).Inv refEnv ∧ (booted 2 3 .aggregation 10).mode = .aggregation ∧
    (booted 2 3 .aggregation 10).phase = .idle ∧
    ∃ t, acceptedUnits refEnv [.dgram [1], .dgram [2, 3], .dgram (List.replicate 122 7)]
      (booted 2 3 .aggregation 10) = some ([[1, 2, 3]], t) :=
  ⟨booted_inv _ _ _ _ _ _ _ (by decide) (by decide) (.inl rfl) (fun h => nomatch h), rfl, rfl,
    units_of_map (by decide +kernel)⟩

/-- The clock one below the deadline, and at it. -/
theorem witness_SrcEmptyEndsTheDrain :
    let s := { booted 1 1 .aggregation 10 .drain with now := 9 }
    let t := { booted 1 1 .aggregation 10 .drain with now := 10 }
    (s.phase = .drain ∧ s.mode = .aggregation ∧ s.now < s.deadline) ∧
    (t.phase = .drain ∧ t.mode = .aggregation ∧ t.deadline ≤ t.now ∧ t.accLen = 0) := by decide

theorem witness_SrcErrIsFatal :
    (booted 1 1 .passThrough 0).phase = .idle ∧ (booted 1 1 .passThrough 0).fault = false ∧
    (booted 1 1 .aggregation 0 .drain).phase = .drain := by decide

theorem witness_IntrContinues :
    (booted 1 1 .aggregation 10 .drain).phase = .drain ∧
    ((booted 1 1 .passThrough 0).phase = .idle ∧ (booted 1 1 .passThrough 0).mode = .passThrough) ∧
    ((booted 1 1 .aggregation 10).mode = .aggregation ∧
      (booted 1 1 .aggregation 10).now < (booted 1 1 .aggregation 10).deadline) ∧
    ({ booted 1 1 .aggregation 10 with now := 10 } : State).deadline ≤ 10 ∧ (booted 1 1 .aggregation 10).accLen = 0 := by
  decide

theorem witness_RemainingTimeDecidesTheTimeout :
    ((booted 1 1 .aggregation 10).phase = .idle ∧ (booted 1 1 .aggregation 10).mode = .aggregation ∧
      (booted 1 1 .aggregation 10).accLen = 0 ∧ (booted 1 1 .aggregation 10).remain = 10) ∧
    ({ booted 1 1 .aggregation 10 with now := 11 } : State).remain = 0 := by decide

theorem witness_TimeAdvancesTheClock :
    State.reset.phase = .uncfg ∧ State.reset.now ≤ 0 ∧
    ((booted 1 1 .aggregation 10).phase = .idle ∧ (9 : BitVec 64) < (booted 1 1 .aggregation 10).deadline) ∧
    (booted 1 1 .aggregation 10).deadline ≤ 10 ∧ (booted 1 1 .aggregation 10).accLen = 0 := by decide

theorem witness_TimeNeverGoesBack :
    ({ State.reset with now := 5 } : State).phase ≠ .halt ∧ (4 : BitVec 64) < ({ State.reset with now := 5 } : State).now ∧
    (booted 1 1 .aggregation 10).now < (booted 1 1 .aggregation 10).deadline ∧
    (booted 1 1 .aggregation 10).phase = .idle := by decide

/-- A timeout due at its first instant, for each of the three commands, with a flush that runs and one that raises. The
state with `NOW = 10` in `IDLE` is one that only a later command can leave in `IDLE`: it meets the invariant with
`LAT = 0`. -/
theorem due_inv (v : Nat → Verdict) (p : Phase) (hp : p = .idle ∨ p = .drain) :
    (booted 2 3 .aggregation 0 p [0x77]).Inv (refEnv v) :=
  booted_ref _ _ _ _ _ _ _ (by decide) (by decide) hp (fun h => nomatch h)

/-- As `accept_ends_somewhere`, for the states with `LAT = 0`. -/
theorem accept_ends_when_due (p : Phase) (hp : p = .idle ∨ p = .drain) (x : Phase) (nw : BitVec 64) :
    (∃ u, accept refEnv (booted 2 3 .aggregation 0 p [0x77]).buffered
      { booted 2 3 .aggregation 0 p [0x77] with phase := x, now := nw } = .run u) ∧
    (∃ u, accept (refEnv fun _ => .fail) (booted 2 3 .aggregation 0 p [0x77]).buffered
      { booted 2 3 .aggregation 0 p [0x77] with phase := x, now := nw } = .ended u) := by
  have hl : ∀ v, Live (refEnv v) { booted 2 3 .aggregation 0 p [0x77] with phase := x, now := nw } :=
    fun v => ((due_inv v p hp).live hp).retime x nw _
  have hb : (booted 2 3 .aggregation 0 p [0x77]).buffered.length = 1 := ((due_inv (fun _ => .ok) p hp).live hp).length_buffered
  have hcap : ∀ v, (refEnv v).par.hPkt + (booted 2 3 .aggregation 0 p [0x77]).buffered.length ≤ (refEnv v).par.fragCap := by
    intro v
    exact fits_ref v (by omega)
  exact ⟨⟨_, accept_open (hl _).engineOk (hcap _) rfl (show 0 + 1 < 2 by decide)⟩, ⟨_, accept_dataFailed (hl _).engineOk (hcap _) rfl⟩⟩

theorem witness_DueTimeoutFlushes :
    let s := booted 2 3 .aggregation 0 .idle [0x77]
    let d := booted 2 3 .aggregation 0 .drain [0x77]
    (s.Inv refEnv ∧ s.mode = .aggregation ∧ 0 < s.accLen ∧ s.phase = .idle ∧ s.deadline ≤ s.now) ∧
    (d.Inv refEnv ∧ d.phase = .drain ∧ d.deadline ≤ d.now ∧
      ∃ u, accept refEnv d.buffered { d with phase := .idle } = .run u) ∧
    (∃ u, accept refEnv s.buffered s = .run u) ∧ (∃ u, accept (refEnv fun _ => .fail) s.buffered s = .ended u) ∧
    (s.now ≤ 7 ∧ s.deadline ≤ 7 ∧ ∃ u, accept refEnv s.buffered { s with now := 7 } = .run u) :=
  ⟨⟨due_inv _ _ (.inl rfl), rfl, by decide, rfl, by decide⟩,
    ⟨due_inv _ _ (.inr rfl), rfl, by decide, (accept_ends_when_due .drain (.inr rfl) .idle 0).1⟩,
    (accept_ends_when_due .idle (.inl rfl) .idle 0).1, (accept_ends_when_due .idle (.inl rfl) .idle 0).2,
    by decide, by decide, (accept_ends_when_due .idle (.inl rfl) .idle 7).1⟩

/-- A step in `IDLE` whose deadline is exactly `NOW + LAT`. -/
theorem witness_DeadlineWithinLatency :
    let s := booted 1 1 .aggregation 10
    (s.phase = .idle ∨ s.phase = .drain → s.deadline.toNat ≤ s.now.toNat + s.lat.toNat) ∧
    step (s.offer [0x25000000]) = .next { s with events := [.rsp 9] } ∧ s.phase = .idle := by
  refine ⟨by decide, rfl, rfl⟩

set_option maxRecDepth 20000 in
/-- `LAT = 10`: the datagram at time 0, the end of the drain, `TIME 9` and `TIME 10`, the first instant it is due. -/
theorem witness_WaitingDatagramsLeaveWithinLatency :
    let s := booted 2 3 .aggregation 10
    s.Inv refEnv ∧ s.mode = .aggregation ∧ s.phase = .idle ∧ s.deadline.toNat ≤ s.now.toNat + s.lat.toNat ∧
    s.accLen = 0 ∧ (∃ v ∈ ([9, 10] : List (BitVec 64)), s.now.toNat + s.lat.toNat ≤ v.toNat) ∧
    ∃ t, acceptedUnits refEnv (.dgram [0x77] :: .srcEmpty :: ([9, 10] : List (BitVec 64)).map .time) s =
      some ([[0x77]], t) :=
  ⟨booted_inv _ _ _ _ _ _ _ (by decide) (by decide) (.inl rfl) (fun h => nomatch h), rfl, rfl, by decide, rfl,
    ⟨10, by simp, by decide⟩,
    units_of_map (by decide +kernel)⟩

/-! ### Frames -/

/-- An oversize datagram gives a next state in the machine's own environment. -/
theorem witness_PassThroughFrame :
    ∃ t, exec (.dgram (List.replicate (Config.env.par.aggCap + 1) 0)) (booted 1 1 .passThrough 0) = .next t ∧
      (booted 1 1 .passThrough 0).phase = .idle ∧ (booted 1 1 .passThrough 0).mode = .passThrough := by
  have hover : Config.env.par.fragCap <
      Config.env.par.hPkt + (List.replicate (Config.env.par.aggCap + 1) (0 : Byte)).length := by
    rw [List.length_replicate]
    show Config.env.par.fragCap < Config.env.par.hPkt + (Config.env.par.fragCap - Config.env.par.hPkt + 1)
    omega
  have h := execIn_legal Config.env (i := .dgram (List.replicate (Config.env.par.aggCap + 1) 0))
    (s := booted 1 1 .passThrough 0) (by decide) rfl
  rw [show microSteps Config.env (.dgram (List.replicate (Config.env.par.aggCap + 1) 0)) (booted 1 1 .passThrough 0) =
    accept Config.env (List.replicate (Config.env.par.aggCap + 1) 0) (booted 1 1 .passThrough 0) from rfl,
    accept_tooLarge _ hover] at h
  exact ⟨_, h, rfl, rfl⟩

theorem witness_AggregationFrame :
    exec (.dgram []) (booted 1 1 .aggregation 10) = .next { booted 1 1 .aggregation 10 with phase := .drain } ∧
    (booted 1 1 .aggregation 10).accLen = 0 := by
  refine ⟨?_, rfl⟩
  rw [exec_eq_execIn, execIn_legal (i := .dgram []) _ (by decide) (by decide),
    show microSteps Config.env (.dgram []) (booted 1 1 .aggregation 10) =
      dgramAgg Config.env [] (booted 1 1 .aggregation 10) from rfl, dgramAgg_fits (Nat.zero_le _)]
  rfl

theorem witness_TimerCommandsFrame :
    exec .srcEmpty (booted 1 1 .aggregation 10 .drain) = .next (booted 1 1 .aggregation 10) ∧
    exec .intr (booted 1 1 .aggregation 10) = .next (booted 1 1 .aggregation 10) ∧
    exec (.time 9) (booted 1 1 .aggregation 10) = .next { booted 1 1 .aggregation 10 with now := 9 } ∧
    (booted 1 1 .aggregation 10).accLen = 0 := ⟨rfl, rfl, rfl, rfl⟩

/-! ### The whole machine -/

theorem witness_StepKeepsTheInvariant :
    (booted 1 1 .aggregation 10).Inv Config.env ∧
    step (booted 1 1 .aggregation 10) = .next (booted 1 1 .aggregation 10) :=
  ⟨booted_inv _ _ _ _ _ _ _ ⟨by decide, by decide, one_le_nMax _⟩ (Nat.zero_le _) (.inl rfl) (fun h => nomatch h), rfl⟩

theorem witness_StepNeverStops : (booted 1 1 .passThrough 0).Inv Config.env :=
  booted_inv _ _ _ _ _ _ _ ⟨by decide, by decide, one_le_nMax _⟩ (Nat.zero_le _) (.inl rfl) (fun _ => ⟨rfl, rfl⟩)

/-- A run's end, a faulted one, and a `DGRAM` whose follow word never came. -/
theorem witness_BlockWaitsForTheHost :
    ((booted 1 1 .passThrough 0).Inv Config.env ∧ (booted 1 1 .passThrough 0).RunEnded) ∧
    (((booted 1 1 .passThrough 0).raiseFault .sourceReadError 0).Inv Config.env ∧
      ((booted 1 1 .passThrough 0).raiseFault .sourceReadError 0).RunFaulted) ∧
    (({ booted 1 1 .passThrough 0 with decoder := [0x40000001] } : State).Inv Config.env ∧
      ({ booted 1 1 .passThrough 0 with decoder := [0x40000001] } : State).RunStuck) := by
  have h := witness_StepNeverStops
  refine ⟨⟨h, by decide⟩, ⟨(h.base.raise (h.clean (by decide)) (by decide) 0).inv, by decide⟩, ⟨?_, by decide⟩⟩
  exact { h with
    decoderPartial := fun w ws hw => by cases hw; decide
    running := fun hp => { h.running hp with } }

theorem witness_HistoryOnlyGrows :
    step ((booted 1 1 .aggregation 10).offer [0x25000000]) =
      .next { booted 1 1 .aggregation 10 with events := [.rsp 9] } := rfl

theorem witness_OnlyRdcsrResponds :
    exec (.rdcsr .k) State.reset = .next { State.reset with events := [.rsp 0] } ∧
    exec (.wrcfg .k 3) State.reset = .next { State.reset with k := 3 } ∧ (∀ c, Instr.wrcfg .k 3 ≠ .rdcsr c) :=
  ⟨rfl, rfl, fun _ h => nomatch h⟩

theorem witness_OnlyTimeMovesTheClock :
    exec (.time 7) State.reset = .next { State.reset with now := 7 } ∧
    exec (.wrcfg .k 3) State.reset = .next { State.reset with k := 3 } ∧ (∀ v, Instr.wrcfg .k 3 ≠ .time v) :=
  ⟨rfl, rfl, fun _ h => nomatch h⟩

end Sys2Proof.Tests
end

section
/-!
PROOFS. Header fields and data fragments read byte by byte (00_scope.md R11, 20_memory.md R61, 41_frame_builder.md R154),
and buffer writes read back (20_memory.md R60).
-/

namespace Sys2Proof.Machine

theorem getElem?_bytesLe {n j : Nat} (v : Nat) (h : j < n) :
    (bytesLe n v)[j]? = some (BitVec.ofNat 8 (v / 2 ^ (8 * j))) := by
  induction n generalizing v j with
  | zero => omega
  | succ n ih =>
    cases j with
    | zero => simp [bytesLe]
    | succ j =>
      have shift : v / 256 / 2 ^ (8 * j) = v / 2 ^ (8 * (j + 1)) := by
        rw [Nat.div_div_eq_div_mul, Nat.mul_succ, Nat.pow_add, Nat.mul_comm]
      rw [bytesLe, List.getElem?_cons_succ, ih _ (by omega), shift]

theorem getElem?_encField_le {w j : Nat} (v : Nat) (h : j < w / 8) :
    (encField .le w v)[j]? = some (BitVec.ofNat 8 (v % 2 ^ w / 2 ^ (8 * j))) :=
  getElem?_bytesLe _ h

theorem getElem?_encField_be {w j : Nat} (v : Nat) (hw : w % 8 = 0) (h : j < w / 8) :
    (encField .be w v)[j]? = some (BitVec.ofNat 8 (v % 2 ^ w / 2 ^ (w - 8 - 8 * j))) := by
  have mirrored : 8 * (w / 8 - 1 - j) = w - 8 - 8 * j := by omega
  rw [encField, List.getElem?_reverse (by simpa using h), length_bytesLe, getElem?_bytesLe _ (by omega), mirrored]

/-- Sequence number first, then the payload length (R154). -/
theorem getElem?_pktHdr {p : Params} {o : Nat} (s len : Nat) :
    (pktHdr p s len)[o]? =
      if o < p.wSeq / 8 then (encField p.hdrOrder p.wSeq s)[o]?
      else (encField p.hdrOrder p.wLen len)[o - p.wSeq / 8]? := by
  rw [pktHdr, List.getElem?_append, length_encField]

theorem getElem?_dataFragment {p : Params} {payload : List Byte} (s o : Nat)
    (h : p.hPkt + payload.length ≤ p.fragCap) :
    (dataFragment p s payload)[o]? =
      if o < p.hPkt then (pktHdr p s payload.length)[o]?
      else if o < p.hPkt + payload.length then payload[o - p.hPkt]?
      else if o < p.fragCap then some 0
      else none := by
  rw [dataFragment, List.append_assoc, List.getElem?_append, length_pktHdr]
  split
  case isTrue => rfl
  case isFalse hHdr =>
    rw [List.getElem?_append, List.getElem?_replicate]
    split
    case isTrue hPayload => rw [if_pos (by omega)]
    case isFalse hPayload =>
      have behind : ¬ o < p.hPkt + payload.length := by omega
      have padded : o - p.hPkt - payload.length < p.fragCap - (p.hPkt + payload.length) ↔ o < p.fragCap := by omega
      simp only [behind, padded, if_false]

/-- Settles O23: the byte of `bytesLe` at each place, mirrored for BE, and the fragment cut at its three parts. -/
theorem headerFieldBytes : Obligations.HeaderFieldBytes := by
  refine ⟨fun w v j hw hj => ⟨getElem?_encField_le v hj, getElem?_encField_be v hw hj⟩, fun e q o p hp => ?_⟩
  rw [getElem?_dataFragment q o hp, getElem?_pktHdr]
  by_cases hSeq : o < e.par.wSeq / 8
  · have hHdr : o < e.par.hPkt := Nat.lt_add_right _ hSeq
    rw [if_pos hHdr]
    simp only [hSeq, if_true]
  · simp only [hSeq, if_false]

/-- Settles O26, by the rules of `Memory.writeBytes`: it keeps the form, and what it reads inside and outside the range. -/
theorem bufferReadsBackItsWrites : Obligations.BufferReadsBackItsWrites :=
  fun m a _ bs hwf =>
    ⟨Memory.wf_writeBytes hwf a bs, Memory.readBytes_writeBytes_same m a bs, Memory.read_writeBytes_outside⟩

end Sys2Proof.Machine
end

section
/-!
PROOFS. The invariant through every command and every step (10_state.md R37), and that from a state that meets it a step
never stops (R39, 20_memory.md R69).
-/

namespace Sys2Proof.Machine

/-! ## The invariant under the updates that no engine step makes -/

/-- The port and the decoder are in no part of the invariant but R23's. -/
theorem State.Inv.withWords {e : Env} {s : State} (h : s.Inv e) {d : List Word} (p : List Word)
    (hd : ∀ w ws, d = w :: ws → ws.length < follow w) : { s with decoder := d, port := p }.Inv e :=
  { h with
    decoderPartial := hd
    running := fun hp => { h.running hp with } }

theorem State.Inv.respond {e : Env} {s : State} (h : s.Inv e) (v : Word) : (s.respond v).Inv e :=
  { h with
    unstarted := by rw [State.txStream_respond]; exact h.unstarted
    running := fun hp => { h.running hp with }
    framesFit := by rw [State.txStream_respond]; exact h.framesFit
    framesOk := by rw [State.txStream_respond]; exact h.framesOk }

/-- Before `START` the configuration and the clock are free. -/
theorem State.Inv.reconfigure {e : Env} {s : State} (h : s.Inv e) (hp : s.phase = .uncfg) (k n : BitVec 16)
    (tag : BitVec 8) (mode : Mode) (lat : BitVec 32) (now : BitVec 64) :
    { s with k := k, n := n, tag := tag, mode := mode, lat := lat, now := now }.Inv e :=
  { h with running := fun hr => by simp [hp] at hr }

/-- A raise from any phase but `HALT` halts in order (R231). -/
theorem State.Inv.raiseFault {e : Env} {s : State} (h : s.Inv e) (hp : s.phase ≠ .halt) {c : Cause} (hc : c ≠ .none)
    (v : Word) : (s.raiseFault c v).Inv e :=
  (h.base.raise (h.clean hp) hc v).inv

/-! ## The micro-steps of a legal command -/

theorem writeCsr_lands {e : Env} {s : State} (h : s.Inv e) (hp : s.phase = .uncfg) (w : Word) (c : Csr) (v : Word) :
    (writeCsr w c v s).Lands (State.Inv e) (State.Inv e) := by
  have hraise : (raise .illegalCmd w s).Lands (State.Inv e) (State.Inv e) :=
    h.raiseFault (by simp [hp]) (by decide) w
  cases c with
  | k => exact h.reconfigure hp (v.extractLsb' 0 16) s.n s.tag s.mode s.lat s.now
  | n => exact h.reconfigure hp s.k (v.extractLsb' 0 16) s.tag s.mode s.lat s.now
  | tag => exact h.reconfigure hp s.k s.n (v.extractLsb' 0 8) s.mode s.lat s.now
  | mode => exact h.reconfigure hp s.k s.n s.tag (Mode.ofBit (v.extractLsb' 0 1)) s.lat s.now
  | lat => exact h.reconfigure hp s.k s.n s.tag s.mode v s.now
  | _ => exact hraise

/-- The core that `START` constructs is a run in progress with an empty block (R215). -/
theorem constructCore_live {e : Env} {s : State} (h : s.Inv e) (hp : s.phase = .uncfg) (hcfg : configLegal e s) :
    Live e (constructCore s) := by
  obtain ⟨-, -, -, -, -, -, htx⟩ := h.unstarted hp
  have hclean := h.clean (by simp [hp])
  exact { h with
    blkIdxFits := Nat.two_pow_pos _
    frgIdxFits := Nat.zero_le _
    blkMaxFits := Nat.zero_le _
    seqFits := Nat.two_pow_pos _
    accLenFits := Nat.zero_le _
    fault := hclean.fault
    cause := hclean.cause
    info := hclean.info
    config := hcfg
    slot := hcfg.1
    emptyBlock := by simp
    framed := by simp
    fragments := by simp
    buffered := ⟨[], rfl⟩
    framesOk := by
      show ∀ r ∈ s.txStream, _
      simp [htx] }

/-- A timeout check made in aggregation `IDLE` leaves the invariant. -/
theorem Checked.inv {e : Env} {s t : State} (h : Checked e s t) (hp : s.phase = .idle) (hm : s.mode = .aggregation) :
    t.Inv e :=
  h.live.inv
    { phase := .inl (h.phase.trans hp)
      passThrough := fun ht => by simp [← h.mode, ht] at hm
      deadlineAhead := fun _ _ => h.ahead }

theorem checkTimeout_lands_inv {e : Env} {s : State} (h : Live e s) (hp : s.phase = .idle)
    (hm : s.mode = .aggregation) : (checkTimeout e s).Lands (State.Inv e) (State.Inv e) :=
  (checkTimeout_lands h).mono (fun _ ht => ht.inv hp hm) fun _ ht => ht.inv

/-- The check of `INTR` and `TIME` restores item 8 of R37, which a moved clock may have broken, where item 8 asks
something. -/
theorem checkTimeoutIfIdle_lands_inv {e : Env} {s : State} (h : Live e s) (hp : s.phase = .idle ∨ s.phase = .drain)
    (hpass : s.mode = .passThrough → s.accLen = 0 ∧ s.phase = .idle) :
    (checkTimeoutIfIdle e s).Lands (State.Inv e) (State.Inv e) := by
  rw [checkTimeoutIfIdle]
  split
  case isTrue hidle => exact checkTimeout_lands_inv h hidle.1 hidle.2
  case isFalse hidle => exact h.inv ⟨hp, hpass, fun hm hi => absurd ⟨hi, hm⟩ hidle⟩

/-- `ACCEPT` touches nothing that items 7 and 8 of R37 speak of. -/
theorem SameOutside.settled {s t : State} (h : SameOutside s t) (hs : Settled s) : Settled t := by
  rw [h]
  exact ⟨hs.phase, hs.passThrough, hs.deadlineAhead⟩

theorem accept_lands_inv {e : Env} {s : State} (h : Live e s) (hs : Settled s) (p : List Byte) :
    (accept e p s).Lands (State.Inv e) (State.Inv e) :=
  (accept_lands p h).mono (fun _ ⟨hlive, hout, _⟩ => hlive.inv (hout.settled hs)) fun _ ht => ht.inv

theorem Gathered.inv {e : Env} {s t : State} {p : List Byte} (h : Gathered e s p t) (hm : s.mode = .aggregation) :
    t.Inv e :=
  h.live.inv
    { phase := .inr h.phase
      passThrough := fun ht => by simp [← h.mode, ht] at hm
      deadlineAhead := fun _ hi => by simp [h.phase] at hi }

theorem dgramAgg_lands_inv {e : Env} {s : State} (h : Live e s) (hm : s.mode = .aggregation) (p : List Byte) :
    (dgramAgg e p s).Lands (State.Inv e) (State.Inv e) :=
  (dgramAgg_lands p h).mono (fun _ ht => ht.inv hm) fun _ ht => ht.inv

theorem start_lands {e : Env} {s : State} (h : s.Inv e) (hp : s.phase = .uncfg) :
    (microSteps e .start s).Lands (State.Inv e) (State.Inv e) := by
  rw [microSteps]
  split
  case isFalse => exact h.raiseFault (by simp [hp]) (by decide) _
  case isTrue hcfg =>
    have hlive := constructCore_live h hp hcfg
    split
    case isTrue hm => exact checkTimeout_lands_inv hlive rfl hm
    case isFalse hm => exact hlive.inv ⟨.inl rfl, fun _ => ⟨rfl, rfl⟩, fun ha => absurd ha hm⟩

theorem dgram_lands {e : Env} {s : State} (h : s.Inv e) (hp : s.phase = .idle ∨ s.phase = .drain) (p : List Byte) :
    (microSteps e (.dgram p) s).Lands (State.Inv e) (State.Inv e) := by
  rw [microSteps]
  split
  next => exact accept_lands_inv (h.live hp) (h.settled hp) p
  next hm => exact dgramAgg_lands_inv (h.live hp) hm p

theorem Phase.idle_or_drain {p : Phase} (hu : p ≠ .uncfg) (hh : p ≠ .halt) : p = .idle ∨ p = .drain := by
  cases p with
  | uncfg => exact absurd rfl hu
  | idle => exact .inl rfl
  | drain => exact .inr rfl
  | halt => exact absurd rfl hh

theorem time_lands {e : Env} {s : State} (h : s.Inv e) (hp : s.phase ≠ .halt) (v : BitVec 64) :
    (microSteps e (.time v) s).Lands (State.Inv e) (State.Inv e) := by
  rw [microSteps]
  split
  case isTrue => exact h.raiseFault hp (by decide) _
  case isFalse =>
    by_cases hu : s.phase = .uncfg
    · have hskip : checkTimeoutIfIdle e { s with now := v } = .run { s with now := v } := by
        simp [checkTimeoutIfIdle, hu]
      rw [hskip]
      exact h.reconfigure hu s.k s.n s.tag s.mode s.lat v
    · have hrun := Phase.idle_or_drain hu hp
      exact checkTimeoutIfIdle_lands_inv ((h.live hrun).retime s.phase v s.deadline) hrun (h.settled hrun).passThrough

/-- From a state that meets the invariant a legal command lands in one. -/
theorem microSteps_lands {e : Env} {s : State} (i : Instr) (h : s.Inv e) (hp : s.phase ≠ .halt)
    (hl : legal i s.phase s.mode = true) : (microSteps e i s).Lands (State.Inv e) (State.Inv e) := by
  cases i with
  | wrcfg c v =>
    have hu : s.phase = .uncfg ∧ csrWritable c = true := by simpa [legal] using hl
    exact writeCsr_lands h hu.1 _ c v
  | rdcsr c => exact h.respond _
  | start => exact start_lands h (by simpa [legal] using hl)
  | dgram p =>
    have hr : s.phase = .idle ∨ s.phase = .drain ∧ s.mode = .aggregation := by simpa [legal] using hl
    exact dgram_lands h (hr.imp_right And.left) p
  | srcEmpty =>
    have hr : (s.phase = .idle ∨ s.phase = .drain) ∧ s.mode = .aggregation := by simpa [legal] using hl
    exact checkTimeout_lands_inv ((h.live hr.1).retime .idle s.now s.deadline) rfl hr.2
  | srcErr => exact h.raiseFault hp (by decide) _
  | intr =>
    have hr : s.phase = .idle ∨ s.phase = .drain := by simpa [legal] using hl
    exact checkTimeoutIfIdle_lands_inv (h.live hr) hr (h.settled hr).passThrough
  | time v => exact time_lands h hp v

/-! ## Every command and every step -/

/-- A command answers a next state and keeps the invariant, in every environment. -/
theorem execIn_keepsInv {e : Env} {s : State} (i : Instr) (h : s.Inv e) : ∃ t, execIn e i s = .next t ∧ t.Inv e := by
  by_cases hi : ∃ c, i = .rdcsr c
  · obtain ⟨c, rfl⟩ := hi
    exact ⟨_, rfl, h.respond _⟩
  have hi : ∀ c, i ≠ .rdcsr c := fun c hc => hi ⟨c, hc⟩
  by_cases hp : s.phase = .halt
  · exact ⟨s, execIn_halt e hp hi, h⟩
  cases hl : legal i s.phase s.mode with
  | false => exact ⟨_, execIn_illegal e hp hl, h.raiseFault hp (by decide) _⟩
  | true =>
    obtain ⟨t, ht, hinv⟩ := (microSteps_lands i h hp hl).next
    exact ⟨t, (execIn_legal e hp hl).trans ht, hinv.elim id id⟩

theorem execMalformed_keepsInv {e : Env} {s : State} (w : Word) (h : s.Inv e) :
    ∃ t, execMalformed w s = .next t ∧ t.Inv e := by
  by_cases hp : s.phase = .halt
  · exact ⟨s, command_halt hp, h⟩
  · exact ⟨_, command_illegal hp rfl, h.raiseFault hp (by decide) _⟩

/-- A word stream that is no complete command lacks follow words (30_encoding.md R91). -/
theorem length_lt_follow_of_incomplete {w : Word} {ws : List Word} (h : decode (w :: ws) = .incomplete) :
    ws.length < follow w := by
  by_contra hlt
  rw [decode, if_neg hlt] at h
  split at h <;> cases h

/-- A step answers a next state and keeps the invariant, in every environment. -/
theorem stepIn_keepsInv {e : Env} {s : State} (h : s.Inv e) : ∃ t, stepIn e s = .next t ∧ t.Inv e := by
  have hboundary : ∀ rest, { s with decoder := [], port := rest }.Inv e := fun rest => h.withWords rest (by simp)
  rw [stepIn, fetch]
  cases hd : decode (s.decoder ++ s.port) with
  | incomplete =>
    exact ⟨_, rfl, h.withWords [] fun w ws hw => length_lt_follow_of_incomplete (hw ▸ hd)⟩
  | malformedWord w rest => exact execMalformed_keepsInv w (hboundary rest)
  | command i rest => exact execIn_keepsInv i (hboundary rest)

/-- Settles O55: each command lands in the invariant, since each part of it does (`microSteps_lands`). -/
theorem stepKeepsTheInvariant : Obligations.StepKeepsTheInvariant := by
  intro s t h hstep
  obtain ⟨u, hu, hinv⟩ := stepIn_keepsInv h
  rw [step_eq_stepIn, hu] at hstep
  cases hstep
  exact hinv

/-- Settles O56: the same landing says that no micro-step stops. -/
theorem stepNeverStops : Obligations.StepNeverStops := by
  intro s h
  obtain ⟨t, ht, -⟩ := stepIn_keepsInv h
  exact ⟨t, (step_eq_stepIn s).trans ht⟩

/-- Settles O54: nothing is written, counted or on the air at reset, and `UNCFG` asks no more. -/
theorem resetMeetsTheInvariant : Obligations.ResetMeetsTheInvariant := fun e =>
  { fragWf := .nil
    fragBound := by simp [State.reset]
    accWf := .nil
    accBound := by simp [State.reset]
    blkIdxFits := Nat.two_pow_pos _
    frgIdxFits := Nat.zero_le _
    blkMaxFits := Nat.zero_le _
    seqFits := Nat.two_pow_pos _
    accLenFits := Nat.zero_le _
    decoderPartial := by simp [State.reset]
    faultHalt := by simp [State.reset]
    faultCause := by simp [State.reset]
    noInfo := fun _ => rfl
    unstarted := fun _ => ⟨rfl, rfl, rfl, rfl, rfl, rfl, rfl⟩
    running := by simp [State.reset]
    framesFit := by simp [State.txStream, State.reset]
    framesOk := by simp [State.txStream, State.reset] }

end Sys2Proof.Machine
end

section
/-!
PROOFS. What every step only adds to or leaves alone, from any state (10_state.md R30, R32, R40), the port's waiting (R23),
and the values of `STATUS`, `REMAIN` and the reset state (R35, R30, R41).
-/

namespace Sys2Proof.Machine

/-! ## What no step takes back -/

/-- The history is only appended to and a recorded fault stays as it is (R40, R232). -/
structure Retains (s t : State) : Prop where
  events : ∃ l, t.events = s.events ++ l
  fault : s.fault = true → t.fault = true ∧ t.cause = s.cause ∧ t.info = s.info

theorem Retains.of_eq {s t : State} (he : t.events = s.events) (hf : t.fault = s.fault) (hc : t.cause = s.cause)
    (hi : t.info = s.info) : Retains s t :=
  ⟨⟨[], by simp [he]⟩, fun h => ⟨hf.trans h, hc, hi⟩⟩

theorem Kept.retains {s t : State} (h : Kept s t) : Retains s t :=
  ⟨h.events.imp' _ fun _ hl => hl, h.fault⟩

theorem Changes.retains {s t : State} {i : Instr} (h : Changes s t i) : Retains s t := by
  cases h with
  | wrcfg c v hp ht =>
    exact .of_eq (by rw [ht]) (by rw [ht]) (by rw [ht]) (by rw [ht])
  | rdcsr c ht => subst ht; exact ⟨⟨_, rfl⟩, fun hf => ⟨hf, rfl, rfl⟩⟩
  | time v hv hk => exact ⟨hk.retains.events, hk.retains.fault⟩
  | kept i hk hi => exact hk.retains

theorem step_retains {s t : State} (h : step s = .next t) : Retains s t := by
  rcases step_next h with ⟨-, rfl⟩ | ⟨w, rest, -, hw⟩ | ⟨i, rest, -, hi⟩
  · exact .of_eq rfl rfl rfl rfl
  · have hr := (execMalformed_kept hw).retains
    exact ⟨hr.events, hr.fault⟩
  · rw [exec_eq_execIn] at hi
    have hr := (execIn_changes hi).retains
    exact ⟨hr.events, hr.fault⟩

/-- Settles O14: a step retains a recorded fault. -/
theorem firstFaultIsKept : Obligations.FirstFaultIsKept := fun _ _ h => (step_retains h).fault

/-- Settles O58: a step only appends events. -/
theorem historyOnlyGrows : Obligations.HistoryOnlyGrows := fun _ _ h => (step_retains h).events

/-- Settles O60: of the four kinds of change only a `TIME` that is taken moves `NOW`, and forward. -/
theorem onlyTimeMovesTheClock : Obligations.OnlyTimeMovesTheClock := by
  intro i s t h
  have fixed : t.now = s.now → ((∀ v, i ≠ .time v) → t.now = s.now) ∧ s.now ≤ t.now :=
    fun hn => ⟨fun _ => hn, by rw [hn]; exact BitVec.le_refl _⟩
  rw [exec_eq_execIn] at h
  cases execIn_changes h with
  | wrcfg c v hp ht => exact fixed (by rw [ht])
  | rdcsr c ht => exact fixed (by rw [ht, State.respond_now])
  | time v hv hk => exact ⟨fun hi => absurd rfl (hi v), by rw [hk.now]; exact hv⟩
  | kept i hk hi => exact fixed hk.now

/-! ## Waiting for a whole command -/

theorem step_of_incomplete {s : State} (h : decode (s.decoder ++ s.port) = .incomplete) :
    step s = .next { s with decoder := s.decoder ++ s.port, port := [] } := by
  rw [step, fetch, h]

/-- The words received so far may stand in the decoder or on the port: the next command is the same. -/
theorem step_offer_of_received (s : State) (ws : List Word) :
    step (State.offer ws { s with decoder := s.decoder ++ s.port, port := [] }) = step (s.offer ws) := by
  have hfetch : fetch (State.offer ws { s with decoder := s.decoder ++ s.port, port := [] }) = fetch (s.offer ws) := by
    simp only [fetch, State.offer, List.nil_append, List.append_assoc]
  rw [step, step, hfetch]

/-- Settles O7: `fetch` keeps an incomplete command's words, and a wait is a next state. -/
theorem stepWaitsForAWholeCommand : Obligations.StepWaitsForAWholeCommand := fun _ h => step_of_incomplete h

/-- Settles O8: a waiting step only moves the received words into the decoder, and the framing reads decoder and port as
one stream. -/
theorem deliveryInPartsIsDeliveryAtOnce : Obligations.DeliveryInPartsIsDeliveryAtOnce := by
  intro s t ws hd hstep
  rw [step_of_incomplete hd] at hstep
  cases hstep
  exact step_offer_of_received s ws

/-! ## STATUS -/

theorem Phase.toNat_code (p : Phase) :
    p.code.toNat = if p = .uncfg then 0 else if p = .idle then 1 else if p = .drain then 2 else 3 := by
  cases p <;> rfl

theorem Mode.toNat_bit (m : Mode) : m.bit.toNat = if m = .passThrough then 0 else 1 := by cases m <;> rfl

theorem Cause.toNat_code (c : Cause) :
    c.code.toNat = if c = .none then 0 else if c = .payloadTooLarge then 1
      else if c = .injectionFailed then 2 else if c = .sourceReadError then 3
      else if c = .usageError then 4 else if c = .illegalCmd then 5 else 6 := by
  cases c <;> rfl

/-- Four fields side by side: the bitwise or of the shifted fields is their sum. -/
theorem toNat_statusFields (c : BitVec 4) (m : BitVec 1) (f : Bool) (p : BitVec 2) :
    ((c.setWidth 32 <<< 4) ||| (m.setWidth 32 <<< 3) ||| ((BitVec.ofBool f).setWidth 32 <<< 2) |||
      p.setWidth 32 : Word).toNat = p.toNat + 4 * (if f then 1 else 0) + 8 * m.toNat + 16 * c.toNat := by
  revert c m f p
  decide

/-- Settles O17: the packed word is the sum of its fields, and each field is the code of its table. -/
theorem statusPacksItsFields : Obligations.StatusPacksItsFields := by
  intro s
  rw [State.status, toNat_statusFields, Phase.toNat_code, Mode.toNat_bit, Cause.toNat_code]

/-! ## REMAIN -/

theorem State.toNat_remain (s : State) : s.remain.toNat = s.deadline.toNat - s.now.toNat := by
  rw [State.remain]
  split
  case isTrue h => exact BitVec.toNat_sub_of_le (BitVec.le_of_lt h)
  case isFalse h =>
    have hle : s.deadline.toNat ≤ s.now.toNat := BitVec.le_def.1 (BitVec.not_lt.1 h)
    simp [Nat.sub_eq_zero_of_le hle]

/-- Nothing remains exactly where the timeout is due (R180). -/
theorem State.remain_eq_zero_iff (s : State) : s.remain = 0 ↔ s.deadline ≤ s.now := by
  rw [← BitVec.toNat_inj, s.toNat_remain, BitVec.le_def]
  exact Nat.sub_eq_zero_iff_le

/-- With an empty buffer a due timeout restarts the deadline, and does nothing else (R177). -/
theorem checkTimeout_of_empty (e : Env) {s : State} (h : s.accLen = 0) :
    checkTimeout e s = .run (if s.deadline ≤ s.now then s.restartDeadline else s) := by
  rw [checkTimeout]
  split
  next => rw [timeout, flushIfAny, if_neg (by omega), Flow.run_andThen]
  next => rfl

/-- Settles O48: both sides ask whether `DEADLINE <= NOW`, and with nothing to flush a timeout only restarts the
deadline. -/
theorem remainingTimeDecidesTheTimeout : Obligations.RemainingTimeDecidesTheTimeout := by
  refine fun s => ⟨s.toNat_remain, fun hp hm hz => ?_⟩
  have hl : legal .intr s.phase s.mode = true := by simp [legal, hp]
  rw [exec_eq_execIn, execIn_legal _ (by simp [hp]) hl, microSteps, checkTimeoutIfIdle, if_pos ⟨hp, hm⟩,
    checkTimeout_of_empty _ hz, Flow.outcome_run]
  simp only [s.remain_eq_zero_iff, State.restartDeadline]

/-! ## Reset -/

/-- Settles O52: the fields of `State.reset`, read off. -/
theorem resetLeavesTheResetValues : Obligations.ResetLeavesTheResetValues := by
  unfold Obligations.ResetLeavesTheResetValues
  decide

end Sys2Proof.Machine
end

section
/-!
PROOFS. Accesses outside a buffer (20_memory.md R69), and the frames of a run in either mode (20_memory.md R72,
40_block_engine.md R128): one `ACCEPT` adds the frames of its unit, a run is a sequence of `ACCEPT`s.
-/

namespace Sys2Proof.Machine

/-- Settles O25: each accessor tests its bounds before anything else. -/
theorem outOfBoundsIsRefused : Obligations.OutOfBoundsIsRefused :=
  fun _ _ _ _ _ _ _ =>
    ⟨fun _ => if_neg (by omega), fun _ => if_neg (by omega), fun _ => if_neg (by omega), fun _ => if_neg (by omega)⟩

/-! ## A run in progress -/

/-- A sound state between two commands of a run. -/
structure InRun (e : Env) (s : State) : Prop where
  inv : s.Inv e
  phase : s.phase = .idle ∨ s.phase = .drain

theorem InRun.engineOk {e : Env} {s : State} (h : InRun e s) : EngineOk e s := (h.inv.live h.phase).engineOk

/-- No command of a run goes back to `UNCFG` or changes the mode (R264). -/
theorem Changes.keepsMode {i : Instr} {s t : State} (h : Changes s t i) (hs : s.phase ≠ .uncfg) :
    t.phase ≠ .uncfg ∧ t.mode = s.mode := by
  cases h with
  | wrcfg c v hp ht => exact absurd hp hs
  | rdcsr c ht => subst ht; exact ⟨hs, rfl⟩
  | time v hv hk => exact ⟨fun ht => hs (hk.phase ht), hk.mode⟩
  | kept i hk hi => exact ⟨fun ht => hs (hk.phase ht), hk.mode⟩

/-- A command that does not halt stays in the run, in its mode. -/
theorem InRun.next {e : Env} {i : Instr} {s t : State} (h : InRun e s) (hx : execIn e i s = .next t)
    (ht : t.phase ≠ .halt) : InRun e t ∧ t.mode = s.mode := by
  have hs : s.phase ≠ .uncfg := by rcases h.phase with hp | hp <;> simp [hp]
  obtain ⟨hu, hmode⟩ := (execIn_changes hx).keepsMode hs
  obtain ⟨t', hx', hinv⟩ := execIn_keepsInv i h.inv
  rw [hx] at hx'
  cases hx'
  exact ⟨⟨hinv, Phase.idle_or_drain hu ht⟩, hmode⟩

/-- The two ways an `ACCEPT` runs to its end. -/
theorem accept_run {e : Env} {p : List Byte} {s u : State} (h : EngineOk e s) (ha : accept e p s = .run u) :
    (s.frgIdx + 1 < s.k.toNat ∧ u = blockOpen e p s) ∨ (s.frgIdx + 1 = s.k.toNat ∧ u = blockDone e p s) := by
  rcases accept_cases p h with ⟨-, hc⟩ | ⟨-, ⟨-, hc⟩ | ⟨-, hk, hc⟩ | ⟨-, hk, ⟨f, -, hc⟩ | hc⟩⟩ <;>
    rw [hc] at ha <;> cases ha
  · exact .inl ⟨hk, rfl⟩
  · exact .inr ⟨hk, rfl⟩

theorem accept_run_seq {e : Env} {p : List Byte} {s u : State} (h : EngineOk e s) (ha : accept e p s = .run u) :
    u.seq = (s.seq + 1) % 2 ^ e.par.wSeq := by
  rcases accept_run h ha with ⟨-, rfl⟩ | ⟨-, rfl⟩ <;> rfl

/-- A count shows in `SEQ`: it has at least 8 bits (R8). -/
theorem succ_seq_ne (e : Env) {q : Nat} (h : q < 2 ^ e.par.wSeq) : (q + 1) % 2 ^ e.par.wSeq ≠ q := by
  have hw : 2 ^ 8 ≤ 2 ^ e.par.wSeq := Nat.pow_le_pow_right (by decide) e.valid.2.1.2.1
  by_cases hlast : q + 1 = 2 ^ e.par.wSeq
  · rw [hlast, Nat.mod_self]; omega
  · rw [Nat.mod_eq_of_lt (by omega)]; omega

/-- Read off `SEQ`, as `acceptedUnits` does: a command that counted no unit left the engine alone, one that counted ran one
`ACCEPT` of its unit. -/
theorem InRun.unit {e : Env} {i : Instr} {s t : State} (h : InRun e s) (hx : execIn e i s = .next t)
    (ht : t.phase ≠ .halt) :
    (t.seq = s.seq ∧ SameEngine s t) ∨
    (t.seq ≠ s.seq ∧ ∃ m u, SameEngine s m ∧ accept e (acceptedUnit i s) m = .run u ∧ SameEngine u t) := by
  cases execIn_unit h.phase hx ht with
  | quiet hq => exact .inl ⟨hq.seq, hq⟩
  | counted m u hm ha hu =>
    refine .inr ⟨?_, m, u, hm, ha, hu⟩
    rw [hu.seq, accept_run_seq (hm.engineOk h.engineOk) ha, hm.seq]
    exact succ_seq_ne e h.inv.seqFits

/-! ## In pass-through the units are the datagrams (42_ingestion.md R171) -/

/-- In pass-through only `DGRAM` counts a unit. -/
theorem execIn_passThrough_seq {e : Env} {i : Instr} {s t : State} (hm : s.mode = .passThrough)
    (hp : s.phase = .idle ∨ s.phase = .drain) (hi : ∀ p, i ≠ .dgram p) (hx : execIn e i s = .next t) :
    t.seq = s.seq := by
  have hu : s.phase ≠ .uncfg := by rcases hp with hp | hp <;> simp [hp]
  rcases execIn_next hx with ⟨c, -, rfl⟩ | ⟨-, rfl⟩ | ⟨-, -, rfl⟩ | ⟨-, hl, hr⟩
  · rfl
  · rfl
  · exact State.raiseFault_seq ..
  have nocheck : ∀ v, checkTimeoutIfIdle e { s with now := v } = .run { s with now := v } := fun v =>
    if_neg (by simp [hm])
  cases i with
  | wrcfg c v => simp [legal, hu] at hl
  | rdcsr c => cases hr; rfl
  | start => simp [legal, hu] at hl
  | dgram p => exact absurd rfl (hi p)
  | srcEmpty => simp [legal, hm] at hl
  | srcErr => cases hr; exact State.raiseFault_seq ..
  | intr =>
    rw [microSteps, nocheck s.now] at hr
    cases hr; rfl
  | time v =>
    rw [microSteps] at hr
    split at hr
    · cases hr; exact State.raiseFault_seq ..
    · rw [nocheck v] at hr
      cases hr; rfl

/-- In pass-through a `DGRAM` that does not halt counts a unit. -/
theorem InRun.dgram_seq {e : Env} {p : List Byte} {s t : State} (h : InRun e s) (hm : s.mode = .passThrough)
    (hx : execIn e (.dgram p) s = .next t) (ht : t.phase ≠ .halt) : t.seq ≠ s.seq := by
  have hidle : s.phase = .idle := ((h.inv.running h.phase).passThrough hm).2
  rw [execIn_legal e (by simp [hidle]) (by simp [legal, hidle])] at hx
  have ha : accept e p s = .run t := by
    rcases Flow.outcome_eq_next.1 hx with hr | hr
    · rw [microSteps, hm] at hr; exact hr
    · exact absurd (microSteps_ended hr) ht
  rw [accept_run_seq h.engineOk ha]
  exact succ_seq_ne e h.inv.seqFits

theorem acceptedUnits_passThrough {e : Env} {is : List Instr} {s t : State} {us : List (List Byte)} (h : InRun e s)
    (hm : s.mode = .passThrough) (hr : acceptedUnits e is s = some (us, t)) : us = datagrams is := by
  induction is generalizing s us with
  | nil => cases hr; rfl
  | cons i is ih =>
    obtain ⟨u, vs, hx, hu, hvs, rfl⟩ := acceptedUnits_cons.1 hr
    obtain ⟨hrun, hmode⟩ := h.next hx hu
    rw [ih hrun (hmode.trans hm) hvs]
    by_cases hd : ∃ p, i = .dgram p
    · obtain ⟨p, rfl⟩ := hd
      rw [if_neg (h.dgram_seq hm hx hu), acceptedUnit_passThrough hm]
      rfl
    · have hd : ∀ p, i ≠ .dgram p := fun p hp => hd ⟨p, hp⟩
      rw [if_pos (execIn_passThrough_seq hm h.phase hd hx)]
      cases i with
      | dgram p => exact absurd rfl (hd p)
      | _ => rfl

/-! ## Counting units by blocks -/

/-- One more unit in an open block. -/
theorem succ_div_mod_open {c k : Nat} (h : c % k + 1 < k) : (c + 1) / k = c / k ∧ (c + 1) % k = c % k + 1 :=
  (Nat.div_mod_unique (by omega)).2 ⟨by have := Nat.mod_add_div c k; omega, h⟩

/-- The last unit of a block. -/
theorem succ_div_mod_done {c k : Nat} (h : c % k + 1 = k) : (c + 1) / k = c / k + 1 ∧ (c + 1) % k = 0 :=
  (Nat.div_mod_unique (by omega)).2 ⟨by have := Nat.mod_add_div c k; rw [Nat.mul_succ]; omega, by omega⟩

/-- The fragment headers that `c` units put on the air from an empty block: all `N` of each complete block, then those of
the data fragments of the open one. -/
def runHeaders (e : Env) (s : State) (c : Nat) : List (List Byte) :=
  ((List.range (c / s.k.toNat)).flatMap fun b =>
    (List.range s.n.toNat).map fun i => fragHdr e.par ((s.blkIdx + b) % 2 ^ e.par.wBlk) i) ++
  ((List.range (c % s.k.toNat)).map fun i => fragHdr e.par ((s.blkIdx + c / s.k.toNat) % 2 ^ e.par.wBlk) i)

theorem length_runHeaders (e : Env) (s : State) (c : Nat) :
    (runHeaders e s c).length = c / s.k.toNat * s.n.toNat + c % s.k.toNat := by
  simp [runHeaders, List.length_flatMap]

theorem runHeaders_succ_open {e : Env} {s : State} {c : Nat} (h : c % s.k.toNat + 1 < s.k.toNat) :
    runHeaders e s (c + 1) = runHeaders e s c ++
      [fragHdr e.par ((s.blkIdx + c / s.k.toNat) % 2 ^ e.par.wBlk) (c % s.k.toNat)] := by
  obtain ⟨hdiv, hmod⟩ := succ_div_mod_open h
  simp [runHeaders, hdiv, hmod, List.range_succ]

/-- The fragments of a block: those before the last data fragment, that one, the parity fragments. -/
theorem range_cut {r k n : Nat} (hr : r + 1 = k) (hkn : k ≤ n) :
    List.range n = List.range r ++ r :: List.range' k (n - k) := by
  subst hr
  obtain ⟨m, rfl⟩ := Nat.exists_eq_add_of_le hkn
  rw [Nat.add_sub_cancel_left, ← List.range'_succ, List.range_eq_range', List.range_eq_range', Nat.add_assoc,
    Nat.add_comm 1 m, ← List.range'_append_1, Nat.zero_add]

theorem runHeaders_succ_done {e : Env} {s : State} {c : Nat} (h : c % s.k.toNat + 1 = s.k.toNat)
    (hkn : s.k.toNat ≤ s.n.toNat) :
    runHeaders e s (c + 1) = runHeaders e s c ++
      fragHdr e.par ((s.blkIdx + c / s.k.toNat) % 2 ^ e.par.wBlk) (c % s.k.toNat) ::
        (List.range' s.k.toNat (s.n.toNat - s.k.toNat)).map
          (fragHdr e.par ((s.blkIdx + c / s.k.toNat) % 2 ^ e.par.wBlk)) := by
  obtain ⟨hdiv, hmod⟩ := succ_div_mod_done h
  simp [runHeaders, hdiv, hmod, List.range_succ, range_cut h hkn]

/-! ## The frames of the units -/

theorem txStream_blockOpen (e : Env) (p : List Byte) (s : State) :
    (blockOpen e p s).txStream = s.txStream ++ [dataFrame e p s].map (·, Verdict.ok) := by
  simp [State.txStream, blockOpen]

theorem txStream_blockDone (e : Env) (p : List Byte) (s : State) :
    (blockDone e p s).txStream =
      s.txStream ++ (dataFrame e p s :: parityFrames e (afterData e p s)).map (·, Verdict.ok) := by
  simp [State.txStream, blockDone, Function.comp_def]

@[simp] theorem headerOf_dataFrame (e : Env) (p : List Byte) (s : State) :
    headerOf e (dataFrame e p s) = fragHdr e.par s.blkIdx s.frgIdx := headerOf_buildFrame ..

/-- The parity frames of a block are numbered `K` to `N - 1` (R126). -/
theorem map_headerOf_parityFrames (e : Env) (s : State) :
    (parityFrames e s).map (headerOf e) =
      (List.range' s.k.toNat (s.n.toNat - s.k.toNat)).map (fragHdr e.par s.blkIdx) := by
  rw [← length_parityShards e s, ← List.zipIdx_map_snd, parityFrames, List.map_map, List.map_map]
  exact List.map_congr_left fun q _ => headerOf_buildFrame ..

/-- The frame of unit number `j`, counted from an empty block. -/
def frameIndex (s : State) (j : Nat) : Nat := j / s.k.toNat * s.n.toNat + j % s.k.toNat

/-- From `s`, where a block was empty, to `t` the engine has accepted the units `us` and sent the frames `fs`. -/
structure Emitted (e : Env) (s : State) (us fs : List (List Byte)) (t : State) : Prop where
  k : t.k = s.k
  n : t.n = s.n
  stream : t.txStream = s.txStream ++ fs.map (·, Verdict.ok)
  slot : t.frgIdx = us.length % s.k.toNat
  block : t.blkIdx = (s.blkIdx + us.length / s.k.toNat) % 2 ^ e.par.wBlk
  seq : t.seq = (s.seq + us.length) % 2 ^ e.par.wSeq
  headers : fs.map (headerOf e) = runHeaders e s us.length
  carried : ∀ j u, us[j]? = some u →
    ∃ f, fs[frameIndex s j]? = some f ∧ CarriesUnit e ((s.seq + j) % 2 ^ e.par.wSeq) u f

theorem Emitted.start {e : Env} {s : State} (h : InRun e s) (hz : s.frgIdx = 0) : Emitted e s [] [] s where
  k := rfl
  n := rfl
  stream := by simp
  slot := by simp [hz]
  block := by simp [Nat.mod_eq_of_lt h.inv.blkIdxFits]
  seq := by simp [Nat.mod_eq_of_lt h.inv.seqFits]
  headers := by simp [runHeaders]
  carried := by simp

theorem Emitted.length {e : Env} {s t : State} {us fs : List (List Byte)} (h : Emitted e s us fs t) :
    fs.length = frameIndex s us.length := by
  rw [← List.length_map (headerOf e), h.headers, length_runHeaders, frameIndex]

theorem Emitted.sameEngine {e : Env} {s t u : State} {us fs : List (List Byte)} (h : Emitted e s us fs t)
    (g : SameEngine t u) : Emitted e s us fs u where
  k := g.k.trans h.k
  n := g.n.trans h.n
  stream := g.txStream.trans h.stream
  slot := g.frgIdx.trans h.slot
  block := g.blkIdx.trans h.block
  seq := g.seq.trans h.seq
  headers := h.headers
  carried := h.carried

/-- The data frame of one more unit carries it, whatever frames follow. -/
theorem Emitted.carried_snoc {e : Env} {s t : State} {us fs : List (List Byte)} (h : Emitted e s us fs t)
    (p : List Byte) (gs : List (List Byte)) : ∀ j u, (us ++ [p])[j]? = some u →
      ∃ f, (fs ++ dataFrame e p t :: gs)[frameIndex s j]? = some f ∧
        CarriesUnit e ((s.seq + j) % 2 ^ e.par.wSeq) u f := by
  intro j u hj
  rcases Nat.lt_trichotomy j us.length with hlt | rfl | hgt
  · rw [List.getElem?_append_left hlt] at hj
    obtain ⟨f, hf, hc⟩ := h.carried j u hj
    exact ⟨f, by rw [List.getElem?_append_left (List.getElem?_eq_some_iff.1 hf).1, hf], hc⟩
  · rw [List.getElem?_concat_length] at hj
    cases hj
    refine ⟨dataFrame e p t, by rw [← h.length]; simp, ?_⟩
    rw [← h.seq]
    exact dataFrame_carriesUnit e p t
  · rw [List.getElem?_eq_none (by simp; omega)] at hj
    cases hj

theorem Emitted.seq_snoc {e : Env} {s t : State} {us fs : List (List Byte)} (h : Emitted e s us fs t) (p : List Byte) :
    (t.seq + 1) % 2 ^ e.par.wSeq = (s.seq + (us ++ [p]).length) % 2 ^ e.par.wSeq := by
  rw [h.seq, Nat.mod_add_mod, List.length_append, Nat.add_assoc]
  rfl

/-- One more unit in an open block: one more data frame (R123). -/
theorem Emitted.blockOpen {e : Env} {s t : State} {us fs : List (List Byte)} (h : Emitted e s us fs t) (p : List Byte)
    (hk : t.frgIdx + 1 < t.k.toNat) : Emitted e s (us ++ [p]) (fs ++ [dataFrame e p t]) (blockOpen e p t) := by
  rw [h.slot, h.k] at hk
  obtain ⟨hdiv, hmod⟩ := succ_div_mod_open hk
  have hlen : (us ++ [p]).length = us.length + 1 := List.length_append
  exact {
    k := h.k
    n := h.n
    stream := by rw [txStream_blockOpen, h.stream, List.map_append, List.append_assoc]
    slot := by
      rw [hlen, hmod, ← h.slot]
      rfl
    block := by
      rw [hlen, hdiv, ← h.block]
      rfl
    seq := h.seq_snoc p
    headers := by
      rw [List.map_append, h.headers, hlen, runHeaders_succ_open hk, ← h.slot, ← h.block]
      simp
    carried := h.carried_snoc p [] }

/-- The unit that completes a block: its data frame and all parity frames, and the next block is empty (R125 to R127). -/
theorem Emitted.blockDone {e : Env} {s t : State} {us fs : List (List Byte)} (h : Emitted e s us fs t) (p : List Byte)
    (hE : EngineOk e t) (hk : t.frgIdx + 1 = t.k.toNat) :
    Emitted e s (us ++ [p]) (fs ++ dataFrame e p t :: parityFrames e (afterData e p t)) (blockDone e p t) := by
  have hkn : s.k.toNat ≤ s.n.toNat := by rw [← h.k, ← h.n]; exact hE.config.2.1
  rw [h.slot, h.k] at hk
  obtain ⟨hdiv, hmod⟩ := succ_div_mod_done hk
  have hlen : (us ++ [p]).length = us.length + 1 := List.length_append
  exact {
    k := h.k
    n := h.n
    stream := by rw [txStream_blockDone, h.stream, List.map_append, List.append_assoc]
    slot := by
      rw [hlen, hmod]
      rfl
    block := by
      show (t.blkIdx + 1) % _ = _
      rw [hlen, hdiv, h.block, Nat.mod_add_mod, Nat.add_assoc]
    seq := h.seq_snoc p
    headers := by
      rw [List.map_append, h.headers, hlen, runHeaders_succ_done hk hkn, ← h.slot, ← h.block, List.map_cons,
        headerOf_dataFrame, map_headerOf_parityFrames, ← h.k, ← h.n]
      rfl
    carried := h.carried_snoc p _ }

/-- An `ACCEPT` that runs adds the frames of its unit. -/
theorem Emitted.accept {e : Env} {s t u : State} {us fs : List (List Byte)} {p : List Byte} (h : Emitted e s us fs t)
    (hE : EngineOk e t) (ha : accept e p t = .run u) : ∃ gs, Emitted e s (us ++ [p]) gs u := by
  rcases accept_run hE ha with ⟨hk, rfl⟩ | ⟨hk, rfl⟩
  · exact ⟨_, h.blockOpen p hk⟩
  · exact ⟨_, h.blockDone p hE hk⟩

/-- A run without a fault from an empty block emits the frames of its units. -/
theorem acceptedUnits_emitted {e : Env} {is : List Instr} {s t : State} {us : List (List Byte)} (h : InRun e s)
    (hz : s.frgIdx = 0) (hr : acceptedUnits e is s = some (us, t)) : InRun e t ∧ ∃ fs, Emitted e s us fs t := by
  induction is using List.reverseRecOn generalizing us t with
  | nil => cases hr; exact ⟨h, [], .start h hz⟩
  | append_singleton is i ih =>
    obtain ⟨m, vs, hvs, hx, ht, rfl⟩ := acceptedUnits_snoc hr
    obtain ⟨hrun, fs, hfs⟩ := ih hvs
    refine ⟨(hrun.next hx ht).1, ?_⟩
    rcases hrun.unit hx ht with ⟨hseq, hq⟩ | ⟨hseq, m', u, hm, ha, hu⟩
    · rw [if_pos hseq, List.append_nil]
      exact ⟨fs, hfs.sameEngine hq⟩
    · rw [if_neg hseq]
      obtain ⟨gs, hgs⟩ := (hfs.sameEngine hm).accept (hm.engineOk hrun.engineOk) ha
      exact ⟨gs, hgs.sameEngine hu⟩

/-- Settles O35, by induction on the run from its end: what the units so far have put on the air (`Emitted`) is kept by a
command that counts none and extended by the one `ACCEPT` of a command that does. -/
theorem framesOfARunInOrder : Obligations.FramesOfARunInOrder := by
  intro e s t is us hinv hp hz hr
  have hrun : InRun e s := ⟨hinv, hp⟩
  obtain ⟨-, fs, h⟩ := acceptedUnits_emitted hrun hz hr
  exact ⟨runCommands_of_acceptedUnits hr, fun hm => acceptedUnits_passThrough hrun hm hr, fs, h.stream, h.length,
    h.slot, h.block, h.headers, h.carried⟩

end Sys2Proof.Machine
end

section
/-!
PROOFS. Encoding and decoding (30_encoding.md): how `decode` cuts a stream, the eight patterns of R98 as field equations,
datagram bytes by index, and that a step takes one command.
-/

namespace Sys2Proof

/-! ## How the decoder cuts a word stream (R91) -/

/-- A command word with its follow words is taken whole, and the words behind it are left. -/
theorem decode_cons_append {w : Word} {f : List Word} (rest : List Word) (h : f.length = follow w) :
    decode (w :: (f ++ rest)) = (decodeCommand w f).elim (.malformedWord w rest) (.command · rest) := by
  rw [decode, if_neg (by simp [h]), ← h, List.take_left, List.drop_left]
  cases decodeCommand w f <;> rfl

theorem decode_incomplete {w : Word} {ws : List Word} (h : ws.length < follow w) : decode (w :: ws) = .incomplete :=
  if_pos h

/-- A malformed word is taken alone (R97). -/
theorem decode_of_malformed {w : Word} (rest : List Word) (h : malformed w = true) :
    decode (w :: rest) = .malformedWord w rest := by
  have hcut := decode_cons_append (w := w) (f := []) rest (follow_of_malformed h).symm
  rwa [(decodeCommand_eq_none w []).2 h] at hcut

/-! ## Decoding the words of a command (R101) -/

theorem length_followWords {i : Instr} (h : i.wellFormed = true) : i.followWords.length = follow i.commandWord := by
  cases i with
  | wrcfg c v => rw [Instr.commandWord, follow, opField_csrWord, reservedC_csrWord]; rfl
  | rdcsr c => rw [Instr.commandWord, follow, opField_csrWord]; rfl
  | dgram p =>
    have hp : p.length < 2 ^ 16 := by simp [Instr.wellFormed] at h; omega
    rw [Instr.commandWord, follow_dgramWord, BitVec.toNat_ofNat, Nat.mod_eq_of_lt hp]
    exact length_packBytes p
  | time t => exact (by decide : 2 = follow 0x80000000)
  | _ => rfl

/-- Each operand is read back from the field or follow words it was written to (R92 to R97). -/
theorem decodeCommand_encode {i : Instr} (h : i.wellFormed = true) :
    decodeCommand i.commandWord i.followWords = some i := by
  cases i with
  | wrcfg c v =>
    rw [Instr.commandWord, decodeCommand, malformed, opField_csrWord, reservedC_csrWord, csrField_csrWord,
      Csr.ofNumber_number]
    rfl
  | rdcsr c =>
    rw [Instr.commandWord, decodeCommand, malformed, opField_csrWord, reservedC_csrWord, csrField_csrWord,
      Csr.ofNumber_number]
    rfl
  | dgram p =>
    have hp : p.length < 2 ^ 16 := by simp [Instr.wellFormed] at h; omega
    rw [Instr.commandWord, decodeCommand, malformed_dgramWord, opField_dgramWord, lenField_dgramWord,
      BitVec.toNat_ofNat, Nat.mod_eq_of_lt hp]
    exact congrArg (some ∘ Instr.dgram) (unpackBytes_packBytes p)
  | time t =>
    have hw : malformed 0x80000000 = false := by decide
    have ho : opField 0x80000000 = 8 := by decide
    rw [Instr.commandWord, decodeCommand, hw, ho]
    exact congrArg (some ∘ Instr.time) (time_words t)
  | _ => rfl

/-- Settles O1: the encoder writes as many follow words as the decoder takes, and the decoder reads every operand back. -/
theorem decodeOfEncodeIsTheCommand : Obligations.DecodeOfEncodeIsTheCommand := by
  intro i rest h
  rw [encode, List.cons_append, decode_cons_append rest (length_followWords h), decodeCommand_encode h]
  rfl

/-- Settles O3: the decoder evaluated on the ten sequences. -/
theorem wordsOfTheSpecDecode : Obligations.WordsOfTheSpecDecode := by
  unfold Obligations.WordsOfTheSpecDecode
  decide

/-! ## The patterns of the opcode table as field equations (R98) -/

/-- Two words agree on a range of bits exactly where they agree on its two parts. -/
theorem extractLsb'_add_eq_iff (x y : Word) (s a b : Nat) :
    x.extractLsb' s (a + b) = y.extractLsb' s (a + b) ↔
      x.extractLsb' (s + b) a = y.extractLsb' (s + b) a ∧ x.extractLsb' s b = y.extractLsb' s b := by
  simp only [← BitVec.extractLsb'_append_extractLsb'_eq_extractLsb' (rfl : s + b = s + b)]
  constructor
  · intro h
    have hl := congrArg (BitVec.extractLsb' b a) h
    have hr := congrArg (BitVec.extractLsb' 0 b) h
    simp only [BitVec.extractLsb'_append_eq_left] at hl
    simp only [BitVec.extractLsb'_append_eq_right] at hr
    exact ⟨hl, hr⟩
  · rintro ⟨hl, hr⟩
    rw [hl, hr]

/-- Formats Z and T (R92, R96): opcode and reserved bits fill the word. -/
theorem eq_iff_formatZ (x y : Word) : x = y ↔ opField x = opField y ∧ reservedZ x = reservedZ y := by
  have hself : ∀ z : Word, z.extractLsb' 0 (4 + 28) = z := fun _ => BitVec.extractLsb'_eq_self
  have hsplit := extractLsb'_add_eq_iff x y 0 4 28
  rwa [hself, hself] at hsplit

/-- Format C (R93): the bits below the opcode are the CSR number and the reserved bits. -/
theorem eq_iff_formatC (x y : Word) :
    x = y ↔ opField x = opField y ∧ csrField x = csrField y ∧ reservedC x = reservedC y :=
  (eq_iff_formatZ x y).trans (and_congr_right' (extractLsb'_add_eq_iff x y 0 4 24))

/-- Format D (R94): the bits below the opcode are the reserved bits and the length. -/
theorem eq_iff_formatD (x y : Word) :
    x = y ↔ opField x = opField y ∧ reservedD x = reservedD y ∧ lenField x = lenField y :=
  (eq_iff_formatZ x y).trans (and_congr_right' (extractLsb'_add_eq_iff x y 0 12 16))

theorem opField_and (x y : Word) : opField (x &&& y) = opField x &&& opField y := BitVec.extractLsb'_and

/-- A pattern of format C fixes the opcode and the reserved bits and leaves the CSR number free. -/
theorem and_maskC_eq_iff (w : Word) {v : Word} (hv : csrField v = 0) :
    w &&& 0xF0FFFFFF = v ↔ opField w = opField v ∧ reservedC w = reservedC v := by
  have hop : opField (w &&& 0xF0FFFFFF) = opField w := (opField_and ..).trans BitVec.and_allOnes
  have hcsr : csrField (w &&& 0xF0FFFFFF) = 0 := BitVec.extractLsb'_and.trans BitVec.and_zero
  have hres : reservedC (w &&& 0xF0FFFFFF) = reservedC w := BitVec.extractLsb'_and.trans BitVec.and_allOnes
  rw [eq_iff_formatC, hop, hcsr, hres, hv]
  simp

/-- A pattern of format D fixes the opcode and the reserved bits and leaves the length free. -/
theorem and_maskD_eq_iff (w : Word) {v : Word} (hv : lenField v = 0) :
    w &&& 0xFFFF0000 = v ↔ opField w = opField v ∧ reservedD w = reservedD v := by
  have hop : opField (w &&& 0xFFFF0000) = opField w := (opField_and ..).trans BitVec.and_allOnes
  have hres : reservedD (w &&& 0xFFFF0000) = reservedD w := BitVec.extractLsb'_and.trans BitVec.and_allOnes
  have hlen : lenField (w &&& 0xFFFF0000) = 0 := BitVec.extractLsb'_and.trans BitVec.and_zero
  rw [eq_iff_formatD, hop, hres, hlen, hv]
  simp

/-- A pattern of format Z or T fixes the whole word. -/
theorem and_maskZ_eq_iff (w v : Word) :
    w &&& 0xFFFFFFFF = v ↔ opField w = opField v ∧ reservedZ w = reservedZ v := by
  rw [show w &&& 0xFFFFFFFF = w from BitVec.and_allOnes, eq_iff_formatZ]

/-! ## The well-formed words (R97, R98) -/

/-- Every pattern fixes the opcode. -/
theorem opField_eq_of_matches {w : Word} {r : Word × Word} (hr : r ∈ opcodePatterns) (h : w &&& r.2 = r.1) :
    opField w = opField r.1 := by
  have hmask : ∀ r ∈ opcodePatterns, opField r.2 = BitVec.allOnes 4 := by simp [opcodePatterns, opField]
  rw [← h, opField_and, hmask r hr, BitVec.and_allOnes]

/-- The table has one row for each opcode. -/
theorem nodup_opField_opcodePatterns : (opcodePatterns.map fun r => opField r.1).Nodup := by decide

/-- The reading of R97 and that of R98 name the same words. -/
theorem malformed_eq_false_iff_matches (w : Word) :
    malformed w = false ↔ ∃ r ∈ opcodePatterns, w &&& r.2 = r.1 := by
  simp only [opcodePatterns, List.exists_mem_cons_iff, List.not_mem_nil, false_and, exists_false, or_false]
  rw [malformed_eq_false, and_maskC_eq_iff w (by decide), and_maskC_eq_iff w (by decide),
    and_maskD_eq_iff w (by decide)]
  simp only [and_maskZ_eq_iff]
  rfl

/-- Settles O2: the two readings agree, and two patterns that match one word have its opcode. -/
theorem wellFormedWordsAreThePatterns : Obligations.WellFormedWordsAreThePatterns := by
  intro w
  refine ⟨malformed_eq_false_iff_matches w, fun r hr q hq hwr hwq => ?_⟩
  exact List.inj_on_of_nodup_map nodup_opField_opcodePatterns hr hq
    ((opField_eq_of_matches hr hwr).symm.trans (opField_eq_of_matches hq hwq))

/-! ## The number of follow words (R91) -/

theorem toNat_lenField (w : Word) : (lenField w).toNat = w.toNat % 65536 := by
  simp [lenField]

theorem wrcfg_pattern_iff (w : Word) : w &&& 0xF0FFFFFF = 0x10000000 ↔ opField w = 1 ∧ reservedC w = 0 :=
  and_maskC_eq_iff w (by decide)

theorem dgram_pattern_iff (w : Word) : w &&& 0xFFFF0000 = 0x40000000 ↔ opField w = 4 ∧ reservedD w = 0 :=
  and_maskD_eq_iff w (by decide)

theorem time_pattern_iff (w : Word) : w = 0x80000000 ↔ opField w = 8 ∧ reservedZ w = 0 :=
  eq_iff_formatZ w _

/-- The table of R91 with its three rows written as patterns. -/
theorem follow_eq_of_patterns (w : Word) :
    follow w = if w &&& 0xF0FFFFFF = 0x10000000 then 1
      else if w &&& 0xFFFF0000 = 0x40000000 then (w.toNat % 65536 + 3) / 4
      else if w = 0x80000000 then 2 else 0 := by
  simp only [follow, wrcfg_pattern_iff, dgram_pattern_iff, time_pattern_iff, toNat_lenField]

theorem decode_eq_incomplete_iff (w : Word) (ws : List Word) : decode (w :: ws) = .incomplete ↔ ws.length < follow w :=
  ⟨Machine.length_lt_follow_of_incomplete, decode_incomplete⟩

/-- Settles O4: the rows of the table exclude each other by their opcodes, and the decoder asks for no other number. -/
theorem followWordsByTheTable : Obligations.FollowWordsByTheTable := by
  intro w
  refine ⟨fun hc => ?_, fun hd => ?_, fun ht => ?_, fun hc hd ht => ?_, fun ws => ?_, fun ws h => ?_⟩
  · rw [follow_eq_of_patterns, if_pos hc]
  · have hc : ¬ w &&& 0xF0FFFFFF = 0x10000000 := by
      rw [wrcfg_pattern_iff, ((dgram_pattern_iff w).1 hd).1]
      simp
    rw [follow_eq_of_patterns, if_neg hc, if_pos hd]
  · rw [ht]
    decide
  · rw [follow_eq_of_patterns, if_neg hc, if_neg hd, if_neg ht]
  · exact (decode_eq_incomplete_iff w ws).2
  · rw [Ne, decode_eq_incomplete_iff]
    omega

/-! ## Datagram bytes by index (R95) -/

/-- Byte `j` of a row of follow words is byte `j mod 4` of word `j div 4`. -/
theorem flatMap_wordBytes_getElem? {d : List Word} {j : Nat} (h : j < 4 * d.length) :
    (d.flatMap wordBytes)[j]? = some ((d.getD (j / 4) 0).extractLsb' (8 * (j % 4)) 8) := by
  induction d generalizing j with
  | nil => simp at h
  | cons w d ih =>
    match j with
    | 0 | 1 | 2 | 3 => rfl
    | j + 4 =>
      have hdiv : (j + 4) / 4 = j / 4 + 1 := by omega
      rw [hdiv, Nat.add_mod_right, List.getD_cons_succ, List.flatMap_cons]
      exact ih (by simp at h; omega)

/-- Settles O5: a `DGRAM` takes the first `len` bytes of its follow words. -/
theorem datagramBytesAreLittleEndian : Obligations.DatagramBytesAreLittleEndian := by
  intro len d rest h
  refine ⟨_, decode_dgramWord len d rest h, length_unpackBytes (by omega), fun j hj => ?_⟩
  rw [unpackBytes, List.getElem?_take_of_lt hj]
  exact flatMap_wordBytes_getElem? (by omega)

end Sys2Proof

namespace Sys2Proof.Machine

/-! ## A step takes one command (43_control.md R210) -/

/-- No command moves the port or the decoder (R210). -/
theorem Changes.decoder_port {i : Instr} {s t : State} (h : Changes s t i) :
    t.decoder = s.decoder ∧ t.port = s.port := by
  cases h with
  | wrcfg c v hp ht => rw [ht]; exact ⟨rfl, rfl⟩
  | rdcsr c ht => rw [ht]; exact ⟨rfl, rfl⟩
  | time v hv hk => exact ⟨hk.decoder, hk.port⟩
  | kept i hk hi => exact ⟨hk.decoder, hk.port⟩

theorem step_of_command {s : State} {i : Instr} {rest : List Word}
    (h : decode (s.decoder ++ s.port) = .command i rest) : step s = exec i { s with decoder := [], port := rest } := by
  rw [step, fetch, h]

theorem step_of_malformedWord {s : State} {w : Word} {rest : List Word}
    (h : decode (s.decoder ++ s.port) = .malformedWord w rest) :
    step s = execMalformed w { s with decoder := [], port := rest } := by
  rw [step, fetch, h]

/-- Settles O9: the decoder cuts off exactly these words, and neither a command nor a malformed word moves the port. -/
theorem stepTakesExactlyOneCommand : Obligations.StepTakesExactlyOneCommand := by
  intro s t w f rest hws hf hstep
  have hcut := decode_cons_append rest hf
  rw [← hws] at hcut
  cases hc : decodeCommand w f with
  | none =>
    rw [hc] at hcut
    rw [step_of_malformedWord hcut] at hstep
    have hk := execMalformed_kept hstep
    exact ⟨hk.decoder, hk.port⟩
  | some i =>
    rw [hc] at hcut
    rw [step_of_command hcut, exec_eq_execIn] at hstep
    exact (execIn_changes hstep).decoder_port

/-- Settles O10: the word is taken alone, and `command` refuses or discards it. -/
theorem malformedWordIsIllegal : Obligations.MalformedWordIsIllegal := by
  intro s w rest hws hm
  have hcut : decode (s.decoder ++ s.port) = .malformedWord w rest := by rw [hws, decode_of_malformed rest hm]
  rw [step_of_malformedWord hcut]
  exact ⟨fun hp => command_illegal hp rfl, fun hp => command_halt hp⟩

end Sys2Proof.Machine
end

section
/-!
PROOFS. One `ACCEPT` of a run in progress (40_block_engine.md R120 to R135): the closed forms of Safety.lean are what it
leaves, in either mode, and `DGRAM` in pass-through answers them.
-/

namespace Sys2Proof.Machine

/-! ## From a run to its `ACCEPT` -/

/-- The engine is in order whatever phase and time the command has set before its `ACCEPT`. -/
theorem InRun.engineOk_at {e : Env} {s : State} (h : InRun e s) (x : Phase) (v : BitVec 64) :
    EngineOk e { s with phase := x, now := v } :=
  ((h.inv.live h.phase).retime x v s.deadline).engineOk

/-- In pass-through `DGRAM` is one `ACCEPT` (42_ingestion.md R171). -/
theorem execIn_dgram_passThrough (e : Env) (p : List Byte) {s : State} (hp : s.phase = .idle)
    (hm : s.mode = .passThrough) : execIn e (.dgram p) s = (accept e p s).outcome := by
  rw [execIn_legal e (by simp [hp]) (by simp [legal, hp]), microSteps, hm]

/-- Draws `1 .. m` counted from the data frame's are draws `0 .. m - 1` counted from the first parity frame's. -/
theorem parityDraws_ok {e : Env} {d m : Nat} (h : ∀ c ≤ m, e.linkDraw (d + c) = .ok) :
    ∀ c < m, e.linkDraw (d + 1 + c) = .ok := by
  intro c hc
  rw [Nat.add_assoc, Nat.add_comm 1 c]
  exact h (c + 1) hc

theorem accept_done_of_draws {e : Env} {p : List Byte} {s : State} (h : EngineOk e s)
    (hcap : e.par.hPkt + p.length ≤ e.par.fragCap) (hk : s.frgIdx + 1 = s.k.toNat)
    (hok : ∀ c ≤ s.n.toNat - s.k.toNat, e.linkDraw (s.draws + c) = .ok) :
    accept e p s = .run (blockDone e p s) :=
  accept_done h hcap (hok 0 (Nat.zero_le _)) hk (parityDraws_ok hok)

theorem accept_parityFailed_of_draws {e : Env} {p : List Byte} {s : State} (h : EngineOk e s)
    (hcap : e.par.hPkt + p.length ≤ e.par.fragCap) (hk : s.frgIdx + 1 = s.k.toNat) {f : Nat}
    (hf : f < s.n.toNat - s.k.toNat) (hok : ∀ c ≤ f, e.linkDraw (s.draws + c) = .ok)
    (hfail : e.linkDraw (s.draws + (f + 1)) = .fail) : accept e p s = .ended (parityFailed e p f s) :=
  accept_parityFailed h hcap (hok 0 (Nat.zero_le _)) hk hf (parityDraws_ok hok)
    (by rw [Nat.add_assoc, Nat.add_comm 1 f]; exact hfail)

/-! ## The exact next states -/

/-- Settles O31: the capacity check of `ACCEPT` comes before any write. -/
theorem oversizePayloadIsRejected : Obligations.OversizePayloadIsRejected := by
  intro s p hp hm hcap
  rw [exec_eq_execIn, execIn_dgram_passThrough _ p hp hm, accept_tooLarge s hcap, Flow.outcome_ended]

/-- Settles O28, by `accept_open`. -/
theorem fragmentLeavesTheBlockOpen : Obligations.FragmentLeavesTheBlockOpen := by
  intro e s p x v hinv hph hcap hk hv
  have hrun : InRun e s := ⟨hinv, hph⟩
  refine ⟨accept_open (hrun.engineOk_at x v) hcap hv hk, fun hp hm => ?_⟩
  rw [execIn_dgram_passThrough e p hp hm, accept_open hrun.engineOk hcap hv hk, Flow.outcome_run]

/-- Settles O29, by `accept_done`. -/
theorem lastFragmentClosesTheBlock : Obligations.LastFragmentClosesTheBlock := by
  intro e s p x v hinv hph hcap hk hok
  have hrun : InRun e s := ⟨hinv, hph⟩
  refine ⟨accept_done_of_draws (hrun.engineOk_at x v) hcap hk hok, fun hp hm => ?_⟩
  rw [execIn_dgram_passThrough e p hp hm, accept_done_of_draws hrun.engineOk hcap hk hok, Flow.outcome_run]

/-- Settles O30: the data frame by `accept_dataFailed`, a parity frame by `accept_parityFailed`. -/
theorem failedFrameHaltsTheEngine : Obligations.FailedFrameHaltsTheEngine := by
  intro e s p x v hinv hph hcap
  have hrun : InRun e s := ⟨hinv, hph⟩
  constructor
  · intro hv
    refine ⟨accept_dataFailed (hrun.engineOk_at x v) hcap hv, fun hp hm => ?_⟩
    rw [execIn_dgram_passThrough e p hp hm, accept_dataFailed hrun.engineOk hcap hv, Flow.outcome_ended]
  · intro f hf hk hok hfail
    refine ⟨accept_parityFailed_of_draws (hrun.engineOk_at x v) hcap hk hf hok hfail, fun hp hm => ?_⟩
    rw [execIn_dgram_passThrough e p hp hm, accept_parityFailed_of_draws hrun.engineOk hcap hk hf hok hfail,
      Flow.outcome_ended]

/-! ## Whatever the link answers -/

/-- The parity writes leave the data buffers alone (20_memory.md R62). -/
theorem parityMemory_data {e : Env} {p : List Byte} {s : State} (h : EngineOk e s)
    (hcap : e.par.hPkt + p.length ≤ e.par.fragCap) {j : Nat} (hj : j < s.k.toNat) :
    Memory.readBytes (parityMemory e (afterData e p s)) (j * e.par.fragCap) e.par.fragCap =
      Memory.readBytes (afterData e p s).frag (j * e.par.fragCap) e.par.fragCap := by
  obtain ⟨-, -, houtside, -⟩ := parityMemory_spec h hcap
  have hbelow := buffer_apart (f := e.par.fragCap) hj
  exact Memory.readBytes_congr fun x _ hx => houtside x (.inl (by omega))

/-- A unit that fits is counted and stored, and its data frame is the first record with the verdict drawn, in every way its
`ACCEPT` can go (R121 to R124). -/
theorem accept_fits {e : Env} {p : List Byte} {s : State} (h : EngineOk e s)
    (hcap : e.par.hPkt + p.length ≤ e.par.fragCap) :
    ∃ t l, (accept e p s).outcome = .next t ∧ t.seq = (s.seq + 1) % 2 ^ e.par.wSeq ∧
      Memory.readBytes t.frag (s.frgIdx * e.par.fragCap) e.par.fragCap = some (dataFragment e.par s.seq p) ∧
      t.events = s.events ++ .tx (dataFrame e p s) (e.linkDraw s.draws) :: l := by
  have hslot := afterData_slot (s := s) hcap
  have hparity := (parityMemory_data h hcap h.slot).trans hslot
  rcases accept_cases p h with ⟨hover, -⟩ | ⟨-, ⟨hv, ha⟩ | ⟨hv, -, ha⟩ | ⟨hv, -, ⟨f, -, ha⟩ | ha⟩⟩
  · omega
  · exact ⟨_, [], by rw [ha, Flow.outcome_ended], by simp [dataFailed, afterData], by simpa [dataFailed] using hslot,
      by simp [dataFailed, hv]⟩
  · exact ⟨blockOpen e p s, [], by rw [ha, Flow.outcome_run], rfl, hslot, by rw [hv]; rfl⟩
  · exact ⟨_, _, by rw [ha, Flow.outcome_ended], by simp [parityFailed, afterData],
      by simpa [parityFailed] using hparity, by simp only [parityFailed, State.raiseFault_events, hv]; rfl⟩
  · exact ⟨_, _, by rw [ha, Flow.outcome_run], rfl, hparity, by rw [hv]; rfl⟩

/-- Settles O27: `DGRAM` is one `ACCEPT` of a unit that fits. -/
theorem passThroughDatagramCompletes : Obligations.PassThroughDatagramCompletes := by
  intro s p hinv hp hm hcap
  rw [exec_eq_execIn, execIn_dgram_passThrough _ p hp hm]
  exact accept_fits (InRun.mk hinv (.inl hp)).engineOk hcap

/-! ## Parity -/

/-- The shards are a function of `K`, `N`, the block length and the data shards (R135). -/
theorem parityShards_congr {e : Env} {s t : State} (hk : t.k = s.k) (hn : t.n = s.n) (hm : t.blkMax = s.blkMax)
    (hd : ∀ j < s.k.toNat, Memory.readBytes t.frag (j * e.par.fragCap) s.blkMax =
      Memory.readBytes s.frag (j * e.par.fragCap) s.blkMax) : parityShards e t = parityShards e s := by
  have hcode : codeShards e t = codeShards e s := by
    rw [codeShards, codeShards, hk, hm]
    exact List.map_congr_left fun j hj => by rw [hd j (List.mem_range.1 hj)]
  rw [parityShards, parityShards, hcode, hk, hn, hm]

/-- A parity frame carries its whole shard (R126). -/
theorem map_payloadOf_parityFrames (e : Env) (s : State) :
    (parityFrames e s).map (payloadOf e) = parityShards e s := by
  have hpayload : ∀ q ∈ (parityShards e s).zipIdx s.k.toNat,
      payloadOf e (buildFrame e.par s.blkIdx q.2 s.tag q.1 s.blkMax) = q.1 := fun q hq => by
    rw [payloadOf_buildFrame, List.take_of_length_le (length_of_mem_fecEncode (List.fst_mem_of_mem_zipIdx hq)).le]
  rw [parityFrames, List.map_map]
  exact (List.map_congr_left hpayload).trans (List.zipIdx_map_fst ..)

/-- What a block's parity buffers hold when it is complete (R125). -/
theorem blockDone_parityBuffer {e : Env} {p : List Byte} {s : State} (h : EngineOk e s)
    (hcap : e.par.hPkt + p.length ≤ e.par.fragCap) {j : Nat} (hk : s.k.toNat ≤ j) (hn : j < s.n.toNat) :
    Memory.readBytes (blockDone e p s).frag (j * e.par.fragCap) (afterData e p s).blkMax =
      (parityShards e (afterData e p s))[j - s.k.toNat]? := by
  obtain ⟨-, -, -, hshard⟩ := parityMemory_spec h hcap
  have hlt : j - s.k.toNat < (parityShards e (afterData e p s)).length := by
    rw [length_parityShards]
    exact Nat.sub_lt_sub_right hk hn
  have := hshard (j - s.k.toNat) _ (List.getElem?_eq_getElem hlt)
  rw [Nat.add_sub_cancel' hk] at this
  exact this.trans (List.getElem?_eq_getElem hlt).symm

/-- Two blocks complete with the same shards hold the same bytes in their parity buffers. -/
theorem blockDone_parityBuffer_congr {e : Env} {p p' : List Byte} {s s' : State} (h : EngineOk e s)
    (h' : EngineOk e s') (hcap : e.par.hPkt + p.length ≤ e.par.fragCap) (hcap' : e.par.hPkt + p'.length ≤ e.par.fragCap)
    (hk : s'.k = s.k) (hn : s'.n = s.n) (hm : (afterData e p' s').blkMax = (afterData e p s).blkMax)
    (hshards : parityShards e (afterData e p' s') = parityShards e (afterData e p s)) {j : Nat} (hj : s.k.toNat ≤ j)
    (hjn : j < s.n.toNat) :
    Memory.readBytes (blockDone e p' s').frag (j * e.par.fragCap) (afterData e p s).blkMax =
      Memory.readBytes (blockDone e p s).frag (j * e.par.fragCap) (afterData e p s).blkMax := by
  rw [blockDone_parityBuffer h hcap hj hjn, ← hshards, ← hm, ← hk]
  exact blockDone_parityBuffer h' hcap' (hk ▸ hj) (hn ▸ hjn)

/-- Settles O33: both blocks close with the same shards (`parityShards_congr`), which are what their parity buffers hold and
their parity frames carry. -/
theorem parityIsAFunctionOfTheShards : Obligations.ParityIsAFunctionOfTheShards := by
  intro e s s' p p' x x' v v' hinv hinv' hph hph' hcap hcap' hlast hlast' hok hk hn hm hd
  have hE := (InRun.mk hinv hph).engineOk_at x v
  have hE' := (InRun.mk hinv' hph').engineOk_at x' v'
  have hshards : parityShards e (afterData e p' { s' with phase := x', now := v' }) =
      parityShards e (afterData e p { s with phase := x, now := v }) := parityShards_congr hk hn hm hd
  refine ⟨_, _, _, _, _, _, accept_done_of_draws hE hcap hlast fun c hc => (hok c hc).1, rfl,
    accept_done_of_draws hE' hcap' hlast' fun c hc => (hok c (by rw [← hk, ← hn]; exact hc)).2, rfl, ?_, ?_, ?_⟩
  · rw [List.length_map, length_parityFrames]
    rfl
  · rw [List.map_map, List.map_map]
    exact (map_payloadOf_parityFrames e _).trans (hshards.symm.trans (map_payloadOf_parityFrames e _).symm)
  · exact fun j hj hjn => blockDone_parityBuffer_congr hE hE' hcap hcap' hk hn hm hshards hj hjn

end Sys2Proof.Machine
end

section
/-!
PROOFS. The coder, from any state: with `K = N` no operation reads it (40_block_engine.md R129).
-/

namespace Sys2Proof.Machine

/-- The environment with another coder. -/
abbrev withCoder (e : Env) (coder : Nat → Nat → Nat → List (List Byte) → Nat → Nat → Byte) : Env :=
  { e with fecByte := coder }

/-- Two continuations that agree wherever the first part leaves a state. -/
theorem Flow.Always.andThen_congr {f : Flow} {g g' : State → Flow} {P : State → Prop} (hf : f.Always P)
    (h : ∀ t, P t → g t = g' t) : f.andThen g = f.andThen g' := by
  cases f with
  | run t => exact h t (hf t (.inl rfl))
  | ended t => rfl
  | fault r => rfl
  | refused r => rfl

theorem Kept.k_eq_n {s t : State} (h : Kept s t) (hs : s.k = s.n) : t.k = t.n := by rw [h.k, h.n, hs]

section Coder

variable (e : Env) (coder : Nat → Nat → Nat → List (List Byte) → Nat → Nat → Byte)

theorem emitParity_withCoder (fuel : Nat) (s : State) :
    emitParity (withCoder e coder) fuel s = emitParity e fuel s := by
  induction fuel generalizing s with
  | zero => rfl
  | succ fuel ih =>
    rw [emitParity, emitParity, funext ih]
    rfl

/-- With `K = N` there is no parity, and `FEC_STEP` closes the block at once (R129). -/
theorem fecStep_withCoder {s : State} (h : s.k = s.n) : fecStep (withCoder e coder) s = fecStep e s := by
  have hnone : ∀ e', fillParity e' s = .run s := fun e' => if_neg (by rw [h]; exact Nat.lt_irrefl _)
  simp only [fecStep, hnone, Flow.run_andThen, emitParity_withCoder]
  rfl

theorem accept_withCoder (p : List Byte) {s : State} (h : s.k = s.n) :
    accept (withCoder e coder) p s = accept e p s := by
  rw [accept, accept]
  refine if_congr Iff.rfl rfl ?_
  refine (fillFragment_kept e p s).andThen_congr fun t ht => (emit_kept e _ _ t).andThen_congr fun u hu => ?_
  exact if_congr Iff.rfl rfl (fecStep_withCoder e coder (((ht.trans hu).trans (nextFragment_kept u)).k_eq_n h))

theorem flush_withCoder {s : State} (h : s.k = s.n) : flush (withCoder e coder) s = flush e s := by
  rw [flush, flush]
  simp only [accept_withCoder e coder _ h]
  rfl

theorem checkTimeout_withCoder {s : State} (h : s.k = s.n) :
    checkTimeout (withCoder e coder) s = checkTimeout e s := by
  simp only [checkTimeout, timeout, flushIfAny, flush_withCoder e coder h]

theorem checkTimeoutIfIdle_withCoder {s : State} (h : s.k = s.n) :
    checkTimeoutIfIdle (withCoder e coder) s = checkTimeoutIfIdle e s := by
  rw [checkTimeoutIfIdle, checkTimeoutIfIdle, checkTimeout_withCoder e coder h]

theorem dgramAgg_withCoder (p : List Byte) {s : State} (h : s.k = s.n) :
    dgramAgg (withCoder e coder) p s = dgramAgg e p s := by
  have hflush : flush (withCoder e coder) { s with phase := .drain } = flush e { s with phase := .drain } :=
    flush_withCoder e coder h
  simp only [dgramAgg, startNewBuffer, hflush]
  rfl

theorem microSteps_withCoder (i : Instr) {s : State} (h : s.k = s.n) :
    microSteps (withCoder e coder) i s = microSteps e i s := by
  cases i with
  | start =>
    have hcheck : checkTimeout (withCoder e coder) (constructCore s) = checkTimeout e (constructCore s) :=
      checkTimeout_withCoder e coder h
    rw [microSteps, microSteps, hcheck]
  | dgram p => rw [microSteps, microSteps, accept_withCoder e coder p h, dgramAgg_withCoder e coder p h]
  | srcEmpty => exact checkTimeout_withCoder e coder (s := { s with phase := .idle }) h
  | intr => exact checkTimeoutIfIdle_withCoder e coder h
  | time v =>
    have hcheck := checkTimeoutIfIdle_withCoder e coder (s := { s with now := v }) h
    rw [microSteps, microSteps, hcheck]
  | wrcfg c v => rfl
  | rdcsr c => rfl
  | srcErr => rfl

end Coder

/-- Settles O32: the coder is read in `FEC_STEP` alone, and only where `K < N`. -/
theorem noCoderWhenKEqualsN : Obligations.NoCoderWhenKEqualsN := by
  intro e coder i s h
  cases i with
  | rdcsr c => rfl
  | _ =>
    rw [execIn_eq_command _ s (by simp), execIn_eq_command _ s (by simp), command, command,
      microSteps_withCoder e coder _ h]

end Sys2Proof.Machine
end

section
/-!
PROOFS. The block index, from any state: only a block close moves `BLK_IDX` (40_block_engine.md R127, R133).
-/

namespace Sys2Proof.Machine

/-- `BLK_IDX` as it was, or the block just closed: `BLK_IDX` one further and the next block empty (R127). -/
def BlockStep (e : Env) (s t : State) : Prop :=
  t.blkIdx = s.blkIdx ∨ (t.blkIdx = (s.blkIdx + 1) % 2 ^ e.par.wBlk ∧ t.frgIdx = 0 ∧ t.blkMax = 0)

theorem BlockStep.raiseFault {e : Env} {s t : State} (h : BlockStep e s t) (c : Cause) (v : Word) :
    BlockStep e s (t.raiseFault c v) := by
  simpa [BlockStep] using h

/-- Two parts of which neither moves `BLK_IDX`. -/
theorem Flow.Always.thenBlkIdx {f : Flow} {g : State → Flow} {s : State} (hf : f.Always fun t => t.blkIdx = s.blkIdx)
    (hg : ∀ t, (g t).Always fun u => u.blkIdx = t.blkIdx) : (f.andThen g).Always fun t => t.blkIdx = s.blkIdx :=
  Flow.Always.trans (R := fun s t => t.blkIdx = s.blkIdx) (fun h g => g.trans h) hf hg

theorem fragWrite_blkIdx (e : Env) (i off : Nat) (bs : List Byte) (s : State) :
    (fragWrite e i off bs s).Always fun t => t.blkIdx = s.blkIdx :=
  fragWrite_always fun _ => rfl

theorem fillFragment_blkIdx (e : Env) (p : List Byte) (s : State) :
    (fillFragment e p s).Always fun t => t.blkIdx = s.blkIdx :=
  ((fragWrite_blkIdx e _ _ _ s).thenBlkIdx fun t => (fragWrite_blkIdx e _ _ _ t).thenBlkIdx
    fun u => fragWrite_blkIdx e _ _ _ u).thenBlkIdx fun _ => Flow.always_run rfl

theorem emit_blkIdx (e : Env) (i plen : Nat) (s : State) : (emit e i plen s).Always fun t => t.blkIdx = s.blkIdx := by
  refine fragRead_always fun pl => ?_
  dsimp only
  cases e.linkDraw s.draws with
  | ok => exact Flow.always_run rfl
  | fail => exact Flow.always_ended (State.raiseFault_blkIdx ..)

theorem writeParity_blkIdx (e : Env) (ps : List (List Byte)) (i : Nat) (s : State) :
    (writeParity e ps i s).Always fun t => t.blkIdx = s.blkIdx := by
  induction ps generalizing i s with
  | nil => exact Flow.always_run rfl
  | cons p ps ih => exact (fragWrite_blkIdx e _ _ _ s).thenBlkIdx (ih (i + 1))

theorem fillParity_blkIdx (e : Env) (s : State) : (fillParity e s).Always fun t => t.blkIdx = s.blkIdx := by
  rw [fillParity]
  split
  next => exact readShards_always _ _ _ fun ds => writeParity_blkIdx e _ _ s
  next => exact Flow.always_run rfl

theorem emitParity_blkIdx (e : Env) (fuel : Nat) (s : State) :
    (emitParity e fuel s).Always fun t => t.blkIdx = s.blkIdx := by
  induction fuel generalizing s with
  | zero => exact Flow.always_run rfl
  | succ fuel ih =>
    rw [emitParity]
    split
    next => exact ((emit_blkIdx e _ _ s).thenBlkIdx fun t => Flow.always_run (s := t.nextFragment) rfl).thenBlkIdx ih
    next => exact Flow.always_run rfl

/-- A part that leaves `BLK_IDX` alone, then one that may close the block. -/
theorem Flow.Always.thenBlockStep {e : Env} {f : Flow} {g : State → Flow} {s : State}
    (hf : f.Always fun t => t.blkIdx = s.blkIdx) (hg : ∀ t, (g t).Always (BlockStep e t)) :
    (f.andThen g).Always (BlockStep e s) :=
  hf.andThen (fun _ h => .inl h) fun t ht => (hg t).mono fun u hu => by rwa [BlockStep, ← ht]

theorem fecStep_blockStep (e : Env) (s : State) : (fecStep e s).Always (BlockStep e s) :=
  ((fillParity_blkIdx e s).thenBlkIdx fun t => emitParity_blkIdx e _ t).thenBlockStep
    fun _ => Flow.always_run (.inr ⟨rfl, rfl, rfl⟩)

theorem accept_blockStep (e : Env) (p : List Byte) (s : State) : (accept e p s).Always (BlockStep e s) := by
  rw [accept]
  split
  next => exact Flow.always_ended (.raiseFault (.inl rfl) _ _)
  next =>
    refine (fillFragment_blkIdx e p s).thenBlockStep fun t => (emit_blkIdx e _ _ t).thenBlockStep fun u => ?_
    dsimp only
    split
    next => exact Flow.always_run (.inl rfl)
    next => exact fecStep_blockStep e u.nextFragment

theorem flush_blockStep (e : Env) (s : State) : (flush e s).Always (BlockStep e s) :=
  (accRead_always fun unit => accept_blockStep e unit s).andThen (fun _ h => h) fun _ h => Flow.always_run h

theorem checkTimeout_blockStep (e : Env) (s : State) : (checkTimeout e s).Always (BlockStep e s) := by
  have hflush : (flushIfAny e s).Always (BlockStep e s) := by
    rw [flushIfAny]
    split
    next => exact flush_blockStep e s
    next => exact Flow.always_run (.inl rfl)
  rw [checkTimeout]
  split
  next => exact hflush.andThen (fun _ h => h) fun _ h => Flow.always_run h
  next => exact Flow.always_run (.inl rfl)

theorem checkTimeoutIfIdle_blockStep (e : Env) (s : State) : (checkTimeoutIfIdle e s).Always (BlockStep e s) := by
  rw [checkTimeoutIfIdle]
  split
  next => exact checkTimeout_blockStep e s
  next => exact Flow.always_run (.inl rfl)

/-- Storing the datagram does not touch the engine. -/
theorem accWrite_blockStep {e : Env} {off l : Nat} {p : List Byte} {s t : State} (h : BlockStep e s t) :
    ((accWrite e off p t).andThen fun u => .run { u with accLen := l }).Always (BlockStep e s) :=
  (accWrite_always h).andThen (fun _ h => h) fun _ h => Flow.always_run h

theorem startNewBuffer_blockStep (e : Env) (p : List Byte) (s : State) :
    (startNewBuffer e p s).Always (BlockStep e s) := by
  refine Flow.Always.andThen (P := BlockStep e s) ?_ (fun _ h => h) fun t ht => ?_
  · split
    next => exact (flush_blockStep e s).andThen (fun _ h => h) fun _ h => Flow.always_run h
    next => exact Flow.always_run (.inl rfl)
  · split
    next => exact Flow.always_ended (ht.raiseFault _ _)
    next => exact accWrite_blockStep ht

theorem dgramAgg_blockStep (e : Env) (p : List Byte) (s : State) : (dgramAgg e p s).Always (BlockStep e s) := by
  rw [dgramAgg]
  dsimp only
  split
  next => exact startNewBuffer_blockStep e p { s with phase := .drain }
  next => exact (accWrite_always (.inl rfl)).andThen (fun _ h => h) fun _ h => Flow.always_run h

theorem writeCsr_blkIdx (w : Word) (c : Csr) (v : Word) (s : State) :
    (writeCsr w c v s).Always fun t => t.blkIdx = s.blkIdx := by
  have hraise : (raise .illegalCmd w s).Always fun t => t.blkIdx = s.blkIdx :=
    Flow.always_ended (State.raiseFault_blkIdx ..)
  cases c with
  | k | n | tag | mode | lat => exact Flow.always_run rfl
  | _ => exact hraise

theorem microSteps_blockStep (e : Env) {i : Instr} (s : State) (hi : i ≠ .start) :
    (microSteps e i s).Always (BlockStep e s) := by
  have hraise : ∀ c v, (raise c v s).Always (BlockStep e s) := fun c v =>
    Flow.always_ended (.raiseFault (.inl rfl) c v)
  cases i with
  | start => exact absurd rfl hi
  | wrcfg c v => exact (writeCsr_blkIdx _ c v s).mono fun _ h => .inl h
  | rdcsr c => exact Flow.always_run (.inl rfl)
  | dgram p =>
    rw [microSteps]
    split
    next => exact accept_blockStep e p s
    next => exact dgramAgg_blockStep e p s
  | srcEmpty => exact checkTimeout_blockStep e { s with phase := .idle }
  | srcErr => exact hraise _ _
  | intr => exact checkTimeoutIfIdle_blockStep e s
  | time v =>
    rw [microSteps]
    split
    next => exact hraise _ _
    next => exact checkTimeoutIfIdle_blockStep e { s with now := v }

/-- Settles O34: of all micro-steps only the close at the end of `FEC_STEP` moves `BLK_IDX`, and what a command runs after
it leaves the empty block alone. -/
theorem blockIndexChangesOnlyAtAClose : Obligations.BlockIndexChangesOnlyAtAClose := by
  intro i s t hi hx
  rw [exec_eq_execIn] at hx
  rcases execIn_next hx with ⟨c, -, rfl⟩ | ⟨-, rfl⟩ | ⟨-, -, rfl⟩ | ⟨-, -, hrun⟩
  · exact .inl rfl
  · exact .inl rfl
  · exact .inl (State.raiseFault_blkIdx ..)
  · exact (microSteps_blockStep _ s hi).outcome hrun

end Sys2Proof.Machine
end

section
/-!
PROOFS. A frame read byte by byte, by its offset (41_frame_builder.md R151, R152, R156), and header fields read back: no
field is truncated and no frame exceeds the link's maximum (R154, R155).
-/

namespace Sys2Proof.Machine

/-! ## The bytes of a frame -/

theorem getElem?_linkPatch {p : Params} {j : Nat} (tag : Byte) (h : j < p.linkRom.length) :
    (linkPatch p tag)[j]? = if j = p.tagOffA ∨ j = p.tagOffB then some tag else p.linkRom[j]? := by
  rw [linkPatch, List.getElem?_set, List.getElem?_set, List.length_set]
  by_cases hB : p.tagOffB = j
  · rw [if_pos hB, if_pos (hB ▸ h), if_pos (.inr hB.symm)]
  by_cases hA : p.tagOffA = j
  · rw [if_neg hB, if_pos hA, if_pos (hA ▸ h), if_pos (.inl hA.symm)]
  · rw [if_neg hB, if_neg hA, if_neg (not_or.2 ⟨Ne.symm hA, Ne.symm hB⟩)]

/-- Strings side by side, the first starting at offset `a`: the byte at offset `o` is the first one's up to its end. -/
theorem getElem?_append_at {α : Type} {l r : List α} {a o : Nat} (h : a ≤ o) :
    (l ++ r)[o - a]? = if o < a + l.length then l[o - a]? else r[o - (a + l.length)]? := by
  simp only [List.getElem?_append, Nat.sub_sub, Nat.sub_lt_iff_lt_add' h]

/-- Settles O22: the five parts of a frame side by side, each read at its own offset. -/
theorem frameBytesByOffset : Obligations.FrameBytesByOffset := by
  intro e b i tag pl plen o _
  simp only [buildFrame, fragHdr, List.append_assoc, ← Nat.add_assoc]
  rw [List.getElem?_append]
  split
  next => rfl
  next hLink =>
    rw [getElem?_append_at (Nat.not_lt.1 hLink), length_linkPatch]
    split
    next h => exact getElem?_linkPatch tag (Nat.sub_lt_left_of_lt_add (Nat.not_lt.1 hLink) h)
    next hHdr =>
      rw [getElem?_append_at (Nat.not_lt.1 hHdr), length_encField]
      split
      next => rfl
      next hFrg =>
        rw [getElem?_append_at (Nat.not_lt.1 hFrg), length_encField]
        split
        next => rfl
        next hPl => simp only [List.getElem?_take, Nat.sub_lt_iff_lt_add' (Nat.not_lt.1 hPl)]

/-! ## Fields read back -/

theorem bytesLe_inj {n v v' : Nat} (hv : v < 2 ^ (8 * n)) (hv' : v' < 2 ^ (8 * n)) (h : bytesLe n v = bytesLe n v') :
    v = v' := by
  induction n generalizing v v' with
  | zero => omega
  | succ n ih =>
    obtain ⟨hlow, hrest⟩ := List.cons.inj h
    have hmod : v % 256 = v' % 256 := by simpa using congrArg BitVec.toNat hlow
    have hdiv : v / 256 = v' / 256 := ih (by rw [Nat.mul_succ, Nat.pow_add] at hv; omega)
      (by rw [Nat.mul_succ, Nat.pow_add] at hv'; omega) hrest
    omega

/-- `enc_W` loses nothing of a value of `W` bits, where `W` is a number of whole bytes (R11). -/
theorem encField_inj {o : HdrOrder} {w v v' : Nat} (hw : w % 8 = 0) (hv : v < 2 ^ w) (hv' : v' < 2 ^ w)
    (h : encField o w v = encField o w v') : v = v' := by
  have hbytes : bytesLe (w / 8) v = bytesLe (w / 8) v' := by
    rw [← Nat.mod_eq_of_lt hv, ← Nat.mod_eq_of_lt hv']
    cases o with
    | le => exact h
    | be => exact List.reverse_injective h
  have hwidth : 8 * (w / 8) = w := by omega
  exact bytesLe_inj (by rwa [hwidth]) (by rwa [hwidth]) hbytes

/-- A header of two fields determines both: the first field's width says where the second begins (R154). -/
theorem encField_append_inj {o : HdrOrder} {w₁ w₂ a a' b b' : Nat} (h₁ : w₁ % 8 = 0) (h₂ : w₂ % 8 = 0)
    (ha : a < 2 ^ w₁) (ha' : a' < 2 ^ w₁) (hb : b < 2 ^ w₂) (hb' : b' < 2 ^ w₂)
    (h : encField o w₁ a ++ encField o w₂ b = encField o w₁ a' ++ encField o w₂ b') : a = a' ∧ b = b' := by
  obtain ⟨hfst, hsnd⟩ := List.append_inj h (by simp only [length_encField])
  exact ⟨encField_inj h₁ ha ha' hfst, encField_inj h₂ hb hb' hsnd⟩

/-- Settles O24: the parameter constraints keep every field within its width (R155), and `enc` loses nothing there. -/
theorem headersAreNeverTruncated : Obligations.HeadersAreNeverTruncated := by
  intro e
  obtain ⟨-, ⟨hSeq, -⟩, ⟨hLen, hcap⟩, ⟨hBlk, -⟩, ⟨hFrg, hmax⟩, -⟩ := e.valid
  refine ⟨fun b b' i i' hb hb' hi hi' h => ?_, fun q q' l l' hq hq' hl hl' h => ?_,
    fun b i tag pl plen hpl hF => ⟨?_, ?_⟩⟩
  · exact encField_append_inj hBlk hFrg hb hb' (hi.trans_le hmax) (hi'.trans_le hmax) h
  · exact encField_append_inj hSeq hLen hq hq' (by omega) (by omega) h
  · rw [length_buildFrame, Nat.min_eq_left hpl]
  · exact length_buildFrame_le e b i tag pl hF

end Sys2Proof.Machine
end

section
/-!
PROOFS. The ingestion commands where they are legal (42_ingestion.md R172 to R181): the exact next state of a datagram
that is appended, of a flush, of a timeout check that is due and of one that is not.
-/

namespace Sys2Proof.Machine

/-! ## The micro-steps of a legal ingestion command -/

theorem Phase.ne_halt_of_run {p : Phase} (hp : p = .idle ∨ p = .drain) : p ≠ .halt := by
  rcases hp with rfl | rfl <;> decide

theorem execIn_dgram_aggregation (e : Env) (p : List Byte) {s : State} (hp : s.phase = .idle ∨ s.phase = .drain)
    (hm : s.mode = .aggregation) : execIn e (.dgram p) s = (dgramAgg e p s).outcome := by
  rw [execIn_legal e (Phase.ne_halt_of_run hp) (by simpa [legal, hm] using hp), microSteps, hm]

theorem execIn_srcEmpty (e : Env) {s : State} (hp : s.phase = .idle ∨ s.phase = .drain) (hm : s.mode = .aggregation) :
    execIn e .srcEmpty s = (checkTimeout e { s with phase := .idle }).outcome := by
  rw [execIn_legal e (Phase.ne_halt_of_run hp) (by simpa [legal, hm] using hp), microSteps]

theorem execIn_intr (e : Env) {s : State} (hp : s.phase = .idle ∨ s.phase = .drain) :
    execIn e .intr s = (checkTimeoutIfIdle e s).outcome := by
  rw [execIn_legal e (Phase.ne_halt_of_run hp) (by simpa [legal] using hp), microSteps]

/-- A `TIME` that does not go back sets the clock before the check (R178). -/
theorem execIn_time (e : Env) {s : State} {v : BitVec 64} (hp : s.phase ≠ .halt) (hv : s.now ≤ v) :
    execIn e (.time v) s = (checkTimeoutIfIdle e { s with now := v }).outcome := by
  rw [execIn_legal e hp (by simpa [legal] using hp), microSteps, if_neg (BitVec.not_lt.2 hv)]

/-! ## Timeout checks (R177, R180) -/

theorem checkTimeoutIfIdle_of_idle (e : Env) {s : State} (hp : s.phase = .idle) (hm : s.mode = .aggregation) :
    checkTimeoutIfIdle e s = checkTimeout e s := if_pos ⟨hp, hm⟩

/-- Nothing is checked in a drain, before `START` and in pass-through. -/
theorem checkTimeoutIfIdle_of_not_idle (e : Env) {s : State} (h : s.phase ≠ .idle ∨ s.mode = .passThrough) :
    checkTimeoutIfIdle e s = .run s := by
  refine if_neg fun ⟨hp, hm⟩ => ?_
  rcases h with h | h
  · exact h hp
  · simp [hm] at h

/-- In aggregation `IDLE` that check is one of the timeout. -/
theorem execIn_time_idle (e : Env) {s : State} {v : BitVec 64} (hp : s.phase = .idle) (hm : s.mode = .aggregation)
    (hv : s.now ≤ v) : execIn e (.time v) s = (checkTimeout e { s with now := v }).outcome := by
  rw [execIn_time e (by simp [hp]) hv, checkTimeoutIfIdle_of_idle e (s := { s with now := v }) hp hm]

theorem checkTimeout_of_ahead (e : Env) {s : State} (h : s.now < s.deadline) : checkTimeout e s = .run s :=
  if_neg (BitVec.not_le.2 h)

theorem checkTimeout_of_due (e : Env) {s : State} (h : s.deadline ≤ s.now) : checkTimeout e s = timeout e s := if_pos h

/-- With nothing to flush, a timeout that is due restarts the deadline alone. -/
theorem checkTimeout_of_due_empty (e : Env) {s : State} (h : s.deadline ≤ s.now) (hz : s.accLen = 0) :
    checkTimeout e s = .run s.restartDeadline := by
  rw [checkTimeout_of_empty e hz, if_pos h]

/-! ## The flush and the restarted deadline, which an overflow and a timeout share (R172, R177) -/

/-- A flush whose unit is accepted: the buffer is empty and the deadline runs from the clock as it was. -/
theorem flush_restart_of_run {e : Env} {s u : State} (h : Live e s) (ha : accept e s.buffered s = .run u) :
    (flush e s).andThen (fun t => .run t.restartDeadline) =
      .run { u with accLen := 0, deadline := sat64 (s.now.toNat + s.lat.toNat) } := by
  have hk : Kept s u := accept_kept e s.buffered s u (.inl ha)
  rw [flush_eq h.accLenFits h.readBuffered, ha, Flow.run_andThen, Flow.run_andThen, State.restartDeadline, hk.now,
    hk.lat]

/-- A flush whose unit raises ends the command there (R176). -/
theorem flush_restart_of_ended {e : Env} {s u : State} (h : Live e s) (ha : accept e s.buffered s = .ended u) :
    (flush e s).andThen (fun t => .run t.restartDeadline) = .ended u := by
  rw [flush_eq h.accLenFits h.readBuffered, ha, Flow.ended_andThen, Flow.ended_andThen]

theorem timeout_of_waiting (e : Env) {s : State} (hz : 0 < s.accLen) :
    timeout e s = (flush e s).andThen fun t => .run t.restartDeadline := by
  rw [timeout, flushIfAny, if_pos hz]

/-- The outcome of a timeout that is due while something waits, from each of the three commands that check it. -/
theorem checkTimeout_flushes {e : Env} {s u : State} (h : Live e s) (hz : 0 < s.accLen) (hd : s.deadline ≤ s.now) :
    (accept e s.buffered s = .run u → (checkTimeout e s).outcome =
      .next { u with accLen := 0, deadline := sat64 (s.now.toNat + s.lat.toNat) }) ∧
    (accept e s.buffered s = .ended u → (checkTimeout e s).outcome = .next u) := by
  rw [checkTimeout_of_due e hd, timeout_of_waiting e hz]
  exact ⟨fun ha => by rw [flush_restart_of_run h ha, Flow.outcome_run],
    fun ha => by rw [flush_restart_of_ended h ha, Flow.outcome_ended]⟩

/-! ## A datagram that does not fit behind the content (R172, R173) -/

theorem dgramAgg_overflow {e : Env} {s : State} {p : List Byte} (h : e.par.aggCap < s.accLen + p.length) :
    dgramAgg e p s = startNewBuffer e p { s with phase := .drain } := if_pos h

/-- The content accepted, the datagram starts a new buffer, or is refused and not stored where no buffer could hold
it. -/
theorem startNewBuffer_of_run {e : Env} {s u : State} (p : List Byte) (h : Live e s) (hz : 0 < s.accLen)
    (ha : accept e s.buffered s = .run u) :
    startNewBuffer e p s =
      if e.par.aggCap < p.length then
        .ended (State.raiseFault .payloadTooLarge (BitVec.ofNat 32 p.length)
          { u with accLen := 0, deadline := sat64 (s.now.toNat + s.lat.toNat) })
      else .run { u with
        deadline := sat64 (s.now.toNat + s.lat.toNat), acc := Memory.writeBytes u.acc 0 p, accLen := p.length } := by
  rw [startNewBuffer, if_pos hz, flush_restart_of_run h ha, Flow.run_andThen]
  split
  next => rfl
  next hp => rw [accWrite_eq _ (by omega), Flow.run_andThen]

theorem startNewBuffer_of_ended {e : Env} {s u : State} (p : List Byte) (h : Live e s) (hz : 0 < s.accLen)
    (ha : accept e s.buffered s = .ended u) : startNewBuffer e p s = .ended u := by
  rw [startNewBuffer, if_pos hz, flush_restart_of_ended h ha, Flow.ended_andThen]

/-- With nothing to flush a datagram over the capacity raises at once. -/
theorem startNewBuffer_of_empty {e : Env} {s : State} {p : List Byte} (hz : s.accLen = 0)
    (hp : e.par.aggCap < p.length) :
    startNewBuffer e p s = .ended (s.raiseFault .payloadTooLarge (BitVec.ofNat 32 p.length)) := by
  rw [startNewBuffer, if_neg (by omega), Flow.run_andThen, if_pos hp, raise]

/-- An `ACCEPT` that raises halts and leaves the buffer's length (R176, R235). -/
theorem accept_ended {e : Env} {p : List Byte} {s u : State} (ha : accept e p s = .ended u) :
    u.phase = .halt ∧ u.accLen = s.accLen := by
  have h := accept_ends e p s
  rw [ha] at h
  obtain ⟨w, c, v, hw, rfl⟩ := h
  obtain ⟨-, -, hlen, -⟩ := hw.fields
  exact ⟨State.raiseFault_phase .., (State.raiseFault_accLen ..).trans hlen⟩

/-- A run goes on in order in whatever phase and at whatever time a command puts it. -/
theorem InRun.live_at {e : Env} {s : State} (h : InRun e s) (x : Phase) (v : BitVec 64) :
    Live e { s with phase := x, now := v } :=
  (h.inv.live h.phase).retime x v s.deadline

/-! ## The statements -/

/-- Settles O37: the overflow branch flushes, restarts the deadline and stores the datagram alone. -/
theorem overflowFlushesThenStartsANewBuffer : Obligations.OverflowFlushesThenStartsANewBuffer := by
  intro e s u p hinv hp hm hz hover hfits
  have hlive := (InRun.mk hinv hp).live_at .drain s.now
  rw [execIn_dgram_aggregation e p hp hm, dgramAgg_overflow hover]
  refine ⟨fun ha => ?_, fun ha => ⟨?_, accept_ended (s := { s with phase := .drain }) ha⟩⟩
  · rw [startNewBuffer_of_run p hlive hz ha, if_neg (by omega), Flow.outcome_run]
  · rw [startNewBuffer_of_ended p hlive hz ha, Flow.outcome_ended]

/-- Settles O38: the same branch, the datagram refused after the flush. -/
theorem oversizeDatagramInAggregation : Obligations.OversizeDatagramInAggregation := by
  intro e s u p hinv hp hm hover
  have hlive := (InRun.mk hinv hp).live_at .drain s.now
  rw [execIn_dgram_aggregation e p hp hm, dgramAgg_overflow (by omega)]
  refine ⟨fun hz => ?_, fun hz ha => ?_, fun hz ha => ?_⟩
  · rw [startNewBuffer_of_empty (s := { s with phase := .drain }) hz hover, Flow.outcome_ended]
  · rw [startNewBuffer_of_run p hlive hz ha, if_pos hover, Flow.outcome_ended]
  · rw [startNewBuffer_of_ended p hlive hz ha, Flow.outcome_ended]

/-- Settles O45: the three commands make the same check, each from the phase and time it has set. -/
theorem dueTimeoutFlushes : Obligations.DueTimeoutFlushes := by
  intro e s u v hinv hm hz
  refine ⟨fun hp hd => ?_, fun hp hd => ?_, fun hp hv hd => ?_⟩
  · rw [execIn_srcEmpty e hp hm]
    exact checkTimeout_flushes ((InRun.mk hinv hp).live_at .idle s.now) hz hd
  · rw [execIn_intr e (.inl hp), checkTimeoutIfIdle_of_idle e hp hm]
    exact checkTimeout_flushes (hinv.live (.inl hp)) hz hd
  · rw [execIn_time_idle e hp hm hv]
    exact checkTimeout_flushes ((InRun.mk hinv (.inl hp)).live_at s.phase v) hz hd

/-- Settles O36, by `dgramAgg_fits`. -/
theorem aggregatedDatagramIsAppended : Obligations.AggregatedDatagramIsAppended := by
  intro s p hp hm hfits
  rw [exec_eq_execIn, execIn_dgram_aggregation _ p hp hm, dgramAgg_fits hfits, Flow.outcome_run]

/-- Settles O40: the check after the drain, before the deadline and from it on. -/
theorem srcEmptyEndsTheDrain : Obligations.SrcEmptyEndsTheDrain := by
  intro s hp hm
  rw [exec_eq_execIn, execIn_srcEmpty _ hp hm]
  refine ⟨fun hahead => ?_, fun hdue hz => ?_⟩
  · rw [checkTimeout_of_ahead _ (s := { s with phase := .idle }) hahead, Flow.outcome_run]
  · rw [checkTimeout_of_due_empty _ (s := { s with phase := .idle }) hdue hz]
    rfl

/-- Settles O41: the raise records the first fault, and the packed word has `MODE` as its only free field. -/
theorem srcErrIsFatal : Obligations.SrcErrIsFatal := by
  intro s hp hf
  constructor
  · have hlegal : legal .srcErr s.phase s.mode = true := by simpa [legal] using hp
    rw [exec_eq_execIn, execIn_legal _ (Phase.ne_halt_of_run hp) hlegal, microSteps, raise,
      Flow.outcome_ended, State.raiseFault_eq hf]
  · cases hm : s.mode <;> simp [State.status, Cause.code, Mode.bit, Phase.code]

/-- Settles O42: `INTR` is the check alone. -/
theorem intrContinues : Obligations.IntrContinues := by
  intro s
  rw [exec_eq_execIn]
  refine ⟨fun hp => ?_, fun hp hm => ?_, fun hp hm hahead => ?_, fun hp hm hdue hz => ?_⟩
  · rw [execIn_intr _ (.inr hp), checkTimeoutIfIdle_of_not_idle _ (.inl (by simp [hp])), Flow.outcome_run]
  · rw [execIn_intr _ (.inl hp), checkTimeoutIfIdle_of_not_idle _ (.inr hm), Flow.outcome_run]
  · rw [execIn_intr _ (.inl hp), checkTimeoutIfIdle_of_idle _ hp hm, checkTimeout_of_ahead _ hahead, Flow.outcome_run]
  · rw [execIn_intr _ (.inl hp), checkTimeoutIfIdle_of_idle _ hp hm, checkTimeout_of_due_empty _ hdue hz]
    rfl

/-- Settles O43: `TIME` is the check at the new time. -/
theorem timeAdvancesTheClock : Obligations.TimeAdvancesTheClock := by
  intro s v hv
  rw [exec_eq_execIn]
  refine ⟨fun h => ?_, fun hp hm hahead => ?_, fun hp hm hdue hz => ?_⟩
  · have hrun : s.phase ≠ .halt ∧ (s.phase ≠ .idle ∨ s.mode = .passThrough) := by
      rcases h with hp | hp | ⟨hp, hm⟩
      · simp [hp]
      · simp [hp]
      · simp [hp, hm]
    rw [execIn_time _ hrun.1 hv, checkTimeoutIfIdle_of_not_idle _ (s := { s with now := v }) hrun.2, Flow.outcome_run]
  · rw [execIn_time_idle _ hp hm hv, checkTimeout_of_ahead _ (s := { s with now := v }) hahead, Flow.outcome_run]
  · rw [execIn_time_idle _ hp hm hv, checkTimeout_of_due_empty _ (s := { s with now := v }) hdue hz]
    rfl

end Sys2Proof.Machine
end

section
/-!
PROOFS. Runs in aggregation (42_ingestion.md R183, R184): each command appends to the buffer or hands its content to one
`ACCEPT`, the deadline in force stays within the latency, and what waits leaves with it.
-/

namespace Sys2Proof.Machine

/-! ## What a command of a run does to the buffer -/

theorem Flow.Lands.run {f : Flow} {R H : State → Prop} {t : State} (hf : f.Lands R H) (hr : f = .run t) : R t := by
  subst hr
  exact hf

theorem Flow.Ends.always {f : Flow} {R P : State → Prop} (hf : f.Ends R) (hr : ∀ t, R t → P t)
    (he : ∀ c v t, R t → P (t.raiseFault c v)) : f.Always P := by
  rintro t (rfl | rfl)
  · exact hr t hf
  · obtain ⟨u, c, v, hu, rfl⟩ := hf
    exact he c v u hu

/-- A command that does not halt was legal, and its micro-steps ran to their end. -/
theorem execIn_run {e : Env} {i : Instr} {s t : State} (hx : execIn e i s = .next t) (ht : t.phase ≠ .halt) :
    legal i s.phase s.mode = true ∧ microSteps e i s = .run t := by
  rcases execIn_next hx with ⟨c, rfl, rfl⟩ | ⟨hp, rfl⟩ | ⟨-, -, rfl⟩ | ⟨-, hl, hr⟩
  · exact ⟨rfl, rfl⟩
  · exact absurd hp ht
  · exact absurd (State.raiseFault_phase ..) ht
  · exact ⟨hl, (Flow.outcome_eq_next.1 hr).resolve_right fun he => ht (microSteps_ended he)⟩

theorem State.buffered_eq_nil {s : State} (h : s.accLen = 0) : s.buffered = [] := by
  rw [State.buffered, h]
  rfl

/-- A timeout check of a run that does not halt: nothing before the deadline, a timeout from it on (R180). -/
theorem checkTimeout_run {e : Env} {s t : State} (h : Live e s) (hr : checkTimeout e s = .run t) :
    (s.now < s.deadline ∧ t = s) ∨ (s.deadline ≤ s.now ∧ TimedOut e s t) := by
  by_cases hd : s.deadline ≤ s.now
  · rw [checkTimeout_of_due e hd] at hr
    exact .inr ⟨hd, (timeout_lands h).run hr⟩
  · rw [checkTimeout_of_ahead e (BitVec.not_le.1 hd)] at hr
    cases hr
    exact .inl ⟨BitVec.not_le.1 hd, rfl⟩

/-- How the command `i` moves the bytes of the buffer, read off `SEQ` as `acceptedUnits` does: its datagram goes behind
the content, or the content has left as one unit and the datagram is alone (R172, R176). -/
def BufferStep (i : Instr) (s t : State) : Prop :=
  (t.seq = s.seq ∧ t.buffered = s.buffered ++ payloads [i]) ∨
  (t.seq ≠ s.seq ∧ 0 < s.accLen ∧ t.buffered = payloads [i])

theorem BufferStep.refl {i : Instr} (s : State) (hi : payloads [i] = []) : BufferStep i s s :=
  .inl ⟨rfl, by rw [hi, List.append_nil]⟩

theorem TimedOut.bufferStep {e : Env} {i : Instr} {s t : State} (h : TimedOut e s t) (hq : s.seq < 2 ^ e.par.wSeq)
    (hi : payloads [i] = []) : BufferStep i s t := by
  have ht : t.buffered = [] := State.buffered_eq_nil (congrArg State.accLen h.outside)
  have hseq := h.counted
  by_cases hz : s.accLen = 0
  · rw [if_pos hz] at hseq
    exact .inl ⟨hseq, by rw [ht, State.buffered_eq_nil hz, hi, List.append_nil]⟩
  · rw [if_neg hz] at hseq
    exact .inr ⟨hseq ▸ succ_seq_ne e hq, Nat.pos_of_ne_zero hz, by rw [ht, hi]⟩

theorem checkTimeout_bufferStep {e : Env} {i : Instr} {s t : State} (h : Live e s) (hi : payloads [i] = [])
    (hr : checkTimeout e s = .run t) : BufferStep i s t := by
  rcases checkTimeout_run h hr with ⟨-, rfl⟩ | ⟨-, ht⟩
  · exact .refl t hi
  · exact ht.bufferStep h.seqFits hi

theorem checkTimeoutIfIdle_bufferStep {e : Env} {i : Instr} {s t : State} (h : Live e s) (hi : payloads [i] = [])
    (hr : checkTimeoutIfIdle e s = .run t) : BufferStep i s t := by
  rw [checkTimeoutIfIdle] at hr
  split at hr
  next => exact checkTimeout_bufferStep h hi hr
  next => cases hr; exact .refl s hi

theorem Gathered.bufferStep {e : Env} {p : List Byte} {s t : State} (h : Gathered e s p t)
    (hq : s.seq < 2 ^ e.par.wSeq) : BufferStep (.dgram p) s t := by
  have hp : payloads [.dgram p] = p := by simp [payloads, datagrams]
  rcases h.content with ⟨hseq, -, -, hbuf⟩ | ⟨hseq, hz, -, hbuf⟩
  · exact .inl ⟨hseq, by rw [hbuf, hp]⟩
  · exact .inr ⟨hseq ▸ succ_seq_ne e hq, hz, by rw [hbuf, hp]⟩

/-- `DGRAM` in aggregation, in a run that does not halt. -/
theorem InRun.gathered {e : Env} {p : List Byte} {s t : State} (h : InRun e s) (hm : s.mode = .aggregation)
    (hx : execIn e (.dgram p) s = .next t) (ht : t.phase ≠ .halt) : Gathered e s p t := by
  obtain ⟨-, hr⟩ := execIn_run hx ht
  rw [microSteps, hm] at hr
  exact (dgramAgg_lands p (h.inv.live h.phase)).run hr

theorem InRun.bufferStep {e : Env} {i : Instr} {s t : State} (h : InRun e s) (hm : s.mode = .aggregation)
    (hx : execIn e i s = .next t) (ht : t.phase ≠ .halt) : BufferStep i s t := by
  have hu : s.phase ≠ .uncfg := by rcases h.phase with hp | hp <;> simp [hp]
  obtain ⟨hl, hr⟩ := execIn_run hx ht
  cases i with
  | wrcfg c v => simp [legal, hu] at hl
  | rdcsr c => cases hr; exact .refl s rfl
  | start => simp [legal, hu] at hl
  | dgram p => exact (h.gathered hm hx ht).bufferStep h.inv.seqFits
  | srcEmpty => exact checkTimeout_bufferStep (s := { s with phase := .idle }) (h.live_at .idle s.now) rfl hr
  | srcErr => cases hr
  | intr => exact checkTimeoutIfIdle_bufferStep (h.inv.live h.phase) rfl hr
  | time v =>
    rw [microSteps] at hr
    split at hr
    next => cases hr
    next => exact checkTimeoutIfIdle_bufferStep (s := { s with now := v }) (h.live_at s.phase v) rfl hr

/-! ## The units of a run in aggregation -/

/-- Settles O39, by induction on the run: a command that counts no unit appends its datagram, one that counts a unit
takes the whole content out of the buffer. -/
theorem aggregationConservesBytes : Obligations.AggregationConservesBytes := by
  intro e s t is us hinv hm hp hr
  induction is generalizing s us with
  | nil =>
    cases hr
    simp [payloads, datagrams]
  | cons i is ih =>
    have h : InRun e s := ⟨hinv, hp⟩
    obtain ⟨u, vs, hx, hu, hvs, rfl⟩ := acceptedUnits_cons.1 hr
    obtain ⟨hrun, hmode⟩ := h.next hx hu
    obtain ⟨hlen, hbytes⟩ := ih u vs hrun.inv (hmode.trans hm) hrun.phase hvs
    rcases h.bufferStep hm hx hu with ⟨hseq, hbuf⟩ | ⟨hseq, hz, hbuf⟩
    · rw [if_pos hseq, List.nil_append]
      exact ⟨hlen, by rw [hbytes, hbuf, payloads_cons i is, List.append_assoc]⟩
    · have hunit : s.buffered.length = s.accLen := (hinv.live hp).length_buffered
      rw [if_neg hseq, acceptedUnit_aggregation hm]
      refine ⟨List.forall_mem_cons.2 ⟨⟨by omega, hunit ▸ hinv.accLenFits⟩, hlen⟩, ?_⟩
      rw [List.singleton_append, List.flatten_cons, List.append_assoc, hbytes, hbuf, payloads_cons i is]

/-- With nothing in the buffer and no datagram no unit is accepted. -/
theorem acceptedUnits_eq_nil {e : Env} {is : List Instr} {s t : State} {us : List (List Byte)} (h : InRun e s)
    (hm : s.mode = .aggregation) (hr : acceptedUnits e is s = some (us, t)) (hb : s.buffered = [])
    (hd : payloads is = []) : us = [] := by
  obtain ⟨hlen, hbytes⟩ := aggregationConservesBytes e s t is us h.inv hm h.phase hr
  rw [hb, hd, List.append_nil, List.append_eq_nil_iff, List.flatten_eq_nil_iff] at hbytes
  refine List.eq_nil_iff_forall_not_mem.2 fun u hu => ?_
  have hpos := (hlen u hu).1
  simp [hbytes.1 u hu] at hpos

/-- Without a datagram what waits leaves at once, as one unit, or not at all. -/
theorem acceptedUnits_of_no_datagram {e : Env} {is : List Instr} {s t : State} {us : List (List Byte)} (h : InRun e s)
    (hm : s.mode = .aggregation) (hr : acceptedUnits e is s = some (us, t)) (hd : payloads is = []) :
    us = [] ∨ us = [s.buffered] := by
  induction is generalizing s us with
  | nil => cases hr; exact .inl rfl
  | cons i is ih =>
    obtain ⟨u, vs, hx, hu, hvs, rfl⟩ := acceptedUnits_cons.1 hr
    obtain ⟨hrun, hmode⟩ := h.next hx hu
    rw [payloads_cons, List.append_eq_nil_iff] at hd
    rcases h.bufferStep hm hx hu with ⟨hseq, hbuf⟩ | ⟨hseq, -, hbuf⟩
    · rw [hd.1, List.append_nil] at hbuf
      rw [if_pos hseq, List.nil_append, ← hbuf]
      exact ih hrun (hmode.trans hm) hvs hd.2
    · have hnone : vs = [] := acceptedUnits_eq_nil hrun (hmode.trans hm) hvs (hbuf.trans hd.1) hd.2
      rw [if_neg hseq, acceptedUnit_aggregation hm, hnone]
      exact .inr rfl

/-! ## The frames of the units, from any slot -/

/-- An `ACCEPT` that runs adds ok frames, its data frame among them. -/
theorem accept_run_txStream {e : Env} {p : List Byte} {s u : State} (h : EngineOk e s) (ha : accept e p s = .run u) :
    ∃ fs : List (List Byte), u.txStream = s.txStream ++ fs.map (·, Verdict.ok) ∧ dataFrame e p s ∈ fs := by
  rcases accept_run h ha with ⟨-, rfl⟩ | ⟨-, rfl⟩
  · exact ⟨_, txStream_blockOpen e p s, List.mem_singleton_self _⟩
  · exact ⟨_, txStream_blockDone e p s, List.mem_cons_self⟩

/-- Each accepted unit of a run is carried by a frame that the run added with verdict ok. -/
theorem acceptedUnits_carried {e : Env} {is : List Instr} {s t : State} {us : List (List Byte)} (h : InRun e s)
    (hr : acceptedUnits e is s = some (us, t)) :
    ∃ fs : List (List Byte), t.txStream = s.txStream ++ fs.map (·, Verdict.ok) ∧
      ∀ u ∈ us, ∃ f ∈ fs, ∃ q, CarriesUnit e q u f := by
  induction is generalizing s us with
  | nil => cases hr; exact ⟨[], by simp⟩
  | cons i is ih =>
    obtain ⟨m, vs, hx, hm, hvs, rfl⟩ := acceptedUnits_cons.1 hr
    obtain ⟨fs, hstream, hcarried⟩ := ih (h.next hx hm).1 hvs
    rcases h.unit hx hm with ⟨hseq, hq⟩ | ⟨hseq, b, a, hb, ha, hafter⟩
    · rw [if_pos hseq, List.nil_append]
      exact ⟨fs, by rw [hstream, hq.txStream], hcarried⟩
    · obtain ⟨gs, hgs, hmem⟩ := accept_run_txStream (hb.engineOk h.engineOk) ha
      rw [if_neg hseq]
      refine ⟨gs ++ fs, by rw [hstream, hafter.txStream, hgs, hb.txStream, List.map_append, List.append_assoc],
        List.forall_mem_cons.2 ⟨⟨_, List.mem_append_left fs hmem, _, dataFrame_carriesUnit e _ b⟩, fun u hu => ?_⟩⟩
      obtain ⟨f, hf, hc⟩ := hcarried u hu
      exact ⟨f, List.mem_append_right gs hf, hc⟩

/-! ## The deadline within the latency (60_exceptions.md R241) -/

theorem toNat_sat64_le (v : Nat) : (sat64 v).toNat ≤ v := by
  rw [sat64, BitVec.toNat_ofNat]
  exact (Nat.mod_le _ _).trans (Nat.min_le_left _ _)

/-- In a run the deadline in force is not later than `NOW + LAT`. -/
def Timely (s : State) : Prop :=
  s.phase = .idle ∨ s.phase = .drain → s.deadline.toNat ≤ s.now.toNat + s.lat.toNat

theorem restartDeadline_timely (s : State) : Timely s.restartDeadline := fun _ => toNat_sat64_le _

theorem raiseFault_timely (c : Cause) (v : Word) (s : State) : Timely (s.raiseFault c v) := fun hp => by simp at hp

theorem raise_timely (c : Cause) (v : Word) (s : State) : (raise c v s).Always Timely :=
  Flow.always_ended (raiseFault_timely c v s)

theorem Timely.of_uncfg {s : State} (h : s.phase = .uncfg) : Timely s := fun hp => by simp [h] at hp

theorem Timely.later {s : State} {v : BitVec 64} (h : Timely s) (hv : s.now ≤ v) : Timely { s with now := v } :=
  fun hp => (h hp).trans (Nat.add_le_add_right (BitVec.le_def.1 hv) _)

theorem accept_timely {s : State} (e : Env) (p : List Byte) (h : Timely s) : (accept e p s).Always Timely :=
  (accept_ends e p s).always (fun t ht => by rw [ht.outside]; exact h) fun c v t _ => raiseFault_timely c v t

theorem flush_timely {s : State} (e : Env) (h : Timely s) : (flush e s).Always Timely :=
  (accRead_always fun unit => accept_timely e unit h).andThen (fun _ ht => ht) fun _ ht => Flow.always_run ht

theorem checkTimeout_timely {s : State} (e : Env) (h : Timely s) : (checkTimeout e s).Always Timely := by
  have hflush : (flushIfAny e s).Always Timely := by
    rw [flushIfAny]
    split
    next => exact flush_timely e h
    next => exact Flow.always_run h
  rw [checkTimeout]
  split
  next => exact hflush.andThen (fun _ ht => ht) fun t _ => Flow.always_run (restartDeadline_timely t)
  next => exact Flow.always_run h

theorem checkTimeoutIfIdle_timely {s : State} (e : Env) (h : Timely s) : (checkTimeoutIfIdle e s).Always Timely := by
  rw [checkTimeoutIfIdle]
  split
  next => exact checkTimeout_timely e h
  next => exact Flow.always_run h

/-- Storing the datagram does not touch the deadline. -/
theorem accWrite_timely {s : State} (e : Env) (off l : Nat) (p : List Byte) (h : Timely s) :
    ((accWrite e off p s).andThen fun u => .run { u with accLen := l }).Always Timely :=
  (accWrite_always h).andThen (fun _ ht => ht) fun _ ht => Flow.always_run ht

theorem startNewBuffer_timely {s : State} (e : Env) (p : List Byte) (h : Timely s) :
    (startNewBuffer e p s).Always Timely := by
  refine Flow.Always.andThen (P := Timely) ?_ (fun _ ht => ht) fun t ht => ?_
  · split
    next => exact (flush_timely e h).andThen (fun _ ht => ht) fun t _ => Flow.always_run (restartDeadline_timely t)
    next => exact Flow.always_run h
  · split
    next => exact raise_timely _ _ t
    next => exact accWrite_timely e _ _ p ht

theorem dgramAgg_timely {s : State} (e : Env) (p : List Byte) (h : Timely { s with phase := .drain }) :
    (dgramAgg e p s).Always Timely := by
  rw [dgramAgg]
  dsimp only
  split
  next => exact startNewBuffer_timely e p h
  next => exact (accWrite_always h).andThen (fun _ ht => ht) fun _ ht => Flow.always_run ht

theorem writeCsr_timely {s : State} (w : Word) (c : Csr) (v : Word) (h : s.phase = .uncfg) :
    (writeCsr w c v s).Always Timely := by
  have hraise : (raise .illegalCmd w s).Always Timely := raise_timely _ _ s
  cases c with
  | k | n | tag | mode | lat => exact Flow.always_run (.of_uncfg h)
  | _ => exact hraise

/-- The deadline stays within the latency through every legal command; `START` sets it so (R215). -/
theorem microSteps_timely {s : State} (e : Env) (i : Instr) (h : Timely s) (hl : legal i s.phase s.mode = true) :
    (microSteps e i s).Always Timely := by
  cases i with
  | wrcfg c v =>
    have hu : s.phase = .uncfg ∧ csrWritable c = true := by simpa [legal] using hl
    exact writeCsr_timely _ c v hu.1
  | rdcsr c => exact Flow.always_run h
  | start =>
    have hcore : Timely (constructCore s) := fun _ => toNat_sat64_le _
    rw [microSteps]
    split
    · split
      · exact checkTimeout_timely e hcore
      · exact Flow.always_run hcore
    · exact raise_timely _ _ s
  | dgram p =>
    have hp : s.phase = .idle ∨ s.phase = .drain ∧ s.mode = .aggregation := by simpa [legal] using hl
    rw [microSteps]
    split
    next => exact accept_timely e p h
    next => exact dgramAgg_timely e p fun _ => h (hp.imp_right And.left)
  | srcEmpty =>
    have hp : (s.phase = .idle ∨ s.phase = .drain) ∧ s.mode = .aggregation := by simpa [legal] using hl
    exact checkTimeout_timely (s := { s with phase := .idle }) e fun _ => h hp.1
  | srcErr => exact raise_timely _ _ s
  | intr => exact checkTimeoutIfIdle_timely e h
  | time v =>
    rw [microSteps]
    split
    next => exact raise_timely _ _ s
    next hv => exact checkTimeoutIfIdle_timely e (h.later (BitVec.not_lt.1 hv))

theorem execIn_timely {e : Env} {i : Instr} {s t : State} (h : Timely s) (hx : execIn e i s = .next t) : Timely t := by
  rcases execIn_next hx with ⟨c, -, rfl⟩ | ⟨-, rfl⟩ | ⟨-, -, rfl⟩ | ⟨-, hl, hr⟩
  · exact h
  · exact h
  · exact raiseFault_timely _ _ s
  · exact (microSteps_timely e i h hl).outcome hr

theorem execMalformed_timely {w : Word} {s t : State} (h : Timely s) (hx : execMalformed w s = .next t) : Timely t := by
  by_cases hp : s.phase = .halt
  · rw [execMalformed, command_halt hp] at hx
    cases hx; exact h
  · rw [execMalformed, command_illegal hp rfl] at hx
    cases hx; exact raiseFault_timely _ _ s

/-- Settles O46: a step only waits, halts, advances the clock or restarts the deadline at `NOW + LAT`. -/
theorem deadlineWithinLatency : Obligations.DeadlineWithinLatency := by
  intro s t (h : Timely s) hstep
  rcases step_next hstep with ⟨-, rfl⟩ | ⟨w, rest, -, hx⟩ | ⟨i, rest, -, hx⟩
  · exact h
  · exact execMalformed_timely (s := { s with decoder := [], port := rest }) h hx
  · rw [exec_eq_execIn] at hx
    exact execIn_timely (s := { s with decoder := [], port := rest }) h hx

/-! ## What waits leaves with the latency (R184) -/

/-- The drain of a run has ended, and what waits, if anything, is due at time `d` at the latest. -/
structure Awaiting (e : Env) (d : Nat) (s : State) : Prop extends InRun e s where
  mode : s.mode = .aggregation
  idle : s.phase = .idle
  due : s.accLen = 0 ∨ s.deadline.toNat ≤ d

/-- `SRC_EMPTY` ends the drain (R174). -/
theorem InRun.srcEmpty {e : Env} {d : Nat} {s t : State} (h : InRun e s) (hm : s.mode = .aggregation)
    (hd : s.deadline.toNat ≤ d) (hx : execIn e .srcEmpty s = .next t) (ht : t.phase ≠ .halt) : Awaiting e d t := by
  obtain ⟨hrun, hmode⟩ := h.next hx ht
  obtain ⟨-, hr⟩ := execIn_run hx ht
  rcases checkTimeout_run (h.live_at .idle s.now) hr with ⟨-, rfl⟩ | ⟨-, hout⟩
  · exact { hrun with mode := hm, idle := rfl, due := .inr hd }
  · exact { hrun with
      mode := hmode.trans hm
      idle := congrArg State.phase hout.outside
      due := .inl (congrArg State.accLen hout.outside) }

/-- A `TIME` of a run waits on, or finds the timeout due and empties the buffer (R178). -/
theorem Awaiting.time {e : Env} {d : Nat} {v : BitVec 64} {s t : State} (h : Awaiting e d s)
    (hx : execIn e (.time v) s = .next t) (ht : t.phase ≠ .halt) :
    Awaiting e d t ∧ (s.accLen = 0 ∨ d ≤ v.toNat → t.accLen = 0) := by
  obtain ⟨hrun, hmode⟩ := h.toInRun.next hx ht
  obtain ⟨-, hr⟩ := execIn_run hx ht
  rw [microSteps] at hr
  split at hr
  next => cases hr
  next =>
    rw [checkTimeoutIfIdle_of_idle e (s := { s with now := v }) h.idle h.mode] at hr
    rcases checkTimeout_run (h.live_at s.phase v) hr with ⟨hahead, rfl⟩ | ⟨-, hout⟩
    · have hlt : v.toNat < s.deadline.toNat := BitVec.lt_def.1 hahead
      refine ⟨{ hrun with mode := h.mode, idle := h.idle, due := h.due }, fun hv => ?_⟩
      show s.accLen = 0
      rcases h.due with hz | hd <;> omega
    · have hz : t.accLen = 0 := congrArg State.accLen hout.outside
      have hidle : t.phase = .idle := (congrArg State.phase hout.outside).trans h.idle
      exact ⟨{ hrun with mode := hmode.trans h.mode, idle := hidle, due := .inl hz }, fun _ => hz⟩

/-- Once one of the `TIME` commands has reached the time `d`, nothing waits any more. -/
theorem Awaiting.times {e : Env} {d : Nat} {vs : List (BitVec 64)} {s t : State} {us : List (List Byte)}
    (h : Awaiting e d s) (hr : acceptedUnits e (vs.map .time) s = some (us, t)) :
    t.phase = .idle ∧ (s.accLen = 0 ∨ (∃ v ∈ vs, d ≤ v.toNat) → t.accLen = 0) := by
  induction vs generalizing s us with
  | nil =>
    cases hr
    exact ⟨h.idle, fun hz => hz.resolve_right (by simp)⟩
  | cons v vs ih =>
    obtain ⟨u, us', hx, hu, hus, -⟩ := acceptedUnits_cons.1 hr
    obtain ⟨hnext, hempty⟩ := h.time hx hu
    obtain ⟨hidle, hrest⟩ := ih hnext hus
    refine ⟨hidle, fun hz => hrest ?_⟩
    rcases hz with hz | ⟨w, hw, hd⟩
    · exact .inl (hempty (.inl hz))
    rcases List.mem_cons.1 hw with rfl | hw
    · exact .inl (hempty (.inr hd))
    · exact .inr ⟨w, hw, hd⟩

theorem payloads_times (vs : List (BitVec 64)) : payloads (vs.map .time) = [] := by
  induction vs with
  | nil => rfl
  | cons v vs ih => rw [List.map_cons, payloads_cons, ih]; rfl

/-- Settles O47: the datagram waits behind a deadline within `NOW + LAT`, `SRC_EMPTY` keeps it so, and the first `TIME`
that reaches it flushes; the rest is the conservation of bytes (O39) and the frames of the units. -/
theorem waitingDatagramsLeaveWithinLatency : Obligations.WaitingDatagramsLeaveWithinLatency := by
  intro e s t p vs us hinv hm hp hdl hr hv
  have h : InRun e s := ⟨hinv, hp⟩
  obtain ⟨a, us₁, hxa, ha, hus₁, rfl⟩ := acceptedUnits_cons.1 hr
  obtain ⟨b, us₂, hxb, hb, hus₂, -⟩ := acceptedUnits_cons.1 hus₁
  obtain ⟨hrun, hmode⟩ := h.next hxa ha
  have hgather := h.gathered hm hxa ha
  have hdue : a.deadline.toNat ≤ s.now.toNat + s.lat.toNat := by
    rw [← hgather.now, ← hgather.lat]
    exact execIn_timely (fun _ => hdl) hxa hrun.phase
  obtain ⟨hidle, hempty⟩ := (hrun.srcEmpty (hmode.trans hm) hdue hxb hb).times hus₂
  have hz : t.accLen = 0 := hempty (.inr hv)
  have hrest : payloads (.srcEmpty :: vs.map .time) = [] := payloads_times vs
  have hbytes := (aggregationConservesBytes e s t _ _ hinv hm hp hr).2
  rw [State.buffered_eq_nil hz, List.append_nil, payloads_cons, hrest, List.append_nil] at hbytes
  have hdatagram : payloads [.dgram p] = p := by simp [payloads, datagrams]
  rw [hdatagram] at hbytes
  refine ⟨hz, hidle, hbytes, fun hnone hne => ?_, ?_⟩
  · rcases hgather.content with ⟨hseq, -, -, hbuf⟩ | ⟨-, hpos, -⟩
    · rw [State.buffered_eq_nil hnone, List.nil_append] at hbytes hbuf
      rw [if_pos hseq, List.nil_append] at hbytes ⊢
      rcases acceptedUnits_of_no_datagram hrun (hmode.trans hm) hus₁ hrest with hnil | hone
      · rw [hnil] at hbytes
        exact absurd hbytes.symm hne
      · rw [hone, hbuf]
    · omega
  · obtain ⟨fs, hstream, hcarried⟩ := acceptedUnits_carried h hr
    intro u hu
    obtain ⟨f, hf, q, hc⟩ := hcarried u hu
    exact ⟨f, q, by rw [hstream, List.drop_left]; exact List.mem_map_of_mem hf, hc⟩

end Sys2Proof.Machine
end

section
/-!
PROOFS. What the ingestion commands leave alone, from any state (60_exceptions.md R234): `Kept` for the configuration,
the port and the history, the laws of Outside.lean for the engine, the buffers and the fault record.
-/

namespace Sys2Proof.Machine

/-- The engine and the multiplexer append TX records alone to the history (43_control.md R213). -/
theorem Kept.rspStream {s t : State} (h : Kept s t) : t.rspStream = s.rspStream := by
  obtain ⟨l, hl⟩ := h.events
  simp [State.rspStream, hl, Function.comp_def]

/-- A byte outside the open slot, and outside the parity buffers where the block is full, is not stored to. -/
theorem not_storesTo {e : Env} {s : State} {a : Nat}
    (hslot : a < s.frgIdx * e.par.fragCap ∨ (s.frgIdx + 1) * e.par.fragCap ≤ a)
    (hparity : s.frgIdx + 1 < s.k.toNat ∨ a < s.k.toNat * e.par.fragCap ∨ s.n.toNat * e.par.fragCap ≤ a) :
    ¬ storesTo e s a := by
  rintro (⟨hlow, hhigh⟩ | ⟨hfull, hlow, hhigh⟩) <;> omega

/-- Settles O49: one `ACCEPT` changes the engine's part alone (`accept_ends`), and a raise only halts. -/
theorem passThroughFrame : Obligations.PassThroughFrame := by
  intro s t p hp hm hx
  rw [exec_eq_execIn, execIn_dgram_passThrough _ p hp hm] at hx
  have hk := (accept_kept _ p s).outcome hx
  refine ⟨hk.port, hk.decoder, hk.k, hk.n, hk.tag, hk.mode, hk.lat, ?_⟩
  rcases (accept_ends _ p s).outcome hx with h | ⟨u, c, v, h, rfl⟩
  · obtain ⟨hphase, hacc, hlen, hdeadline, hfault⟩ := h.fields
    exact ⟨hacc, hlen, hk.now, hdeadline, hk.rspStream, .inl (hphase.trans hp), fun _ => hfault,
      fun a hslot hparity => h.stored a (not_storesTo hslot hparity)⟩
  · obtain ⟨-, hacc, hlen, hdeadline, -⟩ := h.fields
    refine ⟨by simpa using hacc, by simpa using hlen, hk.now, by simpa using hdeadline, hk.rspStream, .inr (by simp),
      fun hidle => by simp at hidle, fun a hslot hparity => ?_⟩
    rw [State.raiseFault_frag]
    exact h.stored a (not_storesTo hslot hparity)

/-- Settles O50, by `dgramAgg_ends`. -/
theorem aggregationFrame : Obligations.AggregationFrame := by
  intro s t p hp hm hx
  rw [exec_eq_execIn, execIn_dgram_aggregation _ p hp hm] at hx
  have hk := (dgramAgg_kept _ p s).outcome hx
  refine ⟨hk.port, hk.decoder, hk.k, hk.n, hk.tag, hk.mode, hk.lat, hk.now, hk.rspStream, ?_⟩
  rcases (dgramAgg_ends _ p s).outcome hx with h | ⟨u, c, v, h, rfl⟩
  · exact ⟨.inl h.phase, fun _ => h.fault, h.idle, h.acc,
      fun a hslot hparity => h.stored a (not_storesTo hslot hparity)⟩
  · refine ⟨.inr (by simp), fun hdrain => by simp at hdrain, by simpa using h.idle, ?_, fun a hslot hparity => ?_⟩
    · rw [State.raiseFault_acc]
      exact h.acc
    · rw [State.raiseFault_frag]
      exact h.stored a (not_storesTo hslot hparity)

/-! ## SRC_EMPTY, INTR and TIME -/

/-- The three commands that check the timeout. -/
def ChecksTimeout (i : Instr) : Prop := i = .srcEmpty ∨ i = .intr ∨ ∃ v, i = .time v

/-- What such a command leaves alone, but for a raise: what its flush does (`FlushOnly`), and the phase unless it ends a
drain. -/
structure TimerOnly (e : Env) (i : Instr) (s t : State) : Prop where
  phase : t.phase = s.phase ∨ (i = .srcEmpty ∧ t.phase = .idle)
  acc : t.acc = s.acc
  fault : t.fault = s.fault ∧ t.cause = s.cause ∧ t.info = s.info
  stored : ∀ a, ¬ storesTo e s a → Memory.read t.frag a = Memory.read s.frag a
  idle : s.accLen = 0 →
    t.frag = s.frag ∧ t.blkIdx = s.blkIdx ∧ t.frgIdx = s.frgIdx ∧ t.blkMax = s.blkMax ∧ t.seq = s.seq ∧
      t.accLen = 0 ∧ t.events = s.events ∧ t.draws = s.draws

theorem TimerOnly.refl (e : Env) (i : Instr) (s : State) : TimerOnly e i s s :=
  ⟨.inl rfl, rfl, ⟨rfl, rfl, rfl⟩, fun _ _ => rfl, fun hz => ⟨rfl, rfl, rfl, rfl, rfl, hz, rfl, rfl⟩⟩

theorem microSteps_timerOnly (e : Env) {i : Instr} (s : State) (hi : ChecksTimeout i) :
    (microSteps e i s).Ends (TimerOnly e i s) := by
  rcases hi with rfl | rfl | ⟨v, rfl⟩
  · exact (checkTimeout_ends e { s with phase := .idle }).mono fun t h =>
      ⟨.inr ⟨rfl, h.phase⟩, h.acc, h.fault, h.stored, h.idle⟩
  · exact (checkTimeoutIfIdle_ends e s).mono fun t h => ⟨.inl h.phase, h.acc, h.fault, h.stored, h.idle⟩
  · rw [microSteps]
    split
    next => exact ⟨s, _, _, .refl e _ s, rfl⟩
    next =>
      exact (checkTimeoutIfIdle_ends e { s with now := v }).mono fun t h =>
        ⟨.inl h.phase, h.acc, h.fault, h.stored, h.idle⟩

/-- Discarded, illegal, ended by a raise or run to its end, the command leaves the same alone. -/
theorem execIn_timerOnly {e : Env} {i : Instr} {s t : State} (hi : ChecksTimeout i) (hx : execIn e i s = .next t) :
    TimerOnly e i s t ∨ ∃ u c v, TimerOnly e i s u ∧ t = State.raiseFault c v u := by
  rcases execIn_next hx with ⟨c, rfl, -⟩ | ⟨-, rfl⟩ | ⟨-, -, rfl⟩ | ⟨-, -, hr⟩
  · simp [ChecksTimeout] at hi
  · exact .inl (.refl e i t)
  · exact .inr ⟨s, _, _, .refl e i s, rfl⟩
  · exact (microSteps_timerOnly e s hi).outcome hr

/-- It keeps the frame from the time it has set, if any. -/
theorem execIn_timer_kept {e : Env} {i : Instr} {s t : State} (hi : ChecksTimeout i) (hx : execIn e i s = .next t) :
    ∃ nw, Kept { s with now := nw } t ∧ ((∀ v, i ≠ .time v) → nw = s.now) := by
  cases execIn_changes hx with
  | wrcfg c v hp ht => simp [ChecksTimeout] at hi
  | rdcsr c ht => simp [ChecksTimeout] at hi
  | time v hv hk => exact ⟨v, hk, fun hne => absurd rfl (hne v)⟩
  | kept i hk hne => exact ⟨s.now, hk, fun _ => rfl⟩

/-- Settles O51, by `execIn_timerOnly` and `execIn_timer_kept`. -/
theorem timerCommandsFrame : Obligations.TimerCommandsFrame := by
  intro s t i (hi : ChecksTimeout i) hx
  rw [exec_eq_execIn] at hx
  obtain ⟨nw, hk, hnow⟩ := execIn_timer_kept hi hx
  have hclock : (∀ v, i ≠ .time v) → t.now = s.now := fun hne => hk.now.trans (hnow hne)
  refine ⟨hk.port, hk.decoder, hk.k, hk.n, hk.tag, hk.mode, hk.lat, ?_⟩
  rcases execIn_timerOnly hi hx with h | ⟨u, c, v, h, rfl⟩
  · exact ⟨h.acc, hk.rspStream, hclock, h.phase.imp_right .inl, fun _ => h.fault, h.idle,
      fun a hslot hparity => h.stored a (not_storesTo hslot hparity)⟩
  · refine ⟨by simpa using h.acc, hk.rspStream, hclock, .inr (.inr (by simp)), fun hrun => by simp at hrun,
      by simpa using h.idle, fun a hslot hparity => ?_⟩
    rw [State.raiseFault_frag]
    exact h.stored a (not_storesTo hslot hparity)

end Sys2Proof.Machine
end

section
/-!
PROOFS. The control commands (43_control.md): dispatch (R210), `WRCFG`, `RDCSR` and `START` (R211 to R218), the entries I
of the table of R217, and who writes the response stream (R213).
-/

namespace Sys2Proof

/-! ## Command words as numbers (30_encoding.md R92 to R96) -/

/-- Two fields side by side are a number: the high one weighs `2^w`. -/
theorem append_eq_ofNat {v w : Nat} (x : BitVec v) (y : BitVec w) :
    x ++ y = BitVec.ofNat (v + w) (x.toNat * 2 ^ w + y.toNat) := by
  have hsum : (x ++ y).toNat = x.toNat * 2 ^ w + y.toNat := by
    rw [BitVec.toNat_append, Nat.shiftLeft_eq, Nat.mul_comm, ← Nat.two_pow_add_eq_or_of_lt y.isLt]
  rw [← hsum, BitVec.ofNat_toNat, BitVec.setWidth_eq]

theorem commandWord_wrcfg (c : Csr) (v : Word) :
    (Instr.wrcfg c v).commandWord = BitVec.ofNat 32 (0x10000000 + 0x1000000 * c.number.toNat) := by
  cases c <;> rfl

theorem commandWord_dgram (p : List Byte) :
    (Instr.dgram p).commandWord = BitVec.ofNat 32 (0x40000000 + p.length % 65536) := by
  rw [Instr.commandWord, append_eq_ofNat, BitVec.toNat_ofNat]
  rfl

end Sys2Proof

namespace Sys2Proof.Machine

/-! ## The response stream (R213) -/

/-- No frame and one word for an `RDCSR`, no word for any other command. -/
theorem Changes.responses {i : Instr} {s t : State} (h : Changes s t i) :
    ((∀ c, i ≠ .rdcsr c) → t.rspStream = s.rspStream) ∧
    (∀ c, i = .rdcsr c → t.txStream = s.txStream ∧ t.rspStream = s.rspStream ++ [readCsr c s]) := by
  cases h with
  | wrcfg c v hp ht => exact ⟨fun _ => by rw [ht]; rfl, by simp⟩
  | rdcsr c ht =>
    subst ht
    refine ⟨fun hne => absurd rfl (hne c), fun c' hc => ?_⟩
    cases hc
    exact ⟨State.txStream_respond _ s, State.rspStream_respond _ s⟩
  | time v hv hk => exact ⟨fun _ => hk.rspStream, by simp⟩
  | kept i hk hne => exact ⟨fun _ => hk.rspStream, fun c hc => absurd hc (hne c)⟩

/-- Settles O59: of the four kinds of change only that of an `RDCSR` appends a response word. -/
theorem onlyRdcsrResponds : Obligations.OnlyRdcsrResponds := by
  intro i s t h
  rw [exec_eq_execIn] at h
  exact (execIn_changes h).responses

/-! ## The step -/

/-- Settles O6, by `step_of_command`. -/
theorem stepRunsTheDecodedCommand : Obligations.StepRunsTheDecodedCommand := fun _ _ _ h => step_of_command h

/-! ## A command that is not legal (R217) -/

theorem exec_illegal {i : Instr} {s : State} {w : Word} (hp : s.phase ≠ .halt)
    (hl : legal i s.phase s.mode = false) (hw : i.commandWord = w) :
    exec i s = .next (s.raiseFault .illegalCmd w) := by
  rw [exec_eq_execIn, execIn_illegal _ hp hl, hw]

theorem Phase.ne_uncfg_of_run {p : Phase} (hp : p = .idle ∨ p = .drain) : p ≠ .uncfg := by
  rcases hp with rfl | rfl <;> decide

/-- Settles O20: each of these entries is illegal by `legal`, and the command word is the table's. -/
theorem commandIllegalInItsPhase : Obligations.CommandIllegalInItsPhase := by
  refine fun s p => ⟨fun hp => ?_, fun hp => ?_, fun hp hm => ?_⟩
  · have hrun : s.phase ≠ .halt := by simp [hp]
    exact ⟨exec_illegal hrun (by simp [legal, hp]) (commandWord_dgram p),
      exec_illegal hrun (by simp [legal, hp]) rfl,
      exec_illegal hrun (by simp [legal, hp]) rfl,
      exec_illegal hrun (by simp [legal, hp]) rfl⟩
  · exact exec_illegal (Phase.ne_halt_of_run hp) (by simp [legal, Phase.ne_uncfg_of_run hp]) rfl
  · exact exec_illegal (Phase.ne_halt_of_run hp) (by simp [legal, hm]) rfl

/-! ## WRCFG (R211) -/

/-- In `UNCFG` a configuration register takes its field of the value. -/
theorem exec_wrcfg_writable {c : Csr} {v : Word} {s t : State} (hp : s.phase = .uncfg) (hc : csrWritable c = true)
    (ht : writeCsr (Instr.wrcfg c v).commandWord c v s = .run t) : exec (.wrcfg c v) s = .next t := by
  rw [exec_eq_execIn, execIn_legal _ (by simp [hp]) (by simp [legal, hp, hc]), microSteps, ht, Flow.outcome_run]

/-- Read-only, or out of `UNCFG`: the command is not legal. -/
theorem exec_wrcfg_illegal {c : Csr} (v : Word) {s : State} (hp : s.phase ≠ .halt)
    (h : s.phase ≠ .uncfg ∨ csrWritable c = false) :
    exec (.wrcfg c v) s =
      .next (s.raiseFault .illegalCmd (BitVec.ofNat 32 (0x10000000 + 0x1000000 * c.number.toNat))) := by
  refine exec_illegal hp ?_ (commandWord_wrcfg c v)
  rcases h with h | h <;> simp [legal, h]

/-- The mode that bit 0 of a written value selects (10_state.md R31). -/
theorem Mode.ofBit_low (v : Word) :
    Mode.ofBit (v.extractLsb' 0 1) = if v.getLsbD 0 then .aggregation else .passThrough := by
  have hbit : v.extractLsb' 0 1 = BitVec.ofBool (v.getLsbD 0) := by
    ext i hi
    obtain rfl : i = 0 := by omega
    simp
  rw [hbit]
  cases v.getLsbD 0 <;> rfl

/-- Settles O15: a write to a configuration register stores its field, every other `WRCFG` is illegal. -/
theorem wrcfgStoresTheFieldBits : Obligations.WrcfgStoresTheFieldBits := by
  refine fun s v => ⟨fun hp => ?_, fun hp c =>
    exec_wrcfg_illegal v (Phase.ne_halt_of_run hp) (.inl (Phase.ne_uncfg_of_run hp))⟩
  rw [BitVec.setWidth_eq_extractLsb' (by decide), BitVec.setWidth_eq_extractLsb' (by decide), ← Mode.ofBit_low]
  refine ⟨exec_wrcfg_writable hp rfl rfl, exec_wrcfg_writable hp rfl rfl, exec_wrcfg_writable hp rfl rfl,
    exec_wrcfg_writable hp rfl rfl, exec_wrcfg_writable hp rfl rfl, fun c hc => ?_⟩
  have hreadOnly : csrWritable c = false := by
    revert c
    decide
  exact exec_wrcfg_illegal v (by simp [hp]) (.inr hreadOnly)

/-! ## RDCSR (R212, R218) -/

theorem exec_rdcsr {c : Csr} {s : State} {v : Word} (h : readCsr c s = v) :
    exec (.rdcsr c) s = .next { s with events := s.events ++ [.rsp v] } := by
  rw [← h]
  rfl

theorem ofNat_mod_two_pow_32 (n : Nat) : BitVec.ofNat 32 (n % 2 ^ 32) = BitVec.ofNat 32 n :=
  BitVec.eq_of_toNat_eq (by simp)

/-- The low word of a 64-bit register (R218). -/
theorem low_word_eq_ofNat (x : BitVec 64) : x.extractLsb' 0 32 = BitVec.ofNat 32 (x.toNat % 2 ^ 32) :=
  BitVec.eq_of_toNat_eq (by simp)

/-- The high word of a 64-bit register (R218). -/
theorem high_word_eq_ofNat (x : BitVec 64) : x.extractLsb' 32 32 = BitVec.ofNat 32 (x.toNat / 2 ^ 32) :=
  BitVec.eq_of_toNat_eq (by rw [BitVec.extractLsb'_toNat, Nat.shiftRight_eq_div_pow, BitVec.toNat_ofNat])

theorem Mode.bit_word (m : Mode) : m.bit.setWidth 32 = if m = .aggregation then (1 : Word) else 0 := by
  cases m <;> rfl

/-- Settles O16: `RDCSR` answers `readCsr`, whose word is given register by register. -/
theorem rdcsrAnswersTheCsr : Obligations.RdcsrAnswersTheCsr := fun s =>
  ⟨exec_rdcsr (BitVec.ofNat_toNat 32 s.k).symm,
    exec_rdcsr (BitVec.ofNat_toNat 32 s.n).symm,
    exec_rdcsr (BitVec.ofNat_toNat 32 s.tag).symm,
    exec_rdcsr s.mode.bit_word,
    exec_rdcsr rfl,
    exec_rdcsr rfl,
    exec_rdcsr (ofNat_mod_two_pow_32 s.blkIdx).symm,
    exec_rdcsr rfl,
    exec_rdcsr rfl,
    exec_rdcsr (ofNat_mod_two_pow_32 s.seq).symm,
    exec_rdcsr rfl,
    exec_rdcsr (low_word_eq_ofNat s.deadline),
    exec_rdcsr (high_word_eq_ofNat s.deadline),
    exec_rdcsr (low_word_eq_ofNat s.now),
    exec_rdcsr (high_word_eq_ofNat s.now),
    exec_rdcsr rfl⟩

/-! ## START (R214 to R216) -/

theorem exec_start {s : State} (hp : s.phase = .uncfg) :
    exec .start s = (microSteps Config.env .start s).outcome := by
  rw [exec_eq_execIn, execIn_legal _ (by simp [hp]) (by simp [legal, hp])]

/-- The timeout check at the end of `START` leaves the core as constructed: nothing waits, and a deadline that is due is
restarted at the value it has (42_ingestion.md R180). -/
theorem checkTimeout_constructCore (e : Env) (s : State) :
    checkTimeout e (constructCore s) = .run (constructCore s) := by
  have hrestart : (constructCore s).restartDeadline = constructCore s := rfl
  rw [checkTimeout_of_empty e (constructCore_accLen s), hrestart, ite_self]

/-- Settles O18: the two modes differ in the timeout check, which changes nothing. -/
theorem startConstructsTheCore : Obligations.StartConstructsTheCore := by
  intro s hp hk hkn hn
  rw [exec_start hp, microSteps, if_pos ⟨hk, hkn, hn⟩, checkTimeout_constructCore, ite_self, Flow.outcome_run]
  rfl

/-- Settles O19: the configuration is checked before anything is written. -/
theorem startChecksTheConfiguration : Obligations.StartChecksTheConfiguration := by
  intro s hp hcfg
  rw [exec_start hp, microSteps, if_neg hcfg, raise, Flow.outcome_ended, append_eq_ofNat]
  rfl

end Sys2Proof.Machine
end

section
/-!
PROOFS. Faults, `HALT` and waiting (60_exceptions.md): what `raise` leaves (R231), what a step does in `HALT` (R232, R233),
and that a step without a word on the port changes nothing (R242).
-/

namespace Sys2Proof.Machine

/-! ## Raising a fault (R231) -/

/-- A later fault only halts: the record is the first one's. -/
theorem State.raiseFault_of_fault {s : State} (h : s.fault = true) (c : Cause) (v : Word) :
    s.raiseFault c v = { s with phase := .halt } := if_pos h

/-- Settles O11: `raiseFault` asks for `FAULT` alone, and an ended flow runs nothing behind it. -/
theorem raiseRecordsTheFirstFault : Obligations.RaiseRecordsTheFirstFault := fun c v s g =>
  ⟨fun hclear => State.raiseFault_eq hclear c v, fun hset => State.raiseFault_of_fault hset c v,
    Flow.ended_andThen (s.raiseFault c v) g⟩

/-! ## HALT (R232, R233) -/

/-- In `HALT` a command is discarded or answers one response word. -/
theorem exec_halt (i : Instr) {s : State} (h : s.phase = .halt) :
    exec i s = .next s ∨ ∃ v, exec i s = .next (s.respond v) := by
  by_cases hi : ∃ c, i = .rdcsr c
  · obtain ⟨c, rfl⟩ := hi
    exact .inr ⟨readCsr c s, rfl⟩
  · rw [exec_eq_execIn]
    exact .inl (execIn_halt _ h (not_exists.1 hi))

/-- In `HALT` a step moves words between the port and the decoder, and appends at most one response word. -/
theorem step_halt {s : State} (h : s.phase = .halt) :
    ∃ ds ps, step s = .next { s with decoder := ds, port := ps } ∨
      ∃ v, step s = .next (State.respond v { s with decoder := ds, port := ps }) := by
  cases hd : decode (s.decoder ++ s.port) with
  | incomplete => exact ⟨_, _, .inl (step_of_incomplete hd)⟩
  | malformedWord w rest => exact ⟨[], rest, .inl ((step_of_malformedWord hd).trans (command_halt h))⟩
  | command i rest =>
    rw [step_of_command hd]
    exact ⟨[], rest, exec_halt i h⟩

/-- Settles O13: neither the moved words nor a response word is a TX record (`step_halt`). -/
theorem haltIsTerminal : Obligations.HaltIsTerminal := by
  intro s h
  obtain ⟨ds, ps, hmoved | ⟨v, hresponded⟩⟩ := step_halt h
  · exact ⟨_, hmoved, rfl, rfl⟩
  · exact ⟨_, hresponded, rfl, State.txStream_respond v _⟩

/-- Settles O12: `command` discards in `HALT`, and the step there that is known to answer (`haltIsTerminal`) takes exactly
one command. -/
theorem haltDiscardsAllButRdcsr : Obligations.HaltDiscardsAllButRdcsr := by
  refine fun s h => ⟨fun c => exec_rdcsr rfl, fun i hi => ?_, fun w => command_halt h, fun w f rest hws hf => ?_⟩
  · rw [exec_eq_execIn, execIn_halt _ h hi]
  · obtain ⟨t, ht, -⟩ := haltIsTerminal s h
    exact ⟨t, ht, stepTakesExactlyOneCommand s t w f rest hws hf ht⟩

/-! ## Waiting for the host (R242, R266) -/

/-- What the decoder holds between two steps is no complete command (10_state.md R23). -/
theorem State.Inv.decode_decoder {e : Env} {s : State} (h : s.Inv e) : decode s.decoder = .incomplete := by
  cases hd : s.decoder with
  | nil => rfl
  | cons w ws => exact decode_incomplete (h.decoderPartial w ws hd)

theorem State.Inv.step_of_port_empty {e : Env} {s : State} (h : s.Inv e) (hport : s.port = []) : step s = .next s := by
  have hwords : s.decoder ++ s.port = s.decoder := by rw [hport, List.append_nil]
  have hwait : decode (s.decoder ++ s.port) = .incomplete := by rw [hwords]; exact h.decode_decoder
  rw [step_of_incomplete hwait, hwords, ← hport]

/-- Settles O57: at the end of a run, whichever of the three it is, the port is empty. -/
theorem blockWaitsForTheHost : Obligations.BlockWaitsForTheHost := by
  rintro s h (⟨hport, -⟩ | ⟨hport, -⟩ | ⟨hport, -⟩) <;> exact h.step_of_port_empty hport

end Sys2Proof.Machine
end

section
/-!
PROOFS. Reset and the hazards a host can see (70_reset_and_hazards.md): the reset input (R260), the lock on the
configuration from `START` on (R264), and time going backwards or standing still (R265).
-/

namespace Sys2Proof.Machine

/-! ## The configuration lock (R264) -/

/-- The configuration is as it was and the block is out of `UNCFG`. -/
def Locked (s t : State) : Prop :=
  t.k = s.k ∧ t.n = s.n ∧ t.tag = s.tag ∧ t.mode = s.mode ∧ t.lat = s.lat ∧ t.phase ≠ .uncfg

theorem Locked.refl {s : State} (hs : s.phase ≠ .uncfg) : Locked s s := ⟨rfl, rfl, rfl, rfl, rfl, hs⟩

theorem Kept.locked {s t : State} (h : Kept s t) (hs : s.phase ≠ .uncfg) : Locked s t :=
  ⟨h.k, h.n, h.tag, h.mode, h.lat, fun ht => hs (h.phase ht)⟩

/-- The one change that is not locked, that of a legal `WRCFG`, starts in `UNCFG`. -/
theorem Changes.locked {i : Instr} {s t : State} (h : Changes s t i) (hs : s.phase ≠ .uncfg) : Locked s t := by
  cases h with
  | wrcfg c v hp ht => exact absurd hp hs
  | rdcsr c ht => subst ht; exact .refl hs
  | time v hv hk => exact hk.locked hs
  | kept i hk hi => exact hk.locked hs

/-- Taking words off the port does not touch the configuration, so the lock is that of the command taken. -/
theorem step_locked {s t : State} (h : step s = .next t) (hs : s.phase ≠ .uncfg) : Locked s t := by
  rcases step_next h with ⟨-, rfl⟩ | ⟨w, rest, -, hw⟩ | ⟨i, rest, -, hi⟩
  · exact .refl hs
  · exact (execMalformed_kept hw).locked hs
  · rw [exec_eq_execIn] at hi
    exact (execIn_changes hi).locked hs

/-- Settles O21, by `step_locked` and the dispatch of a `WRCFG` that is not legal. -/
theorem configurationIsLocked : Obligations.ConfigurationIsLocked := by
  refine fun s t hs => ⟨fun h => step_locked h hs, fun c v hp hf hx => ?_⟩
  rw [exec_wrcfg_illegal v hp (.inl hs)] at hx
  cases hx
  simp [hf]

/-! ## Time going backwards and time repeated (R265) -/

/-- A `TIME` that goes back raises `BAD_TIME` with the low word of the time it names (42_ingestion.md R178). -/
theorem execIn_time_back (e : Env) {s : State} {v : BitVec 64} (hp : s.phase ≠ .halt) (hv : v < s.now) :
    execIn e (.time v) s = .next (s.raiseFault .badTime (v.extractLsb' 0 32)) := by
  rw [execIn_legal e hp (by simpa [legal] using hp), microSteps, if_pos hv, raise, Flow.outcome_ended]

/-- A `TIME` that repeats the current time is the check alone. -/
theorem execIn_time_now (e : Env) {s : State} (hp : s.phase ≠ .halt) :
    execIn e (.time s.now) s = (checkTimeoutIfIdle e s).outcome :=
  execIn_time e hp (BitVec.le_refl s.now)

/-- The check changes nothing before the deadline, whatever the phase and the mode. -/
theorem checkTimeoutIfIdle_of_ahead (e : Env) {s : State} (h : s.now < s.deadline) :
    checkTimeoutIfIdle e s = .run s := by
  rw [checkTimeoutIfIdle, checkTimeout_of_ahead e h, ite_self]

/-- Settles O44: outside `HALT` a `TIME` is a raise or the check that `INTR` makes. -/
theorem timeNeverGoesBack : Obligations.TimeNeverGoesBack := by
  intro s v hp
  simp only [exec_eq_execIn]
  refine ⟨fun hv => ?_, fun h => ?_, fun hrun => ?_⟩
  · rw [execIn_time_back _ hp hv, low_word_eq_ofNat]
  · have hcheck : checkTimeoutIfIdle Config.env s = .run s := by
      rcases h with hu | hd | hm | hahead
      · exact checkTimeoutIfIdle_of_not_idle _ (.inl (by simp [hu]))
      · exact checkTimeoutIfIdle_of_not_idle _ (.inl (by simp [hd]))
      · exact checkTimeoutIfIdle_of_not_idle _ (.inr hm)
      · exact checkTimeoutIfIdle_of_ahead _ hahead
    rw [execIn_time_now _ hp, hcheck, Flow.outcome_run]
  · rw [execIn_time_now _ hp, execIn_intr _ hrun]

/-! ## The reset input (R260) -/

/-- Settles O53: `State.assertReset` is defined so; the values of `State.reset` are `resetLeavesTheResetValues`. -/
theorem resetInputRestoresTheResetValues : Obligations.ResetInputRestoresTheResetValues := fun _ => rfl

end Sys2Proof.Machine
end
